-- ==== Sys2Proof/Word.lean ====
section
/-! DEFINITION. Word.lean: the word types of the machine (00_scope.md rule R8: all bit vectors are unsigned, bit 0 the
least significant). -/

namespace Sys2Proof

/-- One byte of an instruction or of memory (20_memory.md rule R31). -/
abbrev Byte := BitVec 8

/-- One 64-bit element, general register or linear address. -/
abbrev Quad := BitVec 64

/-- The contents of one vector register: 512 bits, of which bits `MAX_VL-1:0` exist (00_scope.md rule R6). -/
abbrev Vec := BitVec 512

/-- The number of a general register, 0 to 15 (10_state.md rule R19). -/
abbrev GprNum := BitVec 4

/-- The number of a vector register that a VEX form can name, 0 to 15 (10_state.md rule R14). -/
abbrev VexReg := BitVec 4

/-- The number of a vector register that an EVEX form can name, 0 to 31 (10_state.md rule R14). -/
abbrev EvexReg := BitVec 5

end Sys2Proof
end

