-- ==== Sys2Proof/Config.lean ====
section
/-! DEFINITION. Config.lean: the free value of the spec, and the two values the model names where the spec gives none. The
parameters that 00_scope.md rule R7 calls the configuration of a run (`Features`, `Mode`, `LinearBits`, `Translate`) are
not here: they stand in State as plain data that no step writes, so that a statement about every state is a statement
about every configuration (log entry 1). -/

namespace Sys2Proof.Config

/-- FREE VALUE (log entry 2). The draw from which the flag set `G` of a SIMD floating-point fault is made
(60_exceptions.md rule R142, 93_implementation_defined.md U3). It has no body: nothing can be proved of its values. -/
opaque simdFaultFlags : Nat → BitVec 6

/-- DESIGN CHOICE (log entry 3), unsafe: what a byte of memory reads as when nothing has written it. -/
def unlistedByte : Byte := 0

/-- DESIGN CHOICE (log entry 4), unsafe: the processor signature that `RDX` holds after reset (10_state.md rule R25 gives
no number). -/
def processorSignature : Quad := 0

end Sys2Proof.Config
end

