-- ==== Sys2Proof/Syntax.lean ====
section
/-! DEFINITION. Syntax.lean: the fifteen instructions of spec/opcode_table.json (30_encoding.md rule R58), one constructor
a row, with the operands 30_encoding.md rules R50 to R56 give them. An operand record keeps what the length of the
instruction depends on (permitted prefixes, SIB byte, size of the displacement), because the next instruction's address
depends on it (10_state.md rule R18). -/

namespace Sys2Proof

/-- The six segments a permitted segment-override prefix can name (30_encoding.md rule R61). -/
inductive SegName where
  | es | cs | ss | ds | fs | gs
deriving DecidableEq, Repr

/-- The permitted legacy prefixes of an instruction (30_encoding.md rule R61): at most one segment override, and the
address-size prefix `67H` or not. -/
structure Prefixes where
  seg      : Option SegName
  addrSize : Bool
deriving DecidableEq, Repr

/-- The four rounding modes (40_fma_element.md rule R90). -/
inductive RoundingMode where
  | nearest | down | up | zero
deriving DecidableEq, Repr

/-- The displacement of a memory operand as the instruction holds it, not yet scaled (30_encoding.md rule R55). -/
inductive Disp where
  | none
  | disp8  (d : BitVec 8)
  | disp32 (d : BitVec 32)
deriving DecidableEq, Repr

/-- The rows of the address table of 30_encoding.md rule R54. An `index` of 4 (the number of `RSP`) means "no index". -/
inductive AddrForm where
  /-- `rm` not 100: a base register and no SIB byte. -/
  | base (base : GprNum) (disp : Disp)
  /-- `mod = 00`, `rm = 101`: RIP-relative in `Long64`, the displacement alone in the 32-bit modes (rule R68). -/
  | disp32 (d : BitVec 32)
  /-- `rm = 100` with a base register in the SIB byte. -/
  | sib (scale : BitVec 2) (index base : GprNum) (disp : Disp)
  /-- `mod = 00`, `rm = 100`, `SIB.base = 101`: an index and a displacement, no base. -/
  | sibNoBase (scale : BitVec 2) (index : GprNum) (d : BitVec 32)
deriving DecidableEq, Repr

/-- `SRC3` of a VEX form: a register or memory (41_vfmsubadd_vex.md rule R109: no broadcast, no rounding). -/
inductive VexRm where
  | reg (n : VexReg)
  | mem (a : AddrForm)
deriving DecidableEq, Repr

/-- `SRC3` of an EVEX form of 128 or 256 bits: a register, memory, or one element of memory broadcast. -/
inductive EvexRm where
  | reg   (n : EvexReg)
  | mem   (a : AddrForm)
  | bcast (a : AddrForm)
deriving DecidableEq, Repr

/-- `SRC3` of an EVEX form of 512 bits: as `EvexRm`, or a register with embedded rounding, which no other length has
(30_encoding.md rule R51). -/
inductive EvexRm512 where
  | reg        (n : EvexReg)
  | regRounded (n : EvexReg) (rc : RoundingMode)
  | mem        (a : AddrForm)
  | bcast      (a : AddrForm)
deriving DecidableEq, Repr

/-- The operands of a VEX form (30_encoding.md rule R78, row RVM). -/
structure VexOperands where
  pre  : Prefixes
  dest : VexReg
  src2 : VexReg
  src3 : VexRm
deriving DecidableEq, Repr

/-- The operands of an EVEX form (30_encoding.md rule R78, row FV): `aaa` names the writemask, 0 for none; `z` selects
zeroing-masking (rule R52). -/
structure EvexOperands (ρ : Type) where
  pre  : Prefixes
  dest : EvexReg
  src2 : EvexReg
  aaa  : BitVec 3
  z    : Bool
  src3 : ρ
deriving DecidableEq, Repr

/-- The instructions, in the order of spec/opcode_table.json. -/
inductive Instr where
  | vfmsubadd132pdVex128  (o : VexOperands)
  | vfmsubadd213pdVex128  (o : VexOperands)
  | vfmsubadd231pdVex128  (o : VexOperands)
  | vfmsubadd132pdVex256  (o : VexOperands)
  | vfmsubadd213pdVex256  (o : VexOperands)
  | vfmsubadd231pdVex256  (o : VexOperands)
  | vfmsubadd132pdEvex128 (o : EvexOperands EvexRm)
  | vfmsubadd213pdEvex128 (o : EvexOperands EvexRm)
  | vfmsubadd231pdEvex128 (o : EvexOperands EvexRm)
  | vfmsubadd132pdEvex256 (o : EvexOperands EvexRm)
  | vfmsubadd213pdEvex256 (o : EvexOperands EvexRm)
  | vfmsubadd231pdEvex256 (o : EvexOperands EvexRm)
  | vfmsubadd132pdEvex512 (o : EvexOperands EvexRm512)
  | vfmsubadd213pdEvex512 (o : EvexOperands EvexRm512)
  | vfmsubadd231pdEvex512 (o : EvexOperands EvexRm512)
deriving DecidableEq, Repr

/-- The operand order a mnemonic's digits name (00_scope.md rule R10). -/
inductive FmaForm where
  | f132 | f213 | f231
deriving DecidableEq, Repr

end Sys2Proof
end

