-- ==== Sys2Proof/Machine/State.lean ====
section
/-! DEFINITION. Machine/State.lean: the state of the machine (10_state.md), the parameters of a run (00_scope.md rule R7),
the reasons a step can stop, and the state after reset (10_state.md rule R25). -/

namespace Sys2Proof.Machine

/-! ## Parameters of a run -/

/-- The CPUID feature flags (00_scope.md rule R2). -/
structure Features where
  fma      : Bool
  avx512f  : Bool
  avx512vl : Bool
deriving DecidableEq, Repr

/-- The implemented width of a linear address (00_scope.md rule R7, `LinearBits`). -/
inductive LinearBits where
  | bits48 | bits57
deriving DecidableEq, Repr

/-- What a translated access is for (92_eei_decisions.md D27: `Translate` takes the access kind). -/
inductive AccessKind where
  | read | fetch
deriving DecidableEq, Repr

/-- What `Translate` answers for the addresses of one range (20_memory.md rule R44). -/
inductive Translated where
  /-- The byte at the range's first linear address is the physical byte `physical`; the others follow in order. -/
  | maps (physical : BitVec 64)
  /-- A page fault with this fault code. The spec leaves the bits of the code out (20_memory.md rule R44); that it has 32
  is the model's choice (PRESUMED, log entry 10). -/
  | faults (code : BitVec 32)
  /-- Memory whose reads have side effects, which the spec refuses (20_memory.md rule R39). -/
  | device
deriving DecidableEq, Repr

/-- One range of linear addresses of `Translate`, for one kind of access and one privilege level or for all
(`none`). -/
structure TranslateRange where
  first  : BitVec 64
  last   : BitVec 64
  kind   : Option AccessKind
  cpl    : Option (BitVec 2)
  answer : Translated
deriving DecidableEq, Repr

/-- The configuration of 00_scope.md rule R7 that is not the mode: fixed for a run, and no step writes it. `translate` is
`Translate` as data: the first range that holds an address answers, and an address in no range is its own physical
address (log entry 7). -/
structure Params where
  features   : Features
  linearBits : LinearBits
  translate  : List TranslateRange
deriving DecidableEq, Repr

/-! ## Architectural state -/

/-- The processor mode of 00_scope.md rule R7. Real-address and virtual-8086 mode are told by `CR0.PE` and `RFLAGS.VM`
(60_exceptions.md rule R133), whatever this field holds. -/
inductive Mode where
  | long64 | compat32 | protected32
deriving DecidableEq, Repr

/-- What an access through a segment depends on (10_state.md rule R20, 20_memory.md rule R45): the base, the largest offset
that may be read, and whether the segment can be read at all (neither null nor unreadable). -/
structure Segment where
  base     : BitVec 64
  limit    : BitVec 32
  readable : Bool
deriving DecidableEq, Repr

/-- The segment registers (10_state.md rule R20, 30_encoding.md rule R61). -/
structure Segments where
  es : Segment
  cs : Segment
  ss : Segment
  ds : Segment
  fs : Segment
  gs : Segment
deriving DecidableEq, Repr

/-- Memory: the bytes that differ from `Config.unlistedByte`, by rising physical address (20_memory.md rule R31). -/
structure Memory where
  cells : List Host.Cell
deriving DecidableEq, Repr

/-- The state of the machine (10_state.md, the record before rule R13, and the further state its rules R20 to R22 and
20_memory.md rule R44 name). -/
structure State where
  /-- `ZMM0` to `ZMM31` (rule R13); where `MAX_VL = 256` only the low halves of the first sixteen exist. -/
  zmm    : Vector Vec 32
  /-- `k0` to `k7` (rule R15). -/
  k      : Vector Quad 8
  /-- `MXCSR` (rule R16). -/
  mxcsr  : BitVec 32
  /-- `RIP` (rule R18). -/
  rip    : Quad
  /-- `RAX` to `R15` (rule R19). -/
  gpr    : Vector Quad 16
  /-- Bases, limits and readability of the segments (rule R20). -/
  segs   : Segments
  /-- `RFLAGS` (rules R21, R22). -/
  rflags : Quad
  /-- `CR0` (rule R22). -/
  cr0    : Quad
  /-- `CR2`, the linear address of a page fault (20_memory.md rule R44). -/
  cr2    : Quad
  /-- `CR4` (rule R22). -/
  cr4    : Quad
  /-- `XCR0` (rule R22). -/
  xcr0   : Quad
  /-- The current privilege level (rule R22, 60_exceptions.md rule R146). -/
  cpl    : BitVec 2
  /-- The processor mode (00_scope.md rule R7). -/
  mode   : Mode
  /-- In a 32-bit mode, the code segment is a 16-bit one (30_encoding.md rule R69). -/
  code16 : Bool
  /-- The parameters of the run (00_scope.md rule R7). -/
  params : Params
  /-- Memory (20_memory.md rule R31). -/
  mem    : Memory
  /-- The MODEL's own field: how many free values have been drawn (log entry 2). -/
  draws  : Nat
deriving DecidableEq, Repr

/-- The vector lengths (30_encoding.md rule R51). -/
inductive VecLen where
  | v128 | v256 | v512
deriving DecidableEq, Repr

/-! ## Why a step stops -/

/-- The exceptions of 60_exceptions.md rule R130. Each is the outcome `Fault(#X, info, s'')` of 00_scope.md rule R11 with
the state `after` it (60_exceptions.md rule R141); delivery is outside the spec (00_scope.md rule R5). All are safe: they
are the outcomes the spec gives. -/
inductive Fault where
  /-- #UD, vector 6, raised by the mode, enabling, feature and encoding conditions of 60_exceptions.md rules R133 to R136,
  and in place of #XM by rule R132. Safe. -/
  | invalidOpcode (after : State)
  /-- #NM, vector 7, raised when `CR0.TS = 1` (60_exceptions.md rule R137). Safe. -/
  | deviceNotAvailable (after : State)
  /-- #SS(0), vector 12, raised by a memory operand in the stack segment (60_exceptions.md rule R138). Safe. -/
  | stackSegment (after : State)
  /-- #GP(0), vector 13, raised by a memory operand in another segment (60_exceptions.md rule R138) and by an instruction
  longer than fifteen bytes (30_encoding.md rule R57). Safe. -/
  | generalProtection (after : State)
  /-- #PF(code), vector 14, raised where `Translate` refuses a byte that is read (60_exceptions.md rule R138); the width of
  the code is the model's choice (log entry 10). Safe. -/
  | pageFault (code : BitVec 32) (after : State)
  /-- #XM, vector 19, raised by an unmasked SIMD floating-point exception (60_exceptions.md rules R131, R132). Safe. -/
  | simdFloatingPoint (after : State)
deriving DecidableEq, Repr

/-- What the spec gives no meaning to (00_scope.md rule R11, `Refused`). All are safe. -/
inductive Refusal where
  /-- An instruction of the table that has no meaning yet, raised by exec alone; no arm of exec answers with it. Safe. -/
  | notModelled (mnemonic : String)
  /-- The bytes are another instruction (30_encoding.md rule R71), raised by the step. Safe. -/
  | notThisGroup
  /-- More than one segment override, or `67H` twice (30_encoding.md rule R61), raised by the step. Safe. -/
  | repeatedPrefix
  /-- An extension bit set in a 32-bit mode (30_encoding.md rule R68 (c)), raised by the step. Safe. -/
  | extensionBit
  /-- A memory operand with 16-bit addressing (30_encoding.md rule R69, 00_scope.md rule R5), raised by the step. Safe. -/
  | addressing16
  /-- A byte of the instruction cannot be fetched (60_exceptions.md rule R140: outside the spec), raised by the step.
  Safe. -/
  | fetchFault
  /-- An operand in memory whose reads have side effects (20_memory.md rule R39), raised by a memory form. Safe. -/
  | readSideEffects
deriving DecidableEq, Repr

/-! ## Reset -/

/-- A segment with this base as it is after reset: limit `FFFFH`, readable (PRESUMED, the family's; log entry 8). -/
def resetSegment (base : BitVec 64) : Segment := ⟨base, 0xFFFF#32, true⟩

/-- The state after reset (10_state.md rule R25; what that rule does not give is in log entries 2, 3, 4, 7, 8, 9 and 31). -/
def State.reset : State where
  zmm    := Vector.replicate 32 0
  k      := Vector.replicate 8 0
  mxcsr  := 0x00001F80#32
  rip    := 0x0000FFF0#64
  gpr    := (Vector.replicate 16 0).set 2 Config.processorSignature
  segs   :=
    { es := resetSegment 0
      cs := resetSegment 0xFFFF0000#64
      ss := resetSegment 0
      ds := resetSegment 0
      fs := resetSegment 0
      gs := resetSegment 0 }
  rflags := 0x2#64
  cr0    := 0x60000010#64
  cr2    := 0
  cr4    := 0
  xcr0   := 1
  cpl    := 0
  mode   := .protected32
  code16 := true
  params := ⟨⟨true, true, true⟩, .bits48, []⟩
  mem    := ⟨[]⟩
  draws  := 0

end Sys2Proof.Machine
end

