-- ==== Sys2Proof/Machine/Flags.lean ====
section
/-! DEFINITION. Machine/Flags.lean: `MXCSR` and its exception flags (10_state.md rules R16, R17), and the condition for a
SIMD floating-point exception (60_exceptions.md rule R131). A set of flags is a value of six bits in the order of
`MXCSR[5:0]`. -/

namespace Sys2Proof.Machine

/-! ## The flags, in the order of MXCSR[5:0] -/

def flagIE : BitVec 6 := 0b000001#6
def flagDE : BitVec 6 := 0b000010#6
def flagZE : BitVec 6 := 0b000100#6
def flagOE : BitVec 6 := 0b001000#6
def flagUE : BitVec 6 := 0b010000#6
def flagPE : BitVec 6 := 0b100000#6

/-- `f` if `p`, else no flag. -/
def flagIf (p : Bool) (f : BitVec 6) : BitVec 6 := if p then f else 0#6

/-! ## The fields of MXCSR (10_state.md rule R16) -/

def mxcsrFlags (m : BitVec 32) : BitVec 6 := m.extractLsb' 0 6
def mxcsrDAZ (m : BitVec 32) : Bool := m.getLsbD 6
def mxcsrMasks (m : BitVec 32) : BitVec 6 := m.extractLsb' 7 6
def mxcsrRC (m : BitVec 32) : BitVec 2 := m.extractLsb' 13 2
def mxcsrFTZ (m : BitVec 32) : Bool := m.getLsbD 15
def mxcsrReserved (m : BitVec 32) : BitVec 16 := m.extractLsb' 16 16

/-- `MXCSR.RC` as a mode; the code is that of `EVEX.RC` (40_fma_element.md rule R90). -/
def mxcsrRounding (m : BitVec 32) : RoundingMode :=
  if mxcsrRC m = 0#2 then .nearest else if mxcsrRC m = 1#2 then .down else if mxcsrRC m = 2#2 then .up else .zero

/-- `MXCSR[5:0] <- MXCSR[5:0] OR f` (10_state.md rule R16). -/
def orFlags (m : BitVec 32) (f : BitVec 6) : BitVec 32 := m ||| f.setWidth 32

/-! ## SIMD floating-point exceptions -/

/-- The set `U` of 60_exceptions.md rule R131: the kinds, of the five these instructions can signal, whose mask bit is 0. -/
def unmasked (m : BitVec 32) : BitVec 6 := ~~~mxcsrMasks m &&& (flagIE ||| flagDE ||| flagOE ||| flagUE ||| flagPE)

/-- The condition of 60_exceptions.md rule R131 for one element: a flag it raises is unmasked, or it is tiny and underflow
is unmasked. -/
def elementTraps (m : BitVec 32) (flags : BitVec 6) (tiny : Bool) : Bool :=
  flags &&& unmasked m != 0#6 || (tiny && flagUE &&& unmasked m != 0#6)

/-- What one element adds to the set `Raised` of 60_exceptions.md rule R142. -/
def elementRaised (m : BitVec 32) (flags : BitVec 6) (tiny : Bool) : BitVec 6 :=
  flags ||| flagIf (tiny && flagUE &&& unmasked m != 0#6) flagUE

/-- The set `G` of 60_exceptions.md rule R142 from a free value: every set inside `Raised` that meets `U` is drawn by some
value, and no other set is. -/
def drawFlags (m : BitVec 32) (raised : BitVec 6) (free : BitVec 6) : BitVec 6 :=
  if free &&& raised &&& unmasked m = 0#6 then raised else free &&& raised

end Sys2Proof.Machine
end

