-- ==== Sys2Proof/Machine/FmaElem.lean ====
section
/-! DEFINITION. Machine/FmaElem.lean: the per-element fused arithmetic `FmaElem` (40_fma_element.md). The exact sum of rule
R90 is an integer here: a finite value is a whole multiple of `2^-1074` (rule R81), so a product, and with it the sum, is a
whole multiple of `2^-2148`. -/

namespace Sys2Proof.Machine

/-! ## The number format (rule R81) -/

def dblSign (x : Quad) : Bool := x.getLsbD 63
def dblExponent (x : Quad) : Nat := (x.extractLsb' 52 11).toNat
def dblFraction (x : Quad) : Nat := (x.extractLsb' 0 52).toNat

def isZero (x : Quad) : Bool := dblExponent x == 0 && dblFraction x == 0
def isDenormal (x : Quad) : Bool := dblExponent x == 0 && dblFraction x != 0
def isInfinite (x : Quad) : Bool := dblExponent x == 2047 && dblFraction x == 0
def isNaN (x : Quad) : Bool := dblExponent x == 2047 && dblFraction x != 0
def isSNaN (x : Quad) : Bool := isNaN x && !x.getLsbD 51

def qNaNIndefinite : Quad := 0xFFF8000000000000#64

/-- The zero of a sign. -/
def signedZero (negative : Bool) : Quad := if negative then 0x8000000000000000#64 else 0#64

/-- The infinity of a sign. -/
def signedInfinity (negative : Bool) : Quad := if negative then 0xFFF0000000000000#64 else 0x7FF0000000000000#64

/-- The largest finite number of a sign. -/
def signedMax (negative : Bool) : Quad := if negative then 0xFFEFFFFFFFFFFFFF#64 else 0x7FEFFFFFFFFFFFFF#64

/-- `|val(x)|` of a finite `x`, in units of `2^-1074`. -/
def magnitude (x : Quad) : Nat :=
  if dblExponent x = 0 then dblFraction x else (2 ^ 52 + dblFraction x) * 2 ^ (dblExponent x - 1)

/-- `val(x)` of a finite `x`, in units of `2^-1074`. -/
def scaledValue (x : Quad) : Int := if dblSign x then -(magnitude x : Int) else (magnitude x : Int)

/-- `x := val(a) * val(b) + val(c)` of rule R90, in units of `2^-2148`. -/
def exactSum (a b c : Quad) : Int := scaledValue a * scaledValue b + scaledValue c * 2 ^ 1074

/-- `MAXDBL` in units of `2^-2148`. -/
def maxMagnitude : Nat := (2 ^ 53 - 1) * 2 ^ (971 + 2148)

/-- `2^-1022` in units of `2^-2148`. -/
def minNormalMagnitude : Nat := 2 ^ (2148 - 1022)

/-- `2^-1074` in units of `2^-2148`. -/
def denormalUnit : Nat := 2 ^ (2148 - 1074)

/-! ## Rounding (rule R90) -/

/-- The magnitude `m` rounded to a multiple of `q`: `m` itself if it is one, else the candidate `lo` below it or `lo + q`
above it, as the rounding mode and the sign choose. -/
def roundTo (rc : RoundingMode) (negative : Bool) (m q : Nat) : Nat :=
  let lo := m / q * q
  if m = lo then m
  else
    match rc with
    | .nearest =>
      if 2 * (m - lo) < q then lo
      else if q < 2 * (m - lo) then lo + q
      else if m / q % 2 = 0 then lo else lo + q
    | .down => if negative then lo + q else lo
    | .up   => if negative then lo else lo + q
    | .zero => lo

/-- `Round(rc, x, 53)` on the magnitude: `q = 2^(E-52)` with `E` the position of the leading bit. A magnitude below `2^53`
units has at most 53 bits and is kept. -/
def round53 (rc : RoundingMode) (negative : Bool) (m : Nat) : Nat := roundTo rc negative m (2 ^ (m.log2 - 52))

/-- `encode` of a sign and the magnitude bits (rule R81). -/
def withSign (negative : Bool) (bits : Nat) : Quad := signedZero negative ||| BitVec.ofNat 64 bits

/-- `encode` of a normal magnitude `m` of 53 significant bits, in units of `2^-2148`: the biased exponent is `E - 1125` and
the fraction is the leading 53 bits less the first. -/
def encodeNormal (negative : Bool) (m : Nat) : Quad :=
  withSign negative ((m.log2 - 1125) * 2 ^ 52 + (m / 2 ^ (m.log2 - 52) - 2 ^ 52))

/-- `encode` of a multiple of `2^-1074` up to `2^-1022`, in units of `2^-2148`. -/
def encodeDenormal (negative : Bool) (m : Nat) : Quad := withSign negative (m / denormalUnit)

/-! ## The steps of rule R80 -/

/-- What `FmaElem` returns: the masked response, its flags, and whether the result was tiny. -/
structure FmaResult where
  result : Quad
  flags  : BitVec 6
  tiny   : Bool
deriving DecidableEq, Repr

/-- Rule R83: a denormal input read as the zero of its sign. -/
def conditionInput (daz : Bool) (x : Quad) : Quad := if daz && isDenormal x then signedZero (dblSign x) else x

/-- Rule R86: a NaN made quiet. -/
def quiet (x : Quad) : Quad := x ||| 0x0008000000000000#64

/-- Rule R86: the first NaN of `a`, `b`, `c`, made quiet. -/
def propagateNaN (a b c : Quad) : FmaResult :=
  ⟨quiet (if isNaN a then a else if isNaN b then b else c), flagIf (isSNaN a || isSNaN b || isSNaN c) flagIE, false⟩

/-- Rule R85: the addend of a subtraction, with its sign inverted. -/
def negateIf (neg : Bool) (c : Quad) : Quad := if neg then c ^^^ 0x8000000000000000#64 else c

/-- Rule R93: the result that overflows. -/
def overflowResult (rc : RoundingMode) (negative : Bool) : Quad :=
  match rc with
  | .nearest => signedInfinity negative
  | .down    => if negative then signedInfinity negative else signedMax negative
  | .up      => if negative then signedMax negative else signedInfinity negative
  | .zero    => signedMax negative

/-- Steps 10 to 13 of rule R80, for an exact sum `x` that is not zero: rules R90, R92 to R95. -/
def roundSum (rc : RoundingMode) (ftz : Bool) (f : BitVec 6) (x : Int) : FmaResult :=
  let negative := decide (x < 0)
  let m := x.natAbs
  let r := round53 rc negative m
  if maxMagnitude < r then ⟨overflowResult rc negative, f ||| flagOE ||| flagPE, false⟩
  else if r < minNormalMagnitude then
    if ftz then ⟨signedZero negative, f ||| flagUE ||| flagPE, true⟩
    else
      let d := roundTo rc negative m denormalUnit
      ⟨encodeDenormal negative d, f ||| flagIf (d != m) (flagUE ||| flagPE), true⟩
  else ⟨encodeNormal negative r, f ||| flagIf (r != m) flagPE, false⟩

/-- Rule R91: the sign of an exact zero; true is minus. -/
def zeroSign (rc : RoundingMode) (a b c : Quad) : Bool :=
  if (isZero a || isZero b) && isZero c && ((dblSign a ^^ dblSign b) == dblSign c) then dblSign c else rc == .down

/-- Steps 8 to 13 of rule R80, for finite operands and the addend as it is added. -/
def finiteSum (rc : RoundingMode) (ftz : Bool) (f : BitVec 6) (a b c : Quad) : FmaResult :=
  let x := exactSum a b c
  if x = 0 then ⟨signedZero (zeroSign rc a b c), f, false⟩ else roundSum rc ftz f x

/-- Rule R87: an invalid operation without a NaN operand. -/
def invalidOperation (a b c : Quad) : Bool :=
  (isInfinite a && isZero b) || (isZero a && isInfinite b) ||
    ((isInfinite a || isInfinite b) && isInfinite c && (dblSign a ^^ dblSign b) != dblSign c)

/-- Steps 4 to 13 of rule R80, for operands that are no NaN and the addend as it is added: rules R87 to R91. -/
def fmaNumbers (rc : RoundingMode) (ftz : Bool) (a b c : Quad) : FmaResult :=
  if invalidOperation a b c then ⟨qNaNIndefinite, flagIE, false⟩
  else
    let f := flagIf (isDenormal a || isDenormal b || isDenormal c) flagDE
    if isInfinite a || isInfinite b then ⟨signedInfinity (dblSign a ^^ dblSign b), f, false⟩
    else if isInfinite c then ⟨c, f, false⟩
    else finiteSum rc ftz f a b c

/-- `FmaElem` on inputs that rule R83 has conditioned: steps 2 and 3 of rule R80. -/
def fmaConditioned (rc : RoundingMode) (ftz neg : Bool) (a b c : Quad) : FmaResult :=
  if isNaN a || isNaN b || isNaN c then propagateNaN a b c else fmaNumbers rc ftz a b (negateIf neg c)

/-- `FmaElem(rc, daz, ftz, neg, a, b, c)` (rule R80). -/
def fmaElem (rc : RoundingMode) (daz ftz neg : Bool) (a b c : Quad) : FmaResult :=
  fmaConditioned rc ftz neg (conditionInput daz a) (conditionInput daz b) (conditionInput daz c)

end Sys2Proof.Machine
end

