-- ==== Sys2Proof/WellFormed.lean ====
section
/-! DEFINITION. WellFormed.lean: which terms of Instr stand for an encoding. Two things can be wrong with a term: an
address form that the ModRM and SIB bytes cannot say (30_encoding.md rule R54), and zeroing-masking with no writemask
(30_encoding.md rule R63). -/

namespace Sys2Proof

/-- 30_encoding.md rule R54. Without a SIB byte the base's low bits are not 100 (that value of `rm` asks for a SIB byte);
and with no displacement they are not 101, with or without a SIB byte (there `mod = 00` means something else). -/
def AddrForm.wellFormed : AddrForm → Bool
  | .base b .none       => b.extractLsb' 0 3 != 4#3 && b.extractLsb' 0 3 != 5#3
  | .base b (.disp8 _)  => b.extractLsb' 0 3 != 4#3
  | .base b (.disp32 _) => b.extractLsb' 0 3 != 4#3
  | .disp32 _           => true
  | .sib _ _ b .none    => b.extractLsb' 0 3 != 5#3
  | .sib _ _ _ (.disp8 _)  => true
  | .sib _ _ _ (.disp32 _) => true
  | .sibNoBase _ _ _    => true

def VexRm.wellFormed : VexRm → Bool
  | .reg _ => true
  | .mem a => a.wellFormed

def EvexRm.wellFormed : EvexRm → Bool
  | .reg _   => true
  | .mem a   => a.wellFormed
  | .bcast a => a.wellFormed

def EvexRm512.wellFormed : EvexRm512 → Bool
  | .reg _          => true
  | .regRounded _ _ => true
  | .mem a          => a.wellFormed
  | .bcast a        => a.wellFormed

/-- 30_encoding.md rule R63: zeroing-masking needs a writemask. -/
def maskWellFormed (aaa : BitVec 3) (z : Bool) : Bool := !(z && aaa == 0#3)

def Instr.wellFormed : Instr → Bool
  | .vfmsubadd132pdVex128 o  => o.src3.wellFormed
  | .vfmsubadd213pdVex128 o  => o.src3.wellFormed
  | .vfmsubadd231pdVex128 o  => o.src3.wellFormed
  | .vfmsubadd132pdVex256 o  => o.src3.wellFormed
  | .vfmsubadd213pdVex256 o  => o.src3.wellFormed
  | .vfmsubadd231pdVex256 o  => o.src3.wellFormed
  | .vfmsubadd132pdEvex128 o => maskWellFormed o.aaa o.z && o.src3.wellFormed
  | .vfmsubadd213pdEvex128 o => maskWellFormed o.aaa o.z && o.src3.wellFormed
  | .vfmsubadd231pdEvex128 o => maskWellFormed o.aaa o.z && o.src3.wellFormed
  | .vfmsubadd132pdEvex256 o => maskWellFormed o.aaa o.z && o.src3.wellFormed
  | .vfmsubadd213pdEvex256 o => maskWellFormed o.aaa o.z && o.src3.wellFormed
  | .vfmsubadd231pdEvex256 o => maskWellFormed o.aaa o.z && o.src3.wellFormed
  | .vfmsubadd132pdEvex512 o => maskWellFormed o.aaa o.z && o.src3.wellFormed
  | .vfmsubadd213pdEvex512 o => maskWellFormed o.aaa o.z && o.src3.wellFormed
  | .vfmsubadd231pdEvex512 o => maskWellFormed o.aaa o.z && o.src3.wellFormed

end Sys2Proof
end

