-- ==== Sys2Proof/Decode.lean ====
section
/-! DEFINITION. Decode.lean: the decoder of 30_encoding.md rule R70, total on any bytes, and after it the encoder written
from the same layouts (rules R46 to R57). -/

namespace Sys2Proof

/-! ## Reading bytes -/

/-- How the bytes at the program counter are read: by the rules of `Long64`, by those of the two 32-bit modes
(30_encoding.md rule R68), or as in real-address and virtual-8086 mode (60_exceptions.md rule R133). -/
inductive DecodeMode where
  | long64
  | legacy32
  /-- A 32-bit mode with a 16-bit code segment (rule R69). -/
  | legacy16
  | real
deriving DecidableEq, Repr

/-- The answers of the decoder (30_encoding.md rule R70, with the refusals of rules R61, R68 and R69). -/
inductive Verdict where
  /-- One of the fifteen forms. -/
  | instr (i : Instr)
  /-- One of the fifteen forms, in an encoding that raises #UD (rules R60, R62, R63, R64). -/
  | ud
  /-- Fifteen bytes do not complete the instruction (rule R57). -/
  | tooLong
  /-- The bytes given end before they tell whether they are one of the fifteen forms. -/
  | tooShort
  /-- The bytes given are one of the fifteen forms and end before it does. -/
  | incomplete
  /-- Bytes outside this spec (rule R71). -/
  | notThisGroup
  /-- More than one segment override, or `67H` twice (rule R61). -/
  | repeatedPrefix
  /-- An extension bit of the prefix set in a 32-bit mode (rule R68 (c)). -/
  | extensionBit
  /-- A memory operand with a 16-bit address (rule R69). -/
  | addressing16
deriving DecidableEq, Repr

/-- What step (1) of 30_encoding.md rule R70 remembers of the legacy prefixes. -/
structure PrefixScan where
  pre       : Prefixes
  repeated  : Bool
  forbidden : Bool
deriving DecidableEq, Repr

def noPrefix : Prefixes := ⟨none, false⟩

/-- The segment-override bytes (30_encoding.md rule R61). -/
def segPrefix (b : Byte) : Option SegName :=
  if b = 0x26#8 then some .es
  else if b = 0x2E#8 then some .cs
  else if b = 0x36#8 then some .ss
  else if b = 0x3E#8 then some .ds
  else if b = 0x64#8 then some .fs
  else if b = 0x65#8 then some .gs
  else none

/-- The bytes that may not stand before a VEX or EVEX prefix (30_encoding.md rule R60). `40H` to `4FH` are REX prefixes in
`Long64` only (log entry 5). -/
def forbiddenPrefix (m : DecodeMode) (b : Byte) : Bool :=
  b == 0xF0#8 || b == 0x66#8 || b == 0xF2#8 || b == 0xF3#8 || (m == .long64 && b.extractLsb' 4 4 == 4#4)

/-- The bytes that step (1) of 30_encoding.md rule R70 passes over. -/
def isPrefix (m : DecodeMode) (b : Byte) : Bool := (segPrefix b).isSome || b == 0x67#8 || forbiddenPrefix m b

/-- Step (1) of 30_encoding.md rule R70. -/
def scanPrefixes (m : DecodeMode) : List Byte → PrefixScan → PrefixScan × List Byte
  | [], p => (p, [])
  | b :: rest, p =>
    match segPrefix b with
    | some g =>
      scanPrefixes m rest { p with pre := { p.pre with seg := some g }, repeated := p.repeated || p.pre.seg.isSome }
    | none =>
      if b = 0x67#8 then
        scanPrefixes m rest { p with pre := { p.pre with addrSize := true }, repeated := p.repeated || p.pre.addrSize }
      else if forbiddenPrefix m b then
        scanPrefixes m rest { p with forbidden := true }
      else (p, b :: rest)

/-- The opcode byte (30_encoding.md rules R47, R49, R58). -/
def opcodeForm (op : Byte) : Option FmaForm :=
  if op = 0x97#8 then some .f132
  else if op = 0xA7#8 then some .f213
  else if op = 0xB7#8 then some .f231
  else none

/-- What `mod` and `rm` name: a register by its low three bits, or memory (30_encoding.md rule R53). -/
inductive RmField where
  | reg (rm : BitVec 3)
  | mem (a : AddrForm)
deriving DecidableEq, Repr

/-- A little-endian displacement of four bytes (30_encoding.md rule R55). -/
def takeDisp32 : List Byte → Option (BitVec 32)
  | b0 :: b1 :: b2 :: b3 :: _ => some (b3 ++ b2 ++ b1 ++ b0)
  | _ => none

/-- The displacement `mod` asks for (30_encoding.md rule R57); `mod = 11` is no memory form. -/
def takeDisp (mod : BitVec 2) (rest : List Byte) : Option Disp :=
  if mod = 0#2 then some .none
  else if mod = 1#2 then
    match rest with
    | d :: _ => some (.disp8 d)
    | [] => none
  else (takeDisp32 rest).map .disp32

/-- The address form of a SIB byte (30_encoding.md rule R54, rows with `rm = 100`). -/
def takeSib (x b : BitVec 1) (mod : BitVec 2) : List Byte → Option AddrForm
  | [] => none
  | sib :: rest =>
    if mod = 0#2 ∧ sib.extractLsb' 0 3 = 5#3 then
      (takeDisp32 rest).map (.sibNoBase (sib.extractLsb' 6 2) (x ++ sib.extractLsb' 3 3))
    else
      (takeDisp mod rest).map (.sib (sib.extractLsb' 6 2) (x ++ sib.extractLsb' 3 3) (b ++ sib.extractLsb' 0 3))

/-- `SRC3` as ModRM, SIB and the displacement give it (30_encoding.md rules R53, R54), with the extension bits `X`, `B`. -/
def takeRm (x b : BitVec 1) (modrm : Byte) (rest : List Byte) : Option RmField :=
  if modrm.extractLsb' 6 2 = 3#2 then some (.reg (modrm.extractLsb' 0 3))
  else if modrm.extractLsb' 0 3 = 4#3 then (takeSib x b (modrm.extractLsb' 6 2) rest).map .mem
  else if modrm.extractLsb' 6 2 = 0#2 ∧ modrm.extractLsb' 0 3 = 5#3 then
    (takeDisp32 rest).map fun d => .mem (.disp32 d)
  else (takeDisp (modrm.extractLsb' 6 2) rest).map fun d => .mem (.base (b ++ modrm.extractLsb' 0 3) d)

/-! ## The two prefixes -/

/-- The row of 30_encoding.md rule R58 a VEX form selects. -/
def vexInstr (form : FmaForm) (l : BitVec 1) (o : VexOperands) : Instr :=
  match form with
  | .f132 => if l = 0#1 then .vfmsubadd132pdVex128 o else .vfmsubadd132pdVex256 o
  | .f213 => if l = 0#1 then .vfmsubadd213pdVex128 o else .vfmsubadd213pdVex256 o
  | .f231 => if l = 0#1 then .vfmsubadd231pdVex128 o else .vfmsubadd231pdVex256 o

def evex128Instr (form : FmaForm) (o : EvexOperands EvexRm) : Instr :=
  match form with
  | .f132 => .vfmsubadd132pdEvex128 o
  | .f213 => .vfmsubadd213pdEvex128 o
  | .f231 => .vfmsubadd231pdEvex128 o

def evex256Instr (form : FmaForm) (o : EvexOperands EvexRm) : Instr :=
  match form with
  | .f132 => .vfmsubadd132pdEvex256 o
  | .f213 => .vfmsubadd213pdEvex256 o
  | .f231 => .vfmsubadd231pdEvex256 o

def evex512Instr (form : FmaForm) (o : EvexOperands EvexRm512) : Instr :=
  match form with
  | .f132 => .vfmsubadd132pdEvex512 o
  | .f213 => .vfmsubadd213pdEvex512 o
  | .f231 => .vfmsubadd231pdEvex512 o

/-- `EVEX.RC` and `MXCSR.RC` have one code (30_encoding.md rule R51). -/
def roundingOfBits (rc : BitVec 2) : RoundingMode :=
  if rc = 0#2 then .nearest else if rc = 1#2 then .down else if rc = 2#2 then .up else .zero

/-- A memory operand has a 16-bit address: in a 32-bit mode with `67H`, or with a 16-bit code segment (30_encoding.md rule
R69, which names the latter without a prefix that would change it). -/
def hasShortAddresses (m : DecodeMode) (p : Prefixes) : Bool := m == .legacy16 || (m == .legacy32 && p.addrSize)

/-- The operand is in memory and has a 16-bit address. -/
def isAddressing16 (m : DecodeMode) (p : Prefixes) (modrm : Byte) : Bool :=
  modrm.extractLsb' 6 2 != 3#2 && hasShortAddresses m p

/-- The refusals that come after every #UD condition of the encoding: rules R61 and R68 (c) of 30_encoding.md. The spec
orders no refusal: the order is the model's choice (DESIGN CHOICE, log entry 19). In real-address and virtual-8086 mode none
of them is answered (log entry 30). -/
def refusalOf (m : DecodeMode) (p : PrefixScan) (extension : Bool) : Option Verdict :=
  if p.repeated then some .repeatedPrefix
  else if (m = .legacy32 ∨ m = .legacy16) ∧ extension then some .extensionBit
  else none

/-- `C4H` and `62H` are `LES` and `BOUND` outside `Long64` where bits 7:6 of the byte after them are not 11
(30_encoding.md rule R68 (b)). -/
def isLesOrBound (m : DecodeMode) (next : Byte) : Bool := m != .long64 && next.extractLsb' 6 2 != 3#2

/-- The bytes after the prefix byte and the first payload byte of a VEX form (30_encoding.md rules R46, R47, R50). In
real-address and virtual-8086 mode the instruction raises #UD (60_exceptions.md rule R133); there the bytes after the opcode
are not measured, so where the opcode is among the first fifteen bytes the #UD is answered, even if the whole is longer and
whether or not a later byte can be fetched; it comes before the refusal of a repeated segment override or `67H` too
(30_encoding.md rule R61), and the spec orders neither (DESIGN CHOICE, log entry 30). Elsewhere a 16-bit address is refused as
soon as ModRM shows it (30_encoding.md rule R69; log entry 19). -/
def decodeVexTail (m : DecodeMode) (p : PrefixScan) (b1 : Byte) : List Byte → Verdict
  | b2 :: op :: rest =>
    match opcodeForm op with
    | none => .notThisGroup
    | some form =>
      if b1.extractLsb' 0 5 ≠ 2#5 ∨ b2.extractLsb' 0 2 ≠ 1#2 ∨ b2.extractLsb' 7 1 ≠ 1#1 then .notThisGroup
      else if m = .real then .ud
      else
        match rest with
        | [] => if hasShortAddresses m p.pre then .tooShort else .incomplete
        | modrm :: tail =>
          if isAddressing16 m p.pre modrm then .addressing16
          else
            match takeRm (~~~b1.extractLsb' 6 1) (~~~b1.extractLsb' 5 1) modrm tail with
            | none => .incomplete
            | some rm =>
              if p.forbidden then .ud
              else
                match refusalOf m p (b1.extractLsb' 5 1 == 0#1 || b2.extractLsb' 6 1 == 0#1) with
                | some v => v
                | none =>
                  .instr (vexInstr form (b2.extractLsb' 2 1)
                    { pre  := p.pre
                      dest := ~~~b1.extractLsb' 7 1 ++ modrm.extractLsb' 3 3
                      src2 := ~~~b2.extractLsb' 3 4
                      src3 := match rm with
                        | .reg r => .reg (~~~b1.extractLsb' 5 1 ++ r)
                        | .mem a => .mem a })
  | _ => .tooShort

/-- The bytes after `C4H`. -/
def decodeVex (m : DecodeMode) (p : PrefixScan) : List Byte → Verdict
  | [] => .tooShort
  | b1 :: rest => if isLesOrBound m b1 then .notThisGroup else decodeVexTail m p b1 rest

/-- The row an EVEX form selects by `b`, `mod` and `L'L` (30_encoding.md rules R51 and R64), or #UD. -/
def selectEvex (form : FmaForm) (b : Bool) (ll : BitVec 2) (xb : BitVec 2) (rm : RmField)
    (o : EvexOperands Unit) : Verdict :=
  let narrow (src3 : EvexRm) : EvexOperands EvexRm := ⟨o.pre, o.dest, o.src2, o.aaa, o.z, src3⟩
  let wide (src3 : EvexRm512) : EvexOperands EvexRm512 := ⟨o.pre, o.dest, o.src2, o.aaa, o.z, src3⟩
  match rm, b with
  | .reg r, true  => .instr (evex512Instr form (wide (.regRounded (xb ++ r) (roundingOfBits ll))))
  | .reg r, false =>
    if ll = 0#2 then .instr (evex128Instr form (narrow (.reg (xb ++ r))))
    else if ll = 1#2 then .instr (evex256Instr form (narrow (.reg (xb ++ r))))
    else if ll = 2#2 then .instr (evex512Instr form (wide (.reg (xb ++ r))))
    else .ud
  | .mem a, true  =>
    if ll = 0#2 then .instr (evex128Instr form (narrow (.bcast a)))
    else if ll = 1#2 then .instr (evex256Instr form (narrow (.bcast a)))
    else if ll = 2#2 then .instr (evex512Instr form (wide (.bcast a)))
    else .ud
  | .mem a, false =>
    if ll = 0#2 then .instr (evex128Instr form (narrow (.mem a)))
    else if ll = 1#2 then .instr (evex256Instr form (narrow (.mem a)))
    else if ll = 2#2 then .instr (evex512Instr form (wide (.mem a)))
    else .ud

/-- The bytes after the prefix byte and the first payload byte of an EVEX form (30_encoding.md rules R48 to R52, R62 to
R64). In real-address and virtual-8086 mode the bytes after the opcode are not measured: where the opcode is among the first
fifteen bytes the #UD of 60_exceptions.md rule R133 is answered, even if the whole is longer and whether or not a later byte
can be fetched; it comes before the refusal of a repeated segment override or `67H` (rule R61) too, and the spec orders
neither (DESIGN CHOICE, log entry 30). -/
def decodeEvexTail (m : DecodeMode) (p : PrefixScan) (p0 : Byte) : List Byte → Verdict
  | p1 :: p2 :: op :: rest =>
    match opcodeForm op with
    | none => .notThisGroup
    | some form =>
      if p0.extractLsb' 0 2 ≠ 2#2 ∨ p1.extractLsb' 0 2 ≠ 1#2 ∨ p1.extractLsb' 7 1 ≠ 1#1 then .notThisGroup
      else if m = .real then .ud
      else
        match rest with
        | [] => if hasShortAddresses m p.pre then .tooShort else .incomplete
        | modrm :: tail =>
          if isAddressing16 m p.pre modrm then .addressing16
          else
            match takeRm (~~~p0.extractLsb' 6 1) (~~~p0.extractLsb' 5 1) modrm tail with
            | none => .incomplete
            | some rm =>
              if p.forbidden then .ud
              else if p0.extractLsb' 2 2 ≠ 0#2 ∨ p1.extractLsb' 2 1 ≠ 1#1 then .ud
              else if p2.extractLsb' 7 1 = 1#1 ∧ p2.extractLsb' 0 3 = 0#3 then .ud
              else
                match selectEvex form (p2.extractLsb' 4 1 == 1#1) (p2.extractLsb' 5 2) (~~~p0.extractLsb' 5 2) rm
                    { pre  := p.pre
                      dest := ~~~p0.extractLsb' 4 1 ++ (~~~p0.extractLsb' 7 1 ++ modrm.extractLsb' 3 3)
                      src2 := ~~~p2.extractLsb' 3 1 ++ ~~~p1.extractLsb' 3 4
                      aaa  := p2.extractLsb' 0 3
                      z    := p2.extractLsb' 7 1 == 1#1
                      src3 := () } with
                | .instr i =>
                  (refusalOf m p
                    (p0.extractLsb' 4 2 != 3#2 || p1.extractLsb' 6 1 == 0#1 || p2.extractLsb' 3 1 == 0#1)).getD (.instr i)
                | v => v
  | _ => .tooShort

/-- The bytes after `62H`. -/
def decodeEvex (m : DecodeMode) (p : PrefixScan) : List Byte → Verdict
  | [] => .tooShort
  | p0 :: rest => if isLesOrBound m p0 then .notThisGroup else decodeEvexTail m p p0 rest

/-- Steps (1) to (8) of 30_encoding.md rule R70, on bytes that stand in address order. -/
def decodeBody (m : DecodeMode) (bytes : List Byte) : Verdict :=
  match scanPrefixes m bytes ⟨noPrefix, false, false⟩ with
  | (_, []) => .tooShort
  | (p, b :: rest) =>
    if b = 0xC4#8 then decodeVex m p rest
    else if b = 0x62#8 then decodeEvex m p rest
    else .notThisGroup

/-- The longest instruction of the architecture, in bytes (30_encoding.md rule R57). -/
def maxLength : Nat := 15

/-- The first fifteen bytes are enough for a verdict. -/
def fitsLimit (m : DecodeMode) (bytes : List Byte) : Bool :=
  decodeBody m (bytes.take maxLength) != .tooShort && decodeBody m (bytes.take maxLength) != .incomplete

/-- The decoder. Whether the bytes are one of the fifteen forms is told from as many of them as that takes; a form that the
first fifteen bytes do not complete is longer than fifteen bytes, which comes before its #UD conditions and before the
refusals of its prefixes (30_encoding.md rule R57, 60_exceptions.md rule R140). Bytes that are no form, or that use a 16-bit
address, are refused whatever their length (00_scope.md rule R11). -/
def decode (m : DecodeMode) (bytes : List Byte) : Verdict :=
  let limited (v : Verdict) : Verdict := if fitsLimit m bytes then v else .tooLong
  match decodeBody m bytes with
  | .instr i => limited (.instr i)
  | .ud => limited .ud
  | .repeatedPrefix => limited .repeatedPrefix
  | .extensionBit => limited .extensionBit
  | .incomplete => if (bytes.take maxLength).length = maxLength then .tooLong else .incomplete
  | .tooLong => .tooLong
  | .tooShort => .tooShort
  | .notThisGroup => .notThisGroup
  | .addressing16 => .addressing16

/-! ## The encoder -/

/-- The segment-override bytes (30_encoding.md rule R61). -/
def segByte : SegName → Byte
  | .es => 0x26#8
  | .cs => 0x2E#8
  | .ss => 0x36#8
  | .ds => 0x3E#8
  | .fs => 0x64#8
  | .gs => 0x65#8

/-- The permitted prefixes, the segment override first. -/
def encodePrefixes (p : Prefixes) : List Byte :=
  (match p.seg with
    | none => []
    | some g => [segByte g]) ++ (if p.addrSize then [0x67#8] else [])

def encodeDisp32 (d : BitVec 32) : List Byte :=
  [d.extractLsb' 0 8, d.extractLsb' 8 8, d.extractLsb' 16 8, d.extractLsb' 24 8]

/-- The `mod` value a displacement asks for (30_encoding.md rule R54). -/
def dispMod : Disp → BitVec 2
  | .none     => 0#2
  | .disp8 _  => 1#2
  | .disp32 _ => 2#2

def encodeDisp : Disp → List Byte
  | .none     => []
  | .disp8 d  => [d]
  | .disp32 d => encodeDisp32 d

/-- What an operand puts into `X`, `B`, `mod` and `rm`, and the bytes after ModRM. An extension bit that reaches no
operand is 0, stored as 1 (30_encoding.md rule R66). -/
structure RmCode where
  x    : BitVec 1
  b    : BitVec 1
  mod  : BitVec 2
  rm   : BitVec 3
  tail : List Byte

def encodeAddr : AddrForm → RmCode
  | .base b d => ⟨0#1, b.extractLsb' 3 1, dispMod d, b.extractLsb' 0 3, encodeDisp d⟩
  | .disp32 d => ⟨0#1, 0#1, 0#2, 5#3, encodeDisp32 d⟩
  | .sib s i b d =>
    ⟨i.extractLsb' 3 1, b.extractLsb' 3 1, dispMod d, 4#3, (s ++ (i.extractLsb' 0 3 ++ b.extractLsb' 0 3)) :: encodeDisp d⟩
  | .sibNoBase s i d =>
    ⟨i.extractLsb' 3 1, 0#1, 0#2, 4#3, (s ++ (i.extractLsb' 0 3 ++ 5#3)) :: encodeDisp32 d⟩

def encodeVexReg (n : VexReg) : RmCode := ⟨0#1, n.extractLsb' 3 1, 3#2, n.extractLsb' 0 3, []⟩

def encodeEvexReg (n : EvexReg) : RmCode := ⟨n.extractLsb' 4 1, n.extractLsb' 3 1, 3#2, n.extractLsb' 0 3, []⟩

def formOpcode : FmaForm → Byte
  | .f132 => 0x97#8
  | .f213 => 0xA7#8
  | .f231 => 0xB7#8

def roundingBits : RoundingMode → BitVec 2
  | .nearest => 0#2
  | .down    => 1#2
  | .up      => 2#2
  | .zero    => 3#2

/-- A VEX form's bytes (30_encoding.md rules R46, R47, R57). -/
def encodeVexWith (form : FmaForm) (l : BitVec 1) (o : VexOperands) (c : RmCode) : List Byte :=
  encodePrefixes o.pre ++
    [0xC4#8,
     ~~~o.dest.extractLsb' 3 1 ++ (~~~c.x ++ (~~~c.b ++ 2#5)),
     1#1 ++ (~~~o.src2 ++ (l ++ 1#2)),
     formOpcode form,
     c.mod ++ (o.dest.extractLsb' 0 3 ++ c.rm)] ++ c.tail

def encodeVex (form : FmaForm) (l : BitVec 1) (o : VexOperands) : List Byte :=
  encodeVexWith form l o (match o.src3 with
    | .reg n => encodeVexReg n
    | .mem a => encodeAddr a)

/-- An EVEX form's bytes (30_encoding.md rules R48, R49, R57), from the bit `b` and the field `L'L`. -/
def encodeEvexWith {ρ : Type} (form : FmaForm) (b : BitVec 1) (ll : BitVec 2) (o : EvexOperands ρ) (c : RmCode) :
    List Byte :=
  encodePrefixes o.pre ++
    [0x62#8,
     ~~~o.dest.extractLsb' 3 1 ++ (~~~c.x ++ (~~~c.b ++ (~~~o.dest.extractLsb' 4 1 ++ 2#4))),
     1#1 ++ (~~~o.src2.extractLsb' 0 4 ++ (1#1 ++ 1#2)),
     BitVec.ofBool o.z ++ (ll ++ (b ++ (~~~o.src2.extractLsb' 4 1 ++ o.aaa))),
     formOpcode form,
     c.mod ++ (o.dest.extractLsb' 0 3 ++ c.rm)] ++ c.tail

def encodeEvex (form : FmaForm) (ll : BitVec 2) (o : EvexOperands EvexRm) : List Byte :=
  match o.src3 with
  | .reg n   => encodeEvexWith form 0#1 ll o (encodeEvexReg n)
  | .mem a   => encodeEvexWith form 0#1 ll o (encodeAddr a)
  | .bcast a => encodeEvexWith form 1#1 ll o (encodeAddr a)

def encodeEvex512 (form : FmaForm) (o : EvexOperands EvexRm512) : List Byte :=
  match o.src3 with
  | .reg n           => encodeEvexWith form 0#1 2#2 o (encodeEvexReg n)
  | .regRounded n rc => encodeEvexWith form 1#1 (roundingBits rc) o (encodeEvexReg n)
  | .mem a           => encodeEvexWith form 0#1 2#2 o (encodeAddr a)
  | .bcast a         => encodeEvexWith form 1#1 2#2 o (encodeAddr a)

/-- The bytes of an instruction, in address order. -/
def encode : Instr → List Byte
  | .vfmsubadd132pdVex128 o  => encodeVex .f132 0#1 o
  | .vfmsubadd213pdVex128 o  => encodeVex .f213 0#1 o
  | .vfmsubadd231pdVex128 o  => encodeVex .f231 0#1 o
  | .vfmsubadd132pdVex256 o  => encodeVex .f132 1#1 o
  | .vfmsubadd213pdVex256 o  => encodeVex .f213 1#1 o
  | .vfmsubadd231pdVex256 o  => encodeVex .f231 1#1 o
  | .vfmsubadd132pdEvex128 o => encodeEvex .f132 0#2 o
  | .vfmsubadd213pdEvex128 o => encodeEvex .f213 0#2 o
  | .vfmsubadd231pdEvex128 o => encodeEvex .f231 0#2 o
  | .vfmsubadd132pdEvex256 o => encodeEvex .f132 1#2 o
  | .vfmsubadd213pdEvex256 o => encodeEvex .f213 1#2 o
  | .vfmsubadd231pdEvex256 o => encodeEvex .f231 1#2 o
  | .vfmsubadd132pdEvex512 o => encodeEvex512 .f132 o
  | .vfmsubadd213pdEvex512 o => encodeEvex512 .f213 o
  | .vfmsubadd231pdEvex512 o => encodeEvex512 .f231 o

/-! ## Words of the opcode table -/

/-- The first fifteen bytes of an instruction whose bits are `w`: byte `i` is bits `8i+7:8i` of the low `nbits` bits of
`w`, and every later byte is 0. -/
def wordBytes (nbits w : Nat) : List Byte :=
  (List.range maxLength).map fun i => BitVec.ofNat 8 ((w % 2 ^ nbits) >>> (8 * i))

/-- The instruction the decoder reads, in `Long64`, from an instruction whose bits are `w`. -/
def decodeTableWord (nbits w : Nat) : Option Instr :=
  match decode .long64 (wordBytes nbits w) with
  | .instr i => some i
  | _ => none

end Sys2Proof
end

