-- ==== Sys2Proof/Machine/Ops.lean ====
section
/-! DEFINITION. Machine/Ops.lean: the operations every instruction shares: memory, vector registers, the program counter,
segments and translation, raising an exception, fetching an instruction, and the launch of a program. -/

namespace Sys2Proof.Machine

/-- The outcome of a step (00_scope.md rule R11). -/
abbrev Result := Host.Outcome State Fault Refusal

/-! ## Memory (20_memory.md rule R31) -/

/-- The byte at an address of a cell list. -/
def cellsRead : List Host.Cell → Nat → Byte
  | [], _ => Config.unlistedByte
  | (a, b) :: rest, i => if i = a then b else cellsRead rest i

/-- A cell list with the byte at `i` set to `v`, in canonical form if the list was. -/
def cellsWrite : List Host.Cell → Nat → Byte → List Host.Cell
  | [], i, v => if v = Config.unlistedByte then [] else [(i, v)]
  | (a, b) :: rest, i, v =>
    if i < a then (if v = Config.unlistedByte then (a, b) :: rest else (i, v) :: (a, b) :: rest)
    else if i = a then (if v = Config.unlistedByte then rest else (i, v) :: rest)
    else (a, b) :: cellsWrite rest i v

/-- The canonical form: addresses strictly rising from `low`, and no entry that an unlisted byte would read as. -/
def cellsWf : Nat → List Host.Cell → Bool
  | _, [] => true
  | low, (a, b) :: rest => decide (low ≤ a) && b != Config.unlistedByte && cellsWf (a + 1) rest

/-- The byte at a physical address. -/
def Memory.read (m : Memory) (a : Quad) : Byte := cellsRead m.cells a.toNat

/-- Memory with one byte set. No instruction writes memory (20_memory.md rule R37); a launch does. -/
def Memory.write (m : Memory) (a : Quad) (v : Byte) : Memory := ⟨cellsWrite m.cells a.toNat v⟩

/-- Memory in canonical form. -/
def Memory.wf (m : Memory) : Bool := cellsWf 0 m.cells

/-! ## Vector registers and elements (10_state.md rule R13, 00_scope.md rule R8) -/

def VecLen.elements : VecLen → Nat
  | .v128 => 2
  | .v256 => 4
  | .v512 => 8

def VecLen.bytes (vl : VecLen) : Nat := 8 * vl.elements

def VecLen.bits (vl : VecLen) : Nat := 64 * vl.elements

/-- Element `j`: bits `64j+63:64j`. -/
def element (v : Vec) (j : Nat) : Quad := v.extractLsb' (64 * j) 64

/-- The elements concatenated, the first least significant, and zeros above them. -/
def packElements : List Quad → Vec
  | [] => 0
  | e :: rest => (packElements rest <<< 64) ||| e.setWidth 512

/-- `ZMM[n]`. -/
def State.vec (s : State) (n : EvexReg) : Vec := s.zmm[n.toNat]'n.isLt

/-- `ZMM[n] <- v`. -/
def State.setVec (s : State) (n : EvexReg) (v : Vec) : State := { s with zmm := s.zmm.set n.toNat v n.isLt }

/-- The EVEX number of a register a VEX form names (10_state.md rule R13: one file). -/
def vexNumber (n : VexReg) : EvexReg := n.setWidth 5

/-- `MAX_VL` (00_scope.md rule R6). -/
def State.maxVl (s : State) : Nat := if s.params.features.avx512f then 512 else 256

/-- `K[n]`. -/
def State.opmask (s : State) (n : BitVec 3) : Quad := s.k[n.toNat]'n.isLt

/-- `GPR[n]`. -/
def State.reg (s : State) (n : GprNum) : Quad := s.gpr[n.toNat]'n.isLt

/-! ## The program counter (10_state.md rule R18) -/

/-- `pc + len`, modulo 2^64 in `Long64` and modulo 2^32 in the 32-bit modes. -/
def State.nextRip (s : State) (len : Nat) : Quad :=
  match s.mode with
  | .long64 => s.rip + BitVec.ofNat 64 len
  | .compat32 => ((s.rip + BitVec.ofNat 64 len).setWidth 32).setWidth 64
  | .protected32 => ((s.rip + BitVec.ofNat 64 len).setWidth 32).setWidth 64

/-! ## Control state (10_state.md rule R22) -/

def State.cr0PE (s : State) : Bool := s.cr0.getLsbD 0
def State.cr0TS (s : State) : Bool := s.cr0.getLsbD 3
def State.cr4OSXMMEXCPT (s : State) : Bool := s.cr4.getLsbD 10
def State.cr4OSXSAVE (s : State) : Bool := s.cr4.getLsbD 18
def State.rflagsVM (s : State) : Bool := s.rflags.getLsbD 17

/-- `XCR0[2:1] = 11`. -/
def State.avxEnabled (s : State) : Bool := s.xcr0.getLsbD 1 && s.xcr0.getLsbD 2

/-- `XCR0[7:5] = 111`. -/
def State.avx512Enabled (s : State) : Bool := s.xcr0.getLsbD 5 && s.xcr0.getLsbD 6 && s.xcr0.getLsbD 7

/-- Real-address or virtual-8086 mode (60_exceptions.md rule R133). -/
def State.inRealMode (s : State) : Bool := !s.cr0PE || s.rflagsVM

/-- The #UD conditions that both prefixes have: rules R133 and R134 of 60_exceptions.md. -/
def State.vexDisabled (s : State) : Bool := s.inRealMode || !s.cr4OSXSAVE || !s.avxEnabled

/-- The #UD conditions of an EVEX form: rules R133 and R134 of 60_exceptions.md. -/
def State.evexDisabled (s : State) : Bool := s.vexDisabled || !s.avx512Enabled

/-- The CPUID flags of an EVEX row are present (30_encoding.md rule R67). -/
def State.evexFeatures (s : State) (vl : VecLen) : Bool :=
  match vl with
  | .v128 => s.params.features.avx512f && s.params.features.avx512vl
  | .v256 => s.params.features.avx512f && s.params.features.avx512vl
  | .v512 => s.params.features.avx512f

/-! ## Taking an exception (60_exceptions.md rules R130, R141, R142) -/

/-- The exceptions of rule R130, with what their raising rule gives. -/
inductive Exception where
  | ud
  | nm
  | ss
  | gp
  | pf (code : BitVec 32) (address : Quad)
  /-- A SIMD floating-point exception in which active elements raised these flags (rule R131). -/
  | simd (raised : BitVec 6)
deriving DecidableEq, Repr

/-- `MXCSR` in the state of a SIMD floating-point fault (rule R142). -/
def State.simdFaultMxcsr (s : State) (raised : BitVec 6) : BitVec 32 :=
  orFlags s.mxcsr (drawFlags s.mxcsr raised (Config.simdFaultFlags s.draws))

/-- `raise`: the outcome of a step that an exception ends (rule R141). The state after it is the state before, `pc` still
at the instruction, but for `CR2` of #PF and `MXCSR[5:0]` of #XM; where #UD stands in place of #XM (rule R132), nothing is
written (41_vfmsubadd_vex.md rule R107, 42_vfmsubadd_evex.md rule R115). There is no delivery and no return (00_scope.md
rule R5). -/
def raise (x : Exception) (s : State) : Result :=
  match x with
  | .ud => .fault (.invalidOpcode s)
  | .nm => .fault (.deviceNotAvailable s)
  | .ss => .fault (.stackSegment s)
  | .gp => .fault (.generalProtection s)
  | .pf code address => .fault (.pageFault code { s with cr2 := address })
  | .simd raised =>
    if s.cr4OSXMMEXCPT then
      .fault (.simdFloatingPoint { s with mxcsr := s.simdFaultMxcsr raised, draws := s.draws + 1 })
    else .fault (.invalidOpcode s)

/-- The state after a fault (00_scope.md rule R11, `s''`). -/
def Fault.after : Fault → State
  | .invalidOpcode t => t
  | .deviceNotAvailable t => t
  | .stackSegment t => t
  | .generalProtection t => t
  | .pageFault _ t => t
  | .simdFloatingPoint t => t

/-- The vector number (rule R130). -/
def Fault.vector : Fault → Nat
  | .invalidOpcode _ => 6
  | .deviceNotAvailable _ => 7
  | .stackSegment _ => 12
  | .generalProtection _ => 13
  | .pageFault _ _ => 14
  | .simdFloatingPoint _ => 19

/-- The error code (rule R130). The width of #PF's is the model's choice (PRESUMED, log entry 10): 20_memory.md rule R44
puts its bits outside the spec. -/
def Fault.errorCode : Fault → Option (BitVec 32)
  | .invalidOpcode _ => none
  | .deviceNotAvailable _ => none
  | .stackSegment _ => some 0
  | .generalProtection _ => some 0
  | .pageFault code _ => some code
  | .simdFloatingPoint _ => none

/-! ## Segments and translation (20_memory.md rules R44, R45) -/

def State.segment (s : State) (g : SegName) : Segment :=
  match g with
  | .es => s.segs.es
  | .cs => s.segs.cs
  | .ss => s.segs.ss
  | .ds => s.segs.ds
  | .fs => s.segs.fs
  | .gs => s.segs.gs

/-- The base an access in `Long64` adds: `FSbase`, `GSbase`, or zero (10_state.md rule R20). -/
def State.longBase (s : State) (g : SegName) : Quad :=
  match g with
  | .es => 0
  | .cs => 0
  | .ss => 0
  | .ds => 0
  | .fs => s.segs.fs.base
  | .gs => s.segs.gs.base

/-- Whether all bits from the top implemented bit up are equal (20_memory.md rule R45). -/
def canonical (n : LinearBits) (a : Quad) : Bool :=
  match n with
  | .bits48 => a.extractLsb' 47 17 == 0#17 || a.extractLsb' 47 17 == BitVec.allOnes 17
  | .bits57 => a.extractLsb' 56 8 == 0#8 || a.extractLsb' 56 8 == BitVec.allOnes 8

/-- `Translate` on the ranges: the first that holds the address answers, and an address in none is its own. -/
def translateIn (kind : AccessKind) (cpl : BitVec 2) (a : Quad) : List TranslateRange → Translated
  | [] => .maps a
  | r :: rest =>
    if r.first ≤ a ∧ a ≤ r.last ∧ (r.kind = none ∨ r.kind = some kind) ∧ (r.cpl = none ∨ r.cpl = some cpl) then
      match r.answer with
      | .maps p => .maps (p + (a - r.first))
      | .faults code => .faults code
      | .device => .device
    else translateIn kind cpl a rest

/-- `Translate(linear, access, CPL)` (20_memory.md rule R44). -/
def State.translate (s : State) (kind : AccessKind) (a : Quad) : Translated :=
  translateIn kind s.cpl a s.params.translate

/-- Where an access goes: a segment and an effective address in it. -/
structure Location where
  seg : SegName
  ea  : Quad
deriving DecidableEq, Repr

/-- The offset in its segment of byte `i` of an access, wrapping at the width of the address (20_memory.md rule R31). -/
def State.byteOffset (s : State) (l : Location) (i : Nat) : Quad :=
  match s.mode with
  | .long64 => l.ea + BitVec.ofNat 64 i
  | .compat32 => ((l.ea + BitVec.ofNat 64 i).setWidth 32).setWidth 64
  | .protected32 => ((l.ea + BitVec.ofNat 64 i).setWidth 32).setWidth 64

/-- The linear address of byte `i` of an access (30_encoding.md rule R54, 20_memory.md rules R31, R45). -/
def State.byteLinear (s : State) (l : Location) (i : Nat) : Quad :=
  match s.mode with
  | .long64 => s.byteOffset l i + s.longBase l.seg
  | .compat32 => ((s.byteOffset l i + (s.segment l.seg).base).setWidth 32).setWidth 64
  | .protected32 => ((s.byteOffset l i + (s.segment l.seg).base).setWidth 32).setWidth 64

/-- Byte `i` of an access is at a canonical linear address, or, in the 32-bit modes, inside the limit of a readable segment
(20_memory.md rule R45). -/
def State.byteLegal (s : State) (l : Location) (i : Nat) : Bool :=
  match s.mode with
  | .long64 => canonical s.params.linearBits (s.byteLinear l i)
  | .compat32 => (s.segment l.seg).readable && decide ((s.byteOffset l i).toNat ≤ (s.segment l.seg).limit.toNat)
  | .protected32 => (s.segment l.seg).readable && decide ((s.byteOffset l i).toNat ≤ (s.segment l.seg).limit.toNat)

/-- The page fault byte `i` of a read would raise, with its linear address (20_memory.md rule R44). -/
def State.bytePageFault (s : State) (l : Location) (i : Nat) : Option Exception :=
  match s.translate .read (s.byteLinear l i) with
  | .faults code => some (.pf code (s.byteLinear l i))
  | .maps _ => none
  | .device => none

/-- Byte `i` of a read has side effects (20_memory.md rule R39). -/
def State.byteDevice (s : State) (l : Location) (i : Nat) : Bool := s.translate .read (s.byteLinear l i) == .device

/-- Byte `i` of a read, where it can be read. -/
def State.byteValue (s : State) (l : Location) (i : Nat) : Byte :=
  match s.translate .read (s.byteLinear l i) with
  | .maps p => s.mem.read p
  | .faults _ => 0
  | .device => 0

/-- The eight bytes from byte `i` of an access on, the first least significant (20_memory.md rule R32). -/
def State.readQuad (s : State) (l : Location) (i : Nat) : Quad :=
  s.byteValue l (i + 7) ++ s.byteValue l (i + 6) ++ s.byteValue l (i + 5) ++ s.byteValue l (i + 4) ++
    s.byteValue l (i + 3) ++ s.byteValue l (i + 2) ++ s.byteValue l (i + 1) ++ s.byteValue l i

/-- The byte numbers of the eight-byte reads that start at these bytes. -/
def quadBytes (starts : List Nat) : List Nat := starts.flatMap fun i => (List.range 8).map (i + ·)

/-- What keeps a read of these bytes from being made: first an address that is not legal (raising `segFault`), then a page
fault, of the first byte that has one (60_exceptions.md rules R138, R140; log entry 11), then a read with side effects. -/
def State.readStop (s : State) (l : Location) (segFault : Exception) (bytes : List Nat) : Option Result :=
  if bytes.any fun i => !s.byteLegal l i then some (raise segFault s)
  else
    match bytes.findSome? (s.bytePageFault l) with
    | some x => some (raise x s)
    | none => if bytes.any (s.byteDevice l) then some (.refused .readSideEffects) else none

/-! ## Fetching an instruction -/

/-- How the bytes at `pc` are decoded (30_encoding.md rules R68, R69, 60_exceptions.md rule R133). -/
def State.decodeMode (s : State) : DecodeMode :=
  if s.inRealMode then .real
  else
    match s.mode with
    | .long64 => .long64
    | .compat32 => if s.code16 then .legacy16 else .legacy32
    | .protected32 => if s.code16 then .legacy16 else .legacy32

/-- The linear address of byte `i` of the instruction at `pc`, if it is one that code can stand at: canonical in `Long64`,
within the limit of CS otherwise. -/
def State.fetchLinear (s : State) (i : Nat) : Option Quad :=
  if s.decodeMode = .long64 then
    let a := s.rip + BitVec.ofNat 64 i
    if canonical s.params.linearBits a then some a else none
  else
    let offset := (s.rip + BitVec.ofNat 64 i).setWidth 32
    if offset ≤ s.segs.cs.limit then some ((offset + s.segs.cs.base.setWidth 32).setWidth 64) else none

/-- The physical address of byte `i` of the instruction at `pc`, if it can be fetched. -/
def State.fetchPhysical (s : State) (i : Nat) : Option Quad :=
  match s.fetchLinear i with
  | none => none
  | some a =>
    match s.translate .fetch a with
    | .maps p => some p
    | .faults _ => none
    | .device => none

/-- Byte `i` of the instruction at `pc` (20_memory.md rules R31, R42: code is read from the one memory). -/
def State.fetchByte (s : State) (i : Nat) : Option Byte := (s.fetchPhysical i).map s.mem.read

/-- The bytes at `pc` up to the first that cannot be fetched, from byte `i` on, at most `n`. -/
def State.fetchUpTo (s : State) : Nat → Nat → List Byte
  | 0, _ => []
  | n + 1, i =>
    match s.fetchByte i with
    | none => []
    | some b => b :: s.fetchUpTo n (i + 1)

/-- The bytes at `pc` up to the first that cannot be fetched, from byte `i` on: at most `n` legacy prefixes, the byte after
them and fifteen more. -/
def State.fetchFrom (s : State) : Nat → Nat → List Byte
  | 0, _ => []
  | n + 1, i =>
    match s.fetchByte i with
    | none => []
    | some b => b :: if isPrefix s.decodeMode b then s.fetchFrom n (i + 1) else s.fetchUpTo maxLength (i + 1)

/-- How many bytes the linear address space has (20_memory.md rule R31). -/
def addressSpace : Nat := 2 ^ 64

/-- The bytes at `pc` that tell which instruction stands there. Legacy prefixes may be any number, at most once round the
address space (30_encoding.md rules R57, R70); no instruction is longer than fifteen bytes after them. -/
def State.fetch (s : State) : List Byte := s.fetchFrom addressSpace 0

/-! ## The launch of a program (70_reset_and_hazards.md rules R157, R158) -/

/-- The state that system software leaves for a program in `Long64`: `CR0.PE` set and `CR0.TS` clear, `RFLAGS.VM` clear,
`CR4` bits 9, 10 and 18 set, `XCR0` bits 1, 2, 5, 6 and 7 set (70_reset_and_hazards.md rule R158). -/
def State.enable (s : State) : State :=
  { s with
    mode   := .long64
    cr0    := (s.cr0 ||| 0x1#64) &&& ~~~0x8#64
    rflags := s.rflags &&& ~~~0x20000#64
    cr4    := s.cr4 ||| 0x40600#64
    xcr0   := s.xcr0 ||| 0xE6#64 }

/-- The state with these bytes stored where the instruction at `pc` is fetched, the first at byte `i`. -/
def State.storeCode (s : State) : Nat → List Byte → State
  | _, [] => s
  | i, b :: rest =>
    match s.fetchPhysical i with
    | some p => State.storeCode { s with mem := s.mem.write p b } (i + 1) rest
    | none => State.storeCode s (i + 1) rest

end Sys2Proof.Machine
end

