-- ==== Sys2Proof/Machine/Operands.lean ====
section
/-! DEFINITION. Machine/Operands.lean: the length of an instruction, the address of a memory operand (30_encoding.md rules
R54 to R57), the writemask, and the third source operand in each of its forms. -/

namespace Sys2Proof.Machine

/-! ## The length of an instruction (30_encoding.md rule R57) -/

def prefixLength (p : Prefixes) : Nat := (if p.seg.isSome then 1 else 0) + (if p.addrSize then 1 else 0)

def dispLength : Disp → Nat
  | .none     => 0
  | .disp8 _  => 1
  | .disp32 _ => 4

/-- The bytes after ModRM. -/
def addrLength : AddrForm → Nat
  | .base _ d        => dispLength d
  | .disp32 _        => 4
  | .sib _ _ _ d     => 1 + dispLength d
  | .sibNoBase _ _ _ => 5

def vexRmLength : VexRm → Nat
  | .reg _ => 0
  | .mem a => addrLength a

def evexRmLength : EvexRm512 → Nat
  | .reg _          => 0
  | .regRounded _ _ => 0
  | .mem a          => addrLength a
  | .bcast a        => addrLength a

/-- The third source operand of a 128- or 256-bit EVEX form, as one that the 512-bit form has. -/
def widenRm : EvexRm → EvexRm512
  | .reg n   => .reg n
  | .mem a   => .mem a
  | .bcast a => .bcast a

/-- The operands of a 128- or 256-bit EVEX form, in the type of the 512-bit form's. -/
def widen (o : EvexOperands EvexRm) : EvexOperands EvexRm512 := ⟨o.pre, o.dest, o.src2, o.aaa, o.z, widenRm o.src3⟩

/-- A VEX prefix has three bytes, then come the opcode and ModRM. -/
def vexLength (o : VexOperands) : Nat := prefixLength o.pre + 5 + vexRmLength o.src3

/-- An EVEX prefix has four bytes, then come the opcode and ModRM. -/
def evexLength (o : EvexOperands EvexRm512) : Nat := prefixLength o.pre + 6 + evexRmLength o.src3

/-- `len` of 30_encoding.md rule R57. -/
def instrLength : Instr → Nat
  | .vfmsubadd132pdVex128 o  => vexLength o
  | .vfmsubadd213pdVex128 o  => vexLength o
  | .vfmsubadd231pdVex128 o  => vexLength o
  | .vfmsubadd132pdVex256 o  => vexLength o
  | .vfmsubadd213pdVex256 o  => vexLength o
  | .vfmsubadd231pdVex256 o  => vexLength o
  | .vfmsubadd132pdEvex128 o => evexLength (widen o)
  | .vfmsubadd213pdEvex128 o => evexLength (widen o)
  | .vfmsubadd231pdEvex128 o => evexLength (widen o)
  | .vfmsubadd132pdEvex256 o => evexLength (widen o)
  | .vfmsubadd213pdEvex256 o => evexLength (widen o)
  | .vfmsubadd231pdEvex256 o => evexLength (widen o)
  | .vfmsubadd132pdEvex512 o => evexLength o
  | .vfmsubadd213pdEvex512 o => evexLength o
  | .vfmsubadd231pdEvex512 o => evexLength o

/-! ## The address of a memory operand (30_encoding.md rules R54, R56, R68 (d)) -/

/-- The displacement, sign-extended; `disp8` scaled by `n` (rules R55, R56). -/
def dispValue (n : Nat) : Disp → Quad
  | .none     => 0
  | .disp8 d  => d.signExtend 64 * BitVec.ofNat 64 n
  | .disp32 d => d.signExtend 64

/-- `index * scale`; the register number 4 means "no index". -/
def State.scaledIndex (s : State) (scale : BitVec 2) (index : GprNum) : Quad :=
  if index = 4#4 then 0 else s.reg index <<< scale.toNat

/-- `base + index * scale + disp` before it is cut to the address size. `next` is the address of the next instruction, the
base of the RIP-relative form, which only `Long64` has. -/
def State.addressSum (s : State) (next : Quad) (n : Nat) (a : AddrForm) : Quad :=
  match a with
  | .base b d => s.reg b + dispValue n d
  | .disp32 d =>
    match s.mode with
    | .long64 => next + d.signExtend 64
    | .compat32 => d.signExtend 64
    | .protected32 => d.signExtend 64
  | .sib scale i b d => s.reg b + s.scaledIndex scale i + dispValue n d
  | .sibNoBase scale i d => s.scaledIndex scale i + d.signExtend 64

/-- The effective address: the sum modulo 2^64, or modulo 2^32 with `67H` in `Long64` and in the 32-bit modes. Adding the
low 32 bits of the registers modulo 2^32 is the sum of the whole registers modulo 2^32. -/
def State.effectiveAddress (s : State) (pre : Prefixes) (next : Quad) (n : Nat) (a : AddrForm) : Quad :=
  match s.mode with
  | .long64 =>
    if pre.addrSize then ((s.addressSum next n a).setWidth 32).setWidth 64 else s.addressSum next n a
  | .compat32 => ((s.addressSum next n a).setWidth 32).setWidth 64
  | .protected32 => ((s.addressSum next n a).setWidth 32).setWidth 64

/-- The base register is `RSP` or `RBP` (rule R54). -/
def stackBase : AddrForm → Bool
  | .base b _        => b == 4#4 || b == 5#4
  | .disp32 _        => false
  | .sib _ _ b _     => b == 4#4 || b == 5#4
  | .sibNoBase _ _ _ => false

/-- The segment of a memory operand: the override, else SS or DS by the base register (rule R54). -/
def operandSegment (pre : Prefixes) (a : AddrForm) : SegName :=
  match pre.seg with
  | some g => g
  | none => if stackBase a then .ss else .ds

/-- #SS(0) or #GP(0) for an address that is not legal (20_memory.md rule R45): in `Long64` #SS(0) is for a stack base with
no override, in the 32-bit modes for the segment SS however it was chosen. -/
def State.segmentFault (s : State) (pre : Prefixes) (a : AddrForm) : Exception :=
  match s.mode with
  | .long64 => if pre.seg = none ∧ stackBase a then .ss else .gp
  | .compat32 => if operandSegment pre a = .ss then .ss else .gp
  | .protected32 => if operandSegment pre a = .ss then .ss else .gp

/-- The location of a memory operand of an instruction of `len` bytes, `disp8` scaled by `n`. -/
def State.locate (s : State) (pre : Prefixes) (len n : Nat) (a : AddrForm) : Location :=
  ⟨operandSegment pre a, s.effectiveAddress pre (s.nextRip len) n a⟩

/-! ## The writemask (42_vfmsubadd_evex.md rule R111) -/

/-- The active elements: `M[j]` of 42_vfmsubadd_evex.md rule R110 step 3. -/
def State.active (s : State) (aaa : BitVec 3) (j : Nat) : Bool := aaa == 0#3 || (s.opmask aaa).getLsbD j

/-- The active elements of a vector length, as a list of element numbers. -/
def activeElements (vl : VecLen) (active : Nat → Bool) : List Nat := (List.range vl.elements).filter active

/-! ## The third source operand (20_memory.md rules R33, R38) -/

/-- What reading `SRC3` gives: its elements, or the outcome that ends the step. -/
inductive SourceRead where
  | value (v : Vec)
  | stops (r : Result)

/-- A whole memory operand: each active element is read, `MemRead(addr + 8j, 8)`. Elements that are not active are not
read, and nothing uses what stands in their place. -/
def State.readWhole (s : State) (l : Location) (segFault : Exception) (vl : VecLen) (active : Nat → Bool) : SourceRead :=
  match s.readStop l segFault (quadBytes ((activeElements vl active).map (8 * ·))) with
  | some r => .stops r
  | none => .value (packElements ((List.range vl.elements).map fun j => if active j then s.readQuad l (8 * j) else 0))

/-- A broadcast operand: `MemRead(addr, 8)`, once, if some element is active (42_vfmsubadd_evex.md rule R112). -/
def State.readBroadcast (s : State) (l : Location) (segFault : Exception) (vl : VecLen) (active : Nat → Bool) :
    SourceRead :=
  match s.readStop l segFault (if (activeElements vl active).isEmpty then [] else quadBytes [0]) with
  | some r => .stops r
  | none => .value (packElements ((List.range vl.elements).map fun _ => s.readQuad l 0))

/-- `SRC3` of a VEX form (41_vfmsubadd_vex.md rule R100 step 2); `disp8` is not scaled (30_encoding.md rule R56). -/
def State.readVexSource (s : State) (vl : VecLen) (o : VexOperands) : SourceRead :=
  match o.src3 with
  | .reg n => .value (s.vec (vexNumber n))
  | .mem a => s.readWhole (s.locate o.pre (vexLength o) 1 a) (s.segmentFault o.pre a) vl fun _ => true

/-- `SRC3` of an EVEX form (42_vfmsubadd_evex.md rule R110 step 4); `disp8` is scaled by the size of the access
(30_encoding.md rule R56). -/
def State.readEvexSource (s : State) (vl : VecLen) (o : EvexOperands EvexRm512) : SourceRead :=
  match o.src3 with
  | .reg n => .value (s.vec n)
  | .regRounded n _ => .value (s.vec n)
  | .mem a =>
    s.readWhole (s.locate o.pre (evexLength o) vl.bytes a) (s.segmentFault o.pre a) vl (s.active o.aaa)
  | .bcast a => s.readBroadcast (s.locate o.pre (evexLength o) 8 a) (s.segmentFault o.pre a) vl (s.active o.aaa)

/-- The rounding mode embedded in the instruction, if it has one (30_encoding.md rule R51). -/
def embeddedRounding : EvexRm512 → Option RoundingMode
  | .reg _           => none
  | .regRounded _ rc => some rc
  | .mem _           => none
  | .bcast _         => none

end Sys2Proof.Machine
end

