-- ==== Sys2Proof/Machine/Execute.lean ====
section
/-! DEFINITION. Machine/Execute.lean: what the six VEX forms share (41_vfmsubadd_vex.md rule R100) and what the nine EVEX
forms share (42_vfmsubadd_evex.md rule R110). -/

namespace Sys2Proof.Machine

/-! ## One element -/

/-- Element `j` of the instruction: the operand order of 40_fma_element.md rule R84, the addend added in even elements and
subtracted in odd ones. -/
def fmaElement (form : FmaForm) (rc : RoundingMode) (daz ftz : Bool) (d s2 s3 : Vec) (j : Nat) : FmaResult :=
  match form with
  | .f132 => fmaElem rc daz ftz (j % 2 == 1) (element d j) (element s3 j) (element s2 j)
  | .f213 => fmaElem rc daz ftz (j % 2 == 1) (element s2 j) (element d j) (element s3 j)
  | .f231 => fmaElem rc daz ftz (j % 2 == 1) (element s2 j) (element s3 j) (element d j)

/-! ## The result and the exceptions -/

/-- What decides the results of an instruction once its sources are read: the active elements, the rounding mode, whether
exceptions are suppressed, and zeroing or merging. -/
structure Controls where
  rc      : RoundingMode
  sae     : Bool
  zeroing : Bool
deriving DecidableEq, Repr

/-- The union of `F[j]` over the active elements. -/
def unionFlags (elems : List FmaResult) : BitVec 6 := elems.foldl (fun f r => f ||| r.flags) 0#6

/-- The set `Raised` of 60_exceptions.md rule R142. -/
def raisedFlags (m : BitVec 32) (elems : List FmaResult) : BitVec 6 :=
  elems.foldl (fun f r => f ||| elementRaised m r.flags r.tiny) 0#6

/-- Some active element raises an unmasked exception (60_exceptions.md rule R131). -/
def anyTraps (m : BitVec 32) (elems : List FmaResult) : Bool := elems.any fun r => elementTraps m r.flags r.tiny

/-- Element `j` of the new destination (42_vfmsubadd_evex.md rule R110 step 7). -/
def newElement (c : Controls) (active : Nat → Bool) (d : Vec) (elem : Nat → FmaResult) (j : Nat) : Quad :=
  if active j then (elem j).result else if c.zeroing then 0 else element d j

/-- The last steps of 41_vfmsubadd_vex.md rule R100 and 42_vfmsubadd_evex.md rule R110: the SIMD floating-point exception,
or the destination written in full (zeros above the vector length), the flags and the program counter. -/
def complete (vl : VecLen) (c : Controls) (active : Nat → Bool) (dest : EvexReg) (d : Vec) (elem : Nat → FmaResult)
    (len : Nat) (s : State) : Result :=
  let elems := (activeElements vl active).map elem
  if !c.sae && anyTraps s.mxcsr elems then raise (.simd (raisedFlags s.mxcsr elems)) s
  else
    .next { s.setVec dest (packElements ((List.range vl.elements).map (newElement c active d elem))) with
      mxcsr := if c.sae then s.mxcsr else orFlags s.mxcsr (unionFlags elems)
      rip   := s.nextRip len }

/-! ## The two kinds of form -/

/-- 41_vfmsubadd_vex.md rule R100. -/
def executeVex (form : FmaForm) (vl : VecLen) (o : VexOperands) (s : State) : Result :=
  if s.vexDisabled || !s.params.features.fma then raise .ud s
  else if s.cr0TS then raise .nm s
  else
    match s.readVexSource vl o with
    | .stops r => r
    | .value s3 =>
      complete vl ⟨mxcsrRounding s.mxcsr, false, false⟩ (fun _ => true) (vexNumber o.dest) (s.vec (vexNumber o.dest))
        (fmaElement form (mxcsrRounding s.mxcsr) (mxcsrDAZ s.mxcsr) (mxcsrFTZ s.mxcsr)
          (s.vec (vexNumber o.dest)) (s.vec (vexNumber o.src2)) s3)
        (vexLength o) s

/-- The rounding mode of an EVEX form: `EVEX.RC` or `MXCSR.RC` (42_vfmsubadd_evex.md rule R114). -/
def State.evexRounding (s : State) (src3 : EvexRm512) : RoundingMode :=
  (embeddedRounding src3).getD (mxcsrRounding s.mxcsr)

/-- 42_vfmsubadd_evex.md rule R110. -/
def executeEvex (form : FmaForm) (vl : VecLen) (o : EvexOperands EvexRm512) (s : State) : Result :=
  if s.evexDisabled || !s.evexFeatures vl || !maskWellFormed o.aaa o.z then raise .ud s
  else if s.cr0TS then raise .nm s
  else
    match s.readEvexSource vl o with
    | .stops r => r
    | .value s3 =>
      complete vl ⟨s.evexRounding o.src3, (embeddedRounding o.src3).isSome, o.z⟩ (s.active o.aaa) o.dest (s.vec o.dest)
        (fmaElement form (s.evexRounding o.src3) (mxcsrDAZ s.mxcsr) (mxcsrFTZ s.mxcsr)
          (s.vec o.dest) (s.vec o.src2) s3)
        (evexLength o) s

end Sys2Proof.Machine
end

