-- ==== Sys2Proof/Machine/Evex.lean ====
section
/-! DEFINITION. Machine/Evex.lean: the meanings of the nine EVEX-encoded forms (42_vfmsubadd_evex.md). -/

namespace Sys2Proof.Machine

/-- `VFMSUBADD132PD` on `xmm` registers under a writemask: `DEST*SRC3 ± SRC2` (42_vfmsubadd_evex.md rule
R116). -/
def execVfmsubadd132pdEvex128 (o : EvexOperands EvexRm) (s : State) : Result :=
  executeEvex .f132 .v128 (widen o) s

/-- `VFMSUBADD213PD` on `xmm` registers under a writemask: `SRC2*DEST ± SRC3` (42_vfmsubadd_evex.md rule
R117). -/
def execVfmsubadd213pdEvex128 (o : EvexOperands EvexRm) (s : State) : Result :=
  executeEvex .f213 .v128 (widen o) s

/-- `VFMSUBADD231PD` on `xmm` registers under a writemask: `SRC2*SRC3 ± DEST` (42_vfmsubadd_evex.md rule
R118). -/
def execVfmsubadd231pdEvex128 (o : EvexOperands EvexRm) (s : State) : Result :=
  executeEvex .f231 .v128 (widen o) s

/-- `VFMSUBADD132PD` on `ymm` registers under a writemask: `DEST*SRC3 ± SRC2` (42_vfmsubadd_evex.md rule
R119). -/
def execVfmsubadd132pdEvex256 (o : EvexOperands EvexRm) (s : State) : Result :=
  executeEvex .f132 .v256 (widen o) s

/-- `VFMSUBADD213PD` on `ymm` registers under a writemask: `SRC2*DEST ± SRC3` (42_vfmsubadd_evex.md rule
R120). -/
def execVfmsubadd213pdEvex256 (o : EvexOperands EvexRm) (s : State) : Result :=
  executeEvex .f213 .v256 (widen o) s

/-- `VFMSUBADD231PD` on `ymm` registers under a writemask: `SRC2*SRC3 ± DEST` (42_vfmsubadd_evex.md rule
R121). -/
def execVfmsubadd231pdEvex256 (o : EvexOperands EvexRm) (s : State) : Result :=
  executeEvex .f231 .v256 (widen o) s

/-- `VFMSUBADD132PD` on `zmm` registers under a writemask: `DEST*SRC3 ± SRC2` (42_vfmsubadd_evex.md rule
R122), with embedded rounding in the register form. -/
def execVfmsubadd132pdEvex512 (o : EvexOperands EvexRm512) (s : State) : Result :=
  executeEvex .f132 .v512 o s

/-- `VFMSUBADD213PD` on `zmm` registers under a writemask: `SRC2*DEST ± SRC3` (42_vfmsubadd_evex.md rule
R123), with embedded rounding in the register form. -/
def execVfmsubadd213pdEvex512 (o : EvexOperands EvexRm512) (s : State) : Result :=
  executeEvex .f213 .v512 o s

/-- `VFMSUBADD231PD` on `zmm` registers under a writemask: `SRC2*SRC3 ± DEST` (42_vfmsubadd_evex.md rule
R124), with embedded rounding in the register form. -/
def execVfmsubadd231pdEvex512 (o : EvexOperands EvexRm512) (s : State) : Result :=
  executeEvex .f231 .v512 o s

end Sys2Proof.Machine
end

