-- ==== Sys2Proof/Machine/Vex.lean ====
section
/-! DEFINITION. Machine/Vex.lean: the meanings of the six VEX-encoded forms (41_vfmsubadd_vex.md). -/

namespace Sys2Proof.Machine

/-- `VFMSUBADD132PD` on `xmm` registers: `DEST*SRC3 ± SRC2` (41_vfmsubadd_vex.md rule R101). -/
def execVfmsubadd132pdVex128 (o : VexOperands) (s : State) : Result := executeVex .f132 .v128 o s

/-- `VFMSUBADD213PD` on `xmm` registers: `SRC2*DEST ± SRC3` (41_vfmsubadd_vex.md rule R102). -/
def execVfmsubadd213pdVex128 (o : VexOperands) (s : State) : Result := executeVex .f213 .v128 o s

/-- `VFMSUBADD231PD` on `xmm` registers: `SRC2*SRC3 ± DEST` (41_vfmsubadd_vex.md rule R103). -/
def execVfmsubadd231pdVex128 (o : VexOperands) (s : State) : Result := executeVex .f231 .v128 o s

/-- `VFMSUBADD132PD` on `ymm` registers: `DEST*SRC3 ± SRC2` (41_vfmsubadd_vex.md rule R104). -/
def execVfmsubadd132pdVex256 (o : VexOperands) (s : State) : Result := executeVex .f132 .v256 o s

/-- `VFMSUBADD213PD` on `ymm` registers: `SRC2*DEST ± SRC3` (41_vfmsubadd_vex.md rule R105). -/
def execVfmsubadd213pdVex256 (o : VexOperands) (s : State) : Result := executeVex .f213 .v256 o s

/-- `VFMSUBADD231PD` on `ymm` registers: `SRC2*SRC3 ± DEST` (41_vfmsubadd_vex.md rule R106). -/
def execVfmsubadd231pdVex256 (o : VexOperands) (s : State) : Result := executeVex .f231 .v256 o s

end Sys2Proof.Machine
end

