-- ==== Sys2Proof/Machine/Dispatch.lean ====
section
/-! DEFINITION. Machine/Dispatch.lean: which meaning an instruction has, one arm a constructor. -/

namespace Sys2Proof.Machine

def exec (i : Instr) (s : State) : Host.Outcome State Fault Refusal :=
  match i with
  | .vfmsubadd132pdVex128 o => Sys2Proof.Machine.execVfmsubadd132pdVex128 o s
  | .vfmsubadd213pdVex128 o => Sys2Proof.Machine.execVfmsubadd213pdVex128 o s
  | .vfmsubadd231pdVex128 o => Sys2Proof.Machine.execVfmsubadd231pdVex128 o s
  | .vfmsubadd132pdVex256 o => Sys2Proof.Machine.execVfmsubadd132pdVex256 o s
  | .vfmsubadd213pdVex256 o => Sys2Proof.Machine.execVfmsubadd213pdVex256 o s
  | .vfmsubadd231pdVex256 o => Sys2Proof.Machine.execVfmsubadd231pdVex256 o s
  | .vfmsubadd132pdEvex128 o => Sys2Proof.Machine.execVfmsubadd132pdEvex128 o s
  | .vfmsubadd213pdEvex128 o => Sys2Proof.Machine.execVfmsubadd213pdEvex128 o s
  | .vfmsubadd231pdEvex128 o => Sys2Proof.Machine.execVfmsubadd231pdEvex128 o s
  | .vfmsubadd132pdEvex256 o => Sys2Proof.Machine.execVfmsubadd132pdEvex256 o s
  | .vfmsubadd213pdEvex256 o => Sys2Proof.Machine.execVfmsubadd213pdEvex256 o s
  | .vfmsubadd231pdEvex256 o => Sys2Proof.Machine.execVfmsubadd231pdEvex256 o s
  | .vfmsubadd132pdEvex512 o => Sys2Proof.Machine.execVfmsubadd132pdEvex512 o s
  | .vfmsubadd213pdEvex512 o => Sys2Proof.Machine.execVfmsubadd213pdEvex512 o s
  | .vfmsubadd231pdEvex512 o => Sys2Proof.Machine.execVfmsubadd231pdEvex512 o s

end Sys2Proof.Machine
end

