-- ==== Sys2Proof/Machine/Step.lean ====
section
/-! DEFINITION. Machine/Step.lean: one step: fetch, decode, execute (00_scope.md rule R11), and the launch of a program
whose first instruction has given bits. -/

namespace Sys2Proof.Machine

/-- One instruction. A #UD of the decoder and an instruction longer than fifteen bytes are exceptions like those of a
meaning (60_exceptions.md rule R140); bytes the spec gives no meaning to are refused by name. -/
def step (s : State) : Host.Outcome State Fault Refusal :=
  match decode s.decodeMode s.fetch with
  | .instr i => exec i s
  | .ud => raise .ud s
  | .tooLong => raise .gp s
  | .tooShort => .refused .fetchFault
  | .incomplete => .refused .fetchFault
  | .notThisGroup => .refused .notThisGroup
  | .repeatedPrefix => .refused .repeatedPrefix
  | .extensionBit => .refused .extensionBit
  | .addressing16 => .refused .addressing16

/-- The launch of a program whose first instruction has the bits `w`: the state that system software leaves
(70_reset_and_hazards.md rule R158), with the instruction's fifteen bytes stored where the next step fetches them (log
entry 12). -/
def State.withFetchWord (s : State) (nbits w : Nat) : State := s.enable.storeCode 0 (wordBytes nbits w)

end Sys2Proof.Machine
end

