-- ==== Sys2Proof/Machine/Run.lean ====
section
/-! DEFINITION. Machine/Run.lean: a run of a program (70_reset_and_hazards.md rule R159). The end address is given with the
program and is no state of the machine. -/

namespace Sys2Proof.Machine

/-- How far a run has come: it has ended at its end address, with the first fault or with the first refusal, or it goes on. -/
inductive Progress where
  | ended (final : State)
  | faulted (f : Fault)
  | refused (q : Refusal)
  | running (s : State)
deriving DecidableEq, Repr

/-- At most `n` steps of the run with the end address `stop`: it ends when `pc` equals `stop`, before the bytes there are
looked at, or earlier with the first fault or refusal. -/
def run (stop : Quad) : Nat → State → Progress
  | 0, s => if s.rip = stop then .ended s else .running s
  | n + 1, s =>
    if s.rip = stop then .ended s
    else
      match step s with
      | .next t => run stop n t
      | .fault f => .faulted f
      | .refused q => .refused q

end Sys2Proof.Machine
end

