-- ==== Sys2Proof/Safety.lean ====
section
/-! DEFINITION. Safety.lean: the terms in which claims are stated: when an instruction is available, which bytes of memory it
reads and whether they can be read, the values of its elements, what it leaves when it completes, and the invariant of the
machine. -/

namespace Sys2Proof.Machine

/-! ## The parts of an instruction -/

/-- The operand order (00_scope.md rule R10). -/
def instrForm : Instr → FmaForm
  | .vfmsubadd132pdVex128 _  => .f132
  | .vfmsubadd213pdVex128 _  => .f213
  | .vfmsubadd231pdVex128 _  => .f231
  | .vfmsubadd132pdVex256 _  => .f132
  | .vfmsubadd213pdVex256 _  => .f213
  | .vfmsubadd231pdVex256 _  => .f231
  | .vfmsubadd132pdEvex128 _ => .f132
  | .vfmsubadd213pdEvex128 _ => .f213
  | .vfmsubadd231pdEvex128 _ => .f231
  | .vfmsubadd132pdEvex256 _ => .f132
  | .vfmsubadd213pdEvex256 _ => .f213
  | .vfmsubadd231pdEvex256 _ => .f231
  | .vfmsubadd132pdEvex512 _ => .f132
  | .vfmsubadd213pdEvex512 _ => .f213
  | .vfmsubadd231pdEvex512 _ => .f231

/-- The vector length (30_encoding.md rule R51). -/
def instrVecLen : Instr → VecLen
  | .vfmsubadd132pdVex128 _  => .v128
  | .vfmsubadd213pdVex128 _  => .v128
  | .vfmsubadd231pdVex128 _  => .v128
  | .vfmsubadd132pdVex256 _  => .v256
  | .vfmsubadd213pdVex256 _  => .v256
  | .vfmsubadd231pdVex256 _  => .v256
  | .vfmsubadd132pdEvex128 _ => .v128
  | .vfmsubadd213pdEvex128 _ => .v128
  | .vfmsubadd231pdEvex128 _ => .v128
  | .vfmsubadd132pdEvex256 _ => .v256
  | .vfmsubadd213pdEvex256 _ => .v256
  | .vfmsubadd231pdEvex256 _ => .v256
  | .vfmsubadd132pdEvex512 _ => .v512
  | .vfmsubadd213pdEvex512 _ => .v512
  | .vfmsubadd231pdEvex512 _ => .v512

/-- The operands, of a VEX form on the left and of an EVEX form on the right. -/
def instrOperands : Instr → VexOperands ⊕ EvexOperands EvexRm512
  | .vfmsubadd132pdVex128 o  => .inl o
  | .vfmsubadd213pdVex128 o  => .inl o
  | .vfmsubadd231pdVex128 o  => .inl o
  | .vfmsubadd132pdVex256 o  => .inl o
  | .vfmsubadd213pdVex256 o  => .inl o
  | .vfmsubadd231pdVex256 o  => .inl o
  | .vfmsubadd132pdEvex128 o => .inr (widen o)
  | .vfmsubadd213pdEvex128 o => .inr (widen o)
  | .vfmsubadd231pdEvex128 o => .inr (widen o)
  | .vfmsubadd132pdEvex256 o => .inr (widen o)
  | .vfmsubadd213pdEvex256 o => .inr (widen o)
  | .vfmsubadd231pdEvex256 o => .inr (widen o)
  | .vfmsubadd132pdEvex512 o => .inr o
  | .vfmsubadd213pdEvex512 o => .inr o
  | .vfmsubadd231pdEvex512 o => .inr o

/-- The instruction is EVEX-encoded. -/
def instrIsEvex (i : Instr) : Bool := (instrOperands i).isRight

/-- The destination register (00_scope.md rule R10). -/
def instrDest (i : Instr) : EvexReg :=
  match instrOperands i with
  | .inl o => vexNumber o.dest
  | .inr o => o.dest

def instrPrefixes (i : Instr) : Prefixes :=
  match instrOperands i with
  | .inl o => o.pre
  | .inr o => o.pre

/-- The address form of the memory operand, if there is one. -/
def instrAddress (i : Instr) : Option AddrForm :=
  match instrOperands i with
  | .inl o =>
    match o.src3 with
    | .reg _ => none
    | .mem a => some a
  | .inr o =>
    match o.src3 with
    | .reg _ => none
    | .regRounded _ _ => none
    | .mem a => some a
    | .bcast a => some a

/-- The memory operand is one element for every element of the vector (42_vfmsubadd_evex.md rule R112). -/
def instrBroadcast (i : Instr) : Bool :=
  match instrOperands i with
  | .inl _ => false
  | .inr o =>
    match o.src3 with
    | .reg _ => false
    | .regRounded _ _ => false
    | .mem _ => false
    | .bcast _ => true

/-- What `disp8` is multiplied by (30_encoding.md rule R56). -/
def instrScale (i : Instr) : Nat :=
  match instrOperands i with
  | .inl _ => 1
  | .inr _ => if instrBroadcast i then 8 else (instrVecLen i).bytes

/-- The embedded rounding mode, if there is one (42_vfmsubadd_evex.md rule R114). -/
def instrRounding (i : Instr) : Option RoundingMode :=
  match instrOperands i with
  | .inl _ => none
  | .inr o => embeddedRounding o.src3

/-! ## Register numbers that the 32-bit modes reach (10_state.md rule R14, 30_encoding.md rule R68) -/

def addrLow : AddrForm → Bool
  | .base b _        => decide (b.toNat < 8)
  | .disp32 _        => true
  | .sib _ i b _     => decide (i.toNat < 8) && decide (b.toNat < 8)
  | .sibNoBase _ i _ => decide (i.toNat < 8)

/-- Every register the instruction names, vector or general, is one of the first eight. -/
def instrLow (i : Instr) : Bool :=
  match instrOperands i with
  | .inl o =>
    decide (o.dest.toNat < 8) && decide (o.src2.toNat < 8) &&
      match o.src3 with
      | .reg n => decide (n.toNat < 8)
      | .mem a => addrLow a
  | .inr o =>
    decide (o.dest.toNat < 8) && decide (o.src2.toNat < 8) &&
      match o.src3 with
      | .reg n => decide (n.toNat < 8)
      | .regRounded n _ => decide (n.toNat < 8)
      | .mem a => addrLow a
      | .bcast a => addrLow a

/-! ## Availability (60_exceptions.md rules R133 to R137) and the enabling premise (70_reset_and_hazards.md rule R158) -/

/-- None of the #UD and #NM conditions of the state holds for a VEX form. -/
def State.vexAvailable (s : State) : Bool :=
  s.cr0PE && !s.rflagsVM && !s.cr0TS && s.cr4OSXSAVE && s.avxEnabled && s.params.features.fma

/-- None of the #UD and #NM conditions of the state holds for an EVEX form of a vector length. -/
def State.evexAvailable (s : State) (vl : VecLen) : Bool :=
  s.cr0PE && !s.rflagsVM && !s.cr0TS && s.cr4OSXSAVE && s.avxEnabled && s.avx512Enabled && s.evexFeatures vl

/-- None of the #UD and #NM conditions of the state holds for the instruction. -/
def State.instrAvailable (s : State) (i : Instr) : Bool :=
  if instrIsEvex i then s.evexAvailable (instrVecLen i) else s.vexAvailable

/-- `Enabled` of 70_reset_and_hazards.md rule R158. -/
def State.instrEnabled (s : State) (i : Instr) : Bool := s.instrAvailable i && s.cr4OSXMMEXCPT

/-! ## The third source operand in memory -/

/-- Byte `i` of an access can be read: its address is legal and `Translate` maps it. -/
def State.byteReadable (s : State) (l : Location) (i : Nat) : Bool :=
  s.byteLegal l i && (s.bytePageFault l i).isNone && !s.byteDevice l i

/-- The eight bytes from byte `i` on can be read. -/
def State.quadReadable (s : State) (l : Location) (i : Nat) : Bool :=
  (List.range 8).all fun b => s.byteReadable l (i + b)

/-- The location of a VEX form's memory operand. -/
def State.vexLocation (s : State) (o : VexOperands) (a : AddrForm) : Location := s.locate o.pre (vexLength o) 1 a

/-- The location of an EVEX form's memory operand, `disp8` scaled by `n` (30_encoding.md rule R56). -/
def State.evexLocation (s : State) (n : Nat) (o : EvexOperands EvexRm512) (a : AddrForm) : Location :=
  s.locate o.pre (evexLength o) n a

/-- Every byte a VEX form reads can be read. -/
def State.vexReadable (s : State) (vl : VecLen) (o : VexOperands) : Bool :=
  match o.src3 with
  | .reg _ => true
  | .mem a => (List.range vl.elements).all fun j => s.quadReadable (s.vexLocation o a) (8 * j)

/-- Every byte an EVEX form reads can be read: those of the active elements (20_memory.md rule R38). -/
def State.evexReadable (s : State) (vl : VecLen) (o : EvexOperands EvexRm512) : Bool :=
  match o.src3 with
  | .reg _ => true
  | .regRounded _ _ => true
  | .mem a => (List.range vl.elements).all fun j => !s.active o.aaa j || s.quadReadable (s.evexLocation vl.bytes o a) (8 * j)
  | .bcast a => (List.range vl.elements).all fun j => !s.active o.aaa j || s.quadReadable (s.evexLocation 8 o a) 0

/-- Every byte the instruction reads can be read. -/
def State.instrReadable (s : State) (i : Instr) : Bool :=
  match instrOperands i with
  | .inl o => s.vexReadable (instrVecLen i) o
  | .inr o => s.evexReadable (instrVecLen i) o

/-- The location of the memory operand, for the address form it has. -/
def State.instrLocation (s : State) (i : Instr) (a : AddrForm) : Location :=
  s.locate (instrPrefixes i) (instrLength i) (instrScale i) a

/-- Element `j` is active: there is no writemask, or its mask bit is 1 (42_vfmsubadd_evex.md rule R111). -/
def State.instrActive (s : State) (i : Instr) (j : Nat) : Bool :=
  match instrOperands i with
  | .inl _ => true
  | .inr o => s.active o.aaa j

/-- Byte `b` of the memory operand is read (20_memory.md rules R33, R38): it belongs to an active element, or it is one of
the eight bytes of a broadcast and some element is active. -/
def State.readsByte (s : State) (i : Instr) (b : Nat) : Bool :=
  if instrBroadcast i then decide (b < 8) && (List.range (instrVecLen i).elements).any (s.instrActive i)
  else decide (b < (instrVecLen i).bytes) && s.instrActive i (b / 8)

/-! ## Elements -/

/-- `SRC3[j]` of a VEX form. -/
def State.vexSource (s : State) (o : VexOperands) (j : Nat) : Quad :=
  match o.src3 with
  | .reg n => element (s.vec (vexNumber n)) j
  | .mem a => s.readQuad (s.vexLocation o a) (8 * j)

/-- `SRC3[j]` of an EVEX form. -/
def State.evexSource (s : State) (vl : VecLen) (o : EvexOperands EvexRm512) (j : Nat) : Quad :=
  match o.src3 with
  | .reg n => element (s.vec n) j
  | .regRounded n _ => element (s.vec n) j
  | .mem a => s.readQuad (s.evexLocation vl.bytes o a) (8 * j)
  | .bcast a => s.readQuad (s.evexLocation 8 o a) 0

/-- `FmaElem` of element `j` with the modes of `MXCSR`: added in even elements, subtracted in odd ones. -/
def State.fma (s : State) (rc : RoundingMode) (a b c : Nat → Quad) (j : Nat) : FmaResult :=
  fmaElem rc (mxcsrDAZ s.mxcsr) (mxcsrFTZ s.mxcsr) (j % 2 == 1) (a j) (b j) (c j)

/-- The operand order of 40_fma_element.md rule R84. -/
def State.formFma (s : State) (form : FmaForm) (rc : RoundingMode) (d s2 s3 : Nat → Quad) : Nat → FmaResult :=
  match form with
  | .f132 => s.fma rc d s3 s2
  | .f213 => s.fma rc s2 d s3
  | .f231 => s.fma rc s2 s3 d

/-- The value of `FmaElem` for element `j` of the instruction. -/
def State.instrElement (s : State) (i : Instr) : Nat → FmaResult :=
  match instrOperands i with
  | .inl o =>
    s.formFma (instrForm i) (mxcsrRounding s.mxcsr) (element (s.vec (vexNumber o.dest)))
      (element (s.vec (vexNumber o.src2))) (s.vexSource o)
  | .inr o =>
    s.formFma (instrForm i) (s.evexRounding o.src3) (element (s.vec o.dest)) (element (s.vec o.src2))
      (s.evexSource (instrVecLen i) o)

/-- An element raises an unmasked exception (60_exceptions.md rule R131). -/
def State.traps (s : State) (r : FmaResult) : Bool := elementTraps s.mxcsr r.flags r.tiny

/-- The condition of 60_exceptions.md rule R131: some active element raises an unmasked exception, and embedded rounding is
not in force. -/
def State.instrTraps (s : State) (i : Instr) : Bool :=
  (instrRounding i).isNone &&
    (List.range (instrVecLen i).elements).any fun j => s.instrActive i j && s.traps (s.instrElement i j)

/-- The union of the flags of the elements `j < n` that are active. -/
def flagsBelow (n : Nat) (active : Nat → Bool) (e : Nat → FmaResult) : BitVec 6 :=
  (List.range n).foldl (fun f j => if active j then f ||| (e j).flags else f) 0#6

/-! ## Completion -/

/-- `r` is the completion that 41_vfmsubadd_vex.md rule R100 step 5 describes, with the element results `e`. -/
def VexCompletes (s : State) (vl : VecLen) (o : VexOperands) (e : Nat → FmaResult) (r : Result) : Prop :=
  ∃ v : Vec,
    r = .next { s with
      zmm   := s.zmm.set (vexNumber o.dest).toNat v (vexNumber o.dest).isLt
      mxcsr := orFlags s.mxcsr (flagsBelow vl.elements (fun _ => true) e)
      rip   := s.nextRip (vexLength o) } ∧
    (∀ j, j < vl.elements → element v j = (e j).result) ∧
    (∀ j, vl.elements ≤ j → j < 8 → element v j = 0)

/-- `r` is the completion that 42_vfmsubadd_evex.md rule R110 step 7 describes, with the element results `e`. -/
def EvexCompletes (s : State) (vl : VecLen) (o : EvexOperands EvexRm512) (e : Nat → FmaResult) (r : Result) : Prop :=
  ∃ v : Vec,
    r = .next { s with
      zmm   := s.zmm.set o.dest.toNat v o.dest.isLt
      mxcsr := if (embeddedRounding o.src3).isSome then s.mxcsr
               else orFlags s.mxcsr (flagsBelow vl.elements (s.active o.aaa) e)
      rip   := s.nextRip (evexLength o) } ∧
    (∀ j, j < vl.elements → element v j =
      if s.active o.aaa j then (e j).result else if o.z then 0 else element (s.vec o.dest) j) ∧
    (∀ j, vl.elements ≤ j → j < 8 → element v j = 0)

/-! ## Outcomes of two related states -/

/-- A fault with the state after it changed by `f`. -/
def Fault.map (f : State → State) : Fault → Fault
  | .invalidOpcode t      => .invalidOpcode (f t)
  | .deviceNotAvailable t => .deviceNotAvailable (f t)
  | .stackSegment t       => .stackSegment (f t)
  | .generalProtection t  => .generalProtection (f t)
  | .pageFault code t     => .pageFault code (f t)
  | .simdFloatingPoint t  => .simdFloatingPoint (f t)

/-- An outcome with the state in it changed by `f`. -/
def mapResult (f : State → State) : Result → Result
  | .next t    => .next (f t)
  | .fault x   => .fault (x.map f)
  | .refused q => .refused q

/-! ## The invariant of the machine -/

/-- What every step keeps: memory in canonical form; the reserved bits of `MXCSR` zero (10_state.md rule R16); where
`MAX_VL = 256`, no bit of a vector register that does not exist (10_state.md rule R13); in the 32-bit modes a 32-bit
program counter (30_encoding.md rule R68 (e)); `AVX512VL` only with `AVX512F` (92_eei_decisions.md, parameter
`Features`). -/
def State.Inv (s : State) : Prop :=
  s.mem.wf = true ∧
  mxcsrReserved s.mxcsr = 0#16 ∧
  (s.maxVl = 256 → ∀ n : EvexReg, (n.toNat < 16 → (s.vec n).extractLsb' 256 256 = 0#256) ∧ (16 ≤ n.toNat → s.vec n = 0)) ∧
  (s.mode ≠ .long64 → s.rip.extractLsb' 32 32 = 0#32) ∧
  (s.params.features.avx512vl = true → s.params.features.avx512f = true)

end Sys2Proof.Machine
end

