-- ==== Sys2Proof/Certificates/Slice0/Obligations.lean ====
section
/-! DEFINITION. Certificates/Slice0/Obligations.lean: the statements about the model. -/

open Sys2Proof Sys2Proof.Machine

/-! ## Encoding -/

/-- 30_encoding.md rule R79: the two example encodings. -/
def Obligations.ExampleWordsDecode : Prop :=
  decode .long64 [0xC4#8, 0xE2#8, 0xF1#8, 0x97#8, 0xC2#8] =
      .instr (.vfmsubadd132pdVex128 ⟨⟨none, false⟩, 0#4, 1#4, .reg 2#4⟩) ∧
  decode .long64 [0x62#8, 0xF2#8, 0xED#8, 0xDA#8, 0xB7#8, 0x08#8] =
      .instr (.vfmsubadd231pdEvex512 ⟨⟨none, false⟩, 1#5, 2#5, 2#3, true, .bcast (.base 0#4 .none)⟩)

/-- Every well-formed VEX instruction is decoded from its encoding, whatever bytes follow it. -/
def Obligations.DecodeEncodeVex : Prop :=
  ∀ (i : Instr) (tail : List Byte), instrIsEvex i = false → i.wellFormed = true →
    decode .long64 (encode i ++ tail) = .instr i

/-- Every well-formed EVEX instruction is decoded from its encoding, whatever bytes follow it. -/
def Obligations.DecodeEncodeEvex : Prop :=
  ∀ (i : Instr) (tail : List Byte), instrIsEvex i = true → i.wellFormed = true →
    decode .long64 (encode i ++ tail) = .instr i

/-- The 32-bit modes (30_encoding.md rules R68, R69): the same bytes decode to the same instruction where it names only
the first eight registers and has no 16-bit memory operand; with a 16-bit memory operand, which is one with `67H` or one in
a 16-bit code segment, it is refused, and with a higher register it is refused or is another instruction. What is said of a
16-bit code segment (`legacy16`) is the model's choice (PRESUMED, log entry 31): that a register form decodes there as
elsewhere, and that a memory form is refused there with `67H` too. -/
def Obligations.DecodeEncodeIn32BitModes : Prop :=
  ∀ (i : Instr) (tail : List Byte), i.wellFormed = true →
    (instrLow i = true → ((instrPrefixes i).addrSize = false ∨ instrAddress i = none) →
      decode .legacy32 (encode i ++ tail) = .instr i) ∧
    (instrLow i = true → (instrPrefixes i).addrSize = true → instrAddress i ≠ none →
      decode .legacy32 (encode i ++ tail) = .addressing16) ∧
    (instrLow i = true → instrAddress i = none → decode .legacy16 (encode i ++ tail) = .instr i) ∧
    (instrLow i = true → instrAddress i ≠ none → decode .legacy16 (encode i ++ tail) = .addressing16) ∧
    (instrLow i = false → ∀ m, m = .legacy32 ∨ m = .legacy16 →
      decode m (encode i ++ tail) ∈ [.extensionBit, .addressing16, .notThisGroup])

/-- What the decoder answers is well formed, and depends on the instruction's own bytes alone, as many as its length says
and at most fifteen (30_encoding.md rule R57). -/
def Obligations.DecodeReadsOnlyItsLength : Prop :=
  ∀ (m : DecodeMode) (bytes : List Byte) (i : Instr), decode m bytes = .instr i →
    i.wellFormed = true ∧ instrLength i ≤ 15 ∧ instrLength i ≤ bytes.length ∧
    ∀ tail : List Byte, decode m (bytes.take (instrLength i) ++ tail) = .instr i

/-- 30_encoding.md rule R60, for every arrangement of legacy prefixes with a forbidden one among them, where the instruction
is not too long (rule R57). A segment override or `67H` may be repeated among them, which rule R61 refuses; that the #UD comes
before that refusal is the model's choice (DESIGN CHOICE, log entry 19). -/
def Obligations.ForbiddenPrefixRaisesUd : Prop :=
  ∀ (s : State) (i : Instr) (ps : List Byte),
    s.decodeMode = .long64 → i.wellFormed = true → (ps ++ encode i).length ≤ 15 →
    (∀ b ∈ ps, b ∈ [0xF0#8, 0x66#8, 0xF2#8, 0xF3#8, 0x26#8, 0x2E#8, 0x36#8, 0x3E#8, 0x64#8, 0x65#8, 0x67#8] ∨
      (0x40#8 ≤ b ∧ b ≤ 0x4F#8)) →
    (∃ b ∈ ps, b ∈ [0xF0#8, 0x66#8, 0xF2#8, 0xF3#8] ∨ (0x40#8 ≤ b ∧ b ≤ 0x4F#8)) →
    ps ++ encode i <+: s.fetch →
    step s = .fault (.invalidOpcode s)

/-- 30_encoding.md rule R62, for the bytes of any of the nine EVEX rows in any other respect. -/
def Obligations.ReservedEvexBitsRaiseUd : Prop :=
  ∀ (s : State) (pre : Prefixes) (p0 p1 p2 op modrm : Byte) (rest : List Byte),
    s.decodeMode = .long64 → rest.length = 5 →
    encodePrefixes pre ++ 0x62#8 :: p0 :: p1 :: p2 :: op :: modrm :: rest <+: s.fetch →
    op ∈ [0x97#8, 0xA7#8, 0xB7#8] → p0 &&& 0x03#8 = 0x02#8 → p1 &&& 0x83#8 = 0x81#8 →
    (p0.getLsbD 3 = true ∨ p0.getLsbD 2 = true ∨ p1.getLsbD 2 = false) →
    step s = .fault (.invalidOpcode s)

/-- 30_encoding.md rule R63. -/
def Obligations.ZeroingWithoutMaskRaisesUd : Prop :=
  ∀ (s : State) (pre : Prefixes) (p0 p1 p2 op modrm : Byte) (rest : List Byte),
    s.decodeMode = .long64 → rest.length = 5 →
    encodePrefixes pre ++ 0x62#8 :: p0 :: p1 :: p2 :: op :: modrm :: rest <+: s.fetch →
    op ∈ [0x97#8, 0xA7#8, 0xB7#8] → p0 &&& 0x03#8 = 0x02#8 → p1 &&& 0x83#8 = 0x81#8 →
    p2.getLsbD 7 = true → p2 &&& 0x07#8 = 0#8 →
    step s = .fault (.invalidOpcode s)

/-- 30_encoding.md rule R64: a vector length of 11 is #UD, but in a register form with `b = 1` it is legal, and the length
is 512. -/
def Obligations.ReservedVectorLengthRaisesUd : Prop :=
  ∀ (s : State) (pre : Prefixes) (p0 p1 p2 op modrm : Byte) (rest : List Byte),
    s.decodeMode = .long64 → rest.length = 5 →
    encodePrefixes pre ++ 0x62#8 :: p0 :: p1 :: p2 :: op :: modrm :: rest <+: s.fetch →
    op ∈ [0x97#8, 0xA7#8, 0xB7#8] → p0 &&& 0x03#8 = 0x02#8 → p1 &&& 0x83#8 = 0x81#8 →
    p2 &&& 0x60#8 = 0x60#8 →
    ((modrm &&& 0xC0#8 ≠ 0xC0#8 ∨ p2.getLsbD 4 = false) → step s = .fault (.invalidOpcode s)) ∧
    (modrm &&& 0xC0#8 = 0xC0#8 → p2.getLsbD 4 = true →
      p0 &&& 0x0C#8 = 0#8 → p1.getLsbD 2 = true → (p2.getLsbD 7 = true → p2 &&& 0x07#8 ≠ 0#8) →
      ∃ i, decode s.decodeMode s.fetch = .instr i ∧ instrVecLen i = .v512 ∧ instrRounding i = some .zero)

/-- 30_encoding.md rule R66: flipping an ignored bit changes nothing that the decoder answers. -/
def Obligations.IgnoredBitsDecodeAlike : Prop :=
  ∀ (pre : Prefixes) (b1 b2 p2 op modrm : Byte) (rest : List Byte),
    ((modrm &&& 0xC0#8 = 0xC0#8 ∨ modrm &&& 0x07#8 ≠ 0x04#8) →
      decode .long64 (encodePrefixes pre ++ 0xC4#8 :: (b1 ^^^ 0x40#8) :: b2 :: op :: modrm :: rest) =
      decode .long64 (encodePrefixes pre ++ 0xC4#8 :: b1 :: b2 :: op :: modrm :: rest)) ∧
    (modrm &&& 0xC0#8 ≠ 0xC0#8 → modrm &&& 0x07#8 ≠ 0x04#8 →
      decode .long64 (encodePrefixes pre ++ 0x62#8 :: (b1 ^^^ 0x40#8) :: b2 :: p2 :: op :: modrm :: rest) =
      decode .long64 (encodePrefixes pre ++ 0x62#8 :: b1 :: b2 :: p2 :: op :: modrm :: rest)) ∧
    ((modrm &&& 0xC7#8 = 0x05#8 ∨ (modrm &&& 0xC7#8 = 0x04#8 ∧ ∃ sib tail, rest = sib :: tail ∧ sib &&& 0x07#8 = 0x05#8)) →
      decode .long64 (encodePrefixes pre ++ 0xC4#8 :: (b1 ^^^ 0x20#8) :: b2 :: op :: modrm :: rest) =
      decode .long64 (encodePrefixes pre ++ 0xC4#8 :: b1 :: b2 :: op :: modrm :: rest) ∧
      decode .long64 (encodePrefixes pre ++ 0x62#8 :: (b1 ^^^ 0x20#8) :: b2 :: p2 :: op :: modrm :: rest) =
      decode .long64 (encodePrefixes pre ++ 0x62#8 :: b1 :: b2 :: p2 :: op :: modrm :: rest))

/-- Bytes that are another instruction are refused (30_encoding.md rules R70, steps 2 and 3, and R71). In `Long64` another
map, `pp`, `W` or opcode is one. In every mode a byte that is no prefix of any kind and neither `C4H` nor `62H` is one, and
outside `Long64` so is `C4H` or `62H` where bits 7:6 of the next byte are not 11 (rule R68 (b)). The model's reading or choice
is: that all of these are refused, not #GP(0), after any number of legacy prefixes, fifteen and more among them (DEDUCED, log
entry 6); that the answer is this refusal where a prefix is repeated too (DESIGN CHOICE, log entry 19); and that in
real-address and virtual-8086 mode the last clause refuses, where 60_exceptions.md rule R133 has #UD for a VEX or an EVEX
prefix (DEDUCED, log entry 20). -/
def Obligations.NeighbourEncodingsRefused : Prop :=
  ∀ (s : State) (ps : List Byte) (b b1 b2 b3 op : Byte),
    (∀ b ∈ ps, b ∈ [0xF0#8, 0x66#8, 0xF2#8, 0xF3#8, 0x26#8, 0x2E#8, 0x36#8, 0x3E#8, 0x64#8, 0x65#8, 0x67#8] ∨
      (s.decodeMode = .long64 ∧ 0x40#8 ≤ b ∧ b ≤ 0x4F#8)) →
    (s.decodeMode = .long64 → ps ++ [0xC4#8, b1, b2, op] <+: s.fetch →
      (op ∉ [0x97#8, 0xA7#8, 0xB7#8] ∨ b1 &&& 0x1F#8 ≠ 0x02#8 ∨ b2 &&& 0x83#8 ≠ 0x81#8) →
      step s = .refused .notThisGroup) ∧
    (s.decodeMode = .long64 → ps ++ [0x62#8, b1, b2, b3, op] <+: s.fetch →
      (op ∉ [0x97#8, 0xA7#8, 0xB7#8] ∨ b1 &&& 0x03#8 ≠ 0x02#8 ∨ b2 &&& 0x83#8 ≠ 0x81#8) →
      step s = .refused .notThisGroup) ∧
    (ps ++ [b] <+: s.fetch →
      b ∉ [0xF0#8, 0x66#8, 0xF2#8, 0xF3#8, 0x26#8, 0x2E#8, 0x36#8, 0x3E#8, 0x64#8, 0x65#8, 0x67#8, 0xC4#8, 0x62#8] →
      ¬ (0x40#8 ≤ b ∧ b ≤ 0x4F#8) → step s = .refused .notThisGroup) ∧
    (ps ++ [b, b1] <+: s.fetch → (b = 0xC4#8 ∨ b = 0x62#8) → s.decodeMode ≠ .long64 → b1 &&& 0xC0#8 ≠ 0xC0#8 →
      step s = .refused .notThisGroup)

/-- 30_encoding.md rule R57, 60_exceptions.md rule R140: legacy prefixes, in any number and order, before the encoding of a
well-formed instruction raise #GP(0) where they are more than fifteen bytes together, whatever #UD conditions hold. In the
32-bit modes the same is said of the instructions these can name, and a memory operand with a 16-bit address is refused.
Of this the model's reading or choice are: that #GP(0) comes before the refusal of a repeated prefix (DEDUCED, log entry 6;
DESIGN CHOICE, log entry 19), that the refusal of a 16-bit address comes before the limit (log entries 6 and 19), and what is
said of a 16-bit code segment (PRESUMED, log entry 31). -/
def Obligations.TooLongInstrRaisesGp : Prop :=
  ∀ (s : State) (i : Instr) (ps : List Byte), i.wellFormed = true → 15 < (ps ++ encode i).length →
    (∀ b ∈ ps, b ∈ [0xF0#8, 0x66#8, 0xF2#8, 0xF3#8, 0x26#8, 0x2E#8, 0x36#8, 0x3E#8, 0x64#8, 0x65#8, 0x67#8] ∨
      (s.decodeMode = .long64 ∧ 0x40#8 ≤ b ∧ b ≤ 0x4F#8)) →
    ps ++ encode i <+: s.fetch →
    (s.decodeMode = .long64 → step s = .fault (.generalProtection s)) ∧
    (s.decodeMode = .legacy32 → instrLow i = true →
      (instrAddress i = none ∨ (0x67#8 ∉ ps ∧ (instrPrefixes i).addrSize = false) →
        step s = .fault (.generalProtection s)) ∧
      (instrAddress i ≠ none → (0x67#8 ∈ ps ∨ (instrPrefixes i).addrSize = true) → step s = .refused .addressing16)) ∧
    (s.decodeMode = .legacy16 → instrLow i = true →
      (instrAddress i = none → step s = .fault (.generalProtection s)) ∧
      (instrAddress i ≠ none → step s = .refused .addressing16))

/-! ## The step -/

/-- A step runs the decoded instruction and adds nothing to it; moving past the instruction's bytes is part of the
instruction. -/
def Obligations.StepRunsDecodedInstr : Prop :=
  ∀ (s : State) (i : Instr), decode s.decodeMode s.fetch = .instr i →
    step s = exec i s ∧ ∀ t, step s = .next t → t.rip = s.nextRip (instrLength i)

/-- Where a step fetches (10_state.md rule R18, 20_memory.md rule R31): an instruction runs where the bytes of its encoding
are those of memory that `Translate` gives for the linear addresses from `pc` on. These are canonical addresses in `Long64`;
in the 32-bit modes they are the base of CS and an offset within its limit, each modulo 2^32. Both forms are the model's
(PRESUMED, log entry 18), and so is that an instruction without a memory operand runs in a 16-bit code segment (PRESUMED, log
entry 31). -/
def Obligations.StoredInstrRuns : Prop :=
  ∀ (s : State) (i : Instr), s.cr0.getLsbD 0 = true → s.rflags.getLsbD 17 = false → i.wellFormed = true →
    (s.mode = .long64 →
      (∀ n, n < (encode i).length →
        canonical s.params.linearBits (s.rip + BitVec.ofNat 64 n) = true ∧
        ∃ p, s.translate .fetch (s.rip + BitVec.ofNat 64 n) = .maps p ∧ (encode i)[n]? = some (s.mem.read p)) →
      step s = exec i s) ∧
    (s.mode ≠ .long64 → instrLow i = true →
      (instrAddress i = none ∨ (s.code16 = false ∧ (instrPrefixes i).addrSize = false)) →
      (∀ n, n < (encode i).length →
        (s.rip.toNat + n) % 2 ^ 32 ≤ s.segs.cs.limit.toNat ∧
        ∃ p, s.translate .fetch (BitVec.ofNat 64 (((s.rip.toNat + n) % 2 ^ 32 + s.segs.cs.base.toNat) % 2 ^ 32)) = .maps p ∧
          (encode i)[n]? = some (s.mem.read p)) →
      step s = exec i s)

/-- A program placed at the reset vector by a launch starts with the instruction that its bits decode to. The launch and the
enabling it does are the model's choice (log entry 12), and so are the empty `Translate` at reset, by which the bytes are
stored and fetched at one place (log entry 7), and the three CPUID features at reset, without which the second clause would
not hold of every instruction (log entry 9). -/
def Obligations.LaunchRunsTableWord : Prop :=
  ∀ (nbits w : Nat) (i : Instr), decodeTableWord nbits w = some i →
    step (State.reset.withFetchWord nbits w) = exec i (State.reset.withFetchWord nbits w) ∧
    (State.reset.withFetchWord nbits w).instrEnabled i = true

/-- The end of a run (70_reset_and_hazards.md rule R159): a run that is at its end address has ended there, whatever stands
there; otherwise it goes on with the step at `pc`, to the next state, or to its end with the first fault or refusal. That
`run` is given a number of steps, that it answers `running` where these are used up, that a run which starts at its end
address ends at once, and that how a run ends does not depend on how many more steps it is given, are of the form the model
gives a run (DESIGN CHOICE, log entry 28). -/
def Obligations.RunEndsAtEndAddress : Prop :=
  ∀ (stop : Quad) (s : State),
    (∀ n, s.rip = stop → run stop n s = .ended s) ∧
    (s.rip ≠ stop → run stop 0 s = .running s ∧
      ∀ n, (∀ t, step s = .next t → run stop (n + 1) s = run stop n t) ∧
        (∀ x, step s = .fault x → run stop (n + 1) s = .faulted x) ∧
        (∀ q, step s = .refused q → run stop (n + 1) s = .refused q)) ∧
    ∀ n m, n ≤ m → (∀ t, run stop n s ≠ .running t) →
      run stop m s = run stop n s ∧ ∀ t, run stop n s = .ended t → t.rip = stop

/-! ## Exceptions -/

/-- 60_exceptions.md rule R133. The second clause is about the bytes: that they are a VEX or an EVEX prefix in these modes
where the byte after the first has bits 7:6 set, as it has for the first eight registers, is the model's reading (DEDUCED, log
entry 20). -/
def Obligations.RealModeRaisesUd : Prop :=
  ∀ (i : Instr) (s : State), (s.cr0.getLsbD 0 = false ∨ s.rflags.getLsbD 17 = true) →
    exec i s = .fault (.invalidOpcode s) ∧
    (i.wellFormed = true → instrLow i = true → encode i <+: s.fetch → step s = .fault (.invalidOpcode s))

/-- 60_exceptions.md rule R134. -/
def Obligations.DisabledStateRaisesUd : Prop :=
  ∀ (i : Instr) (s : State),
    (s.cr4.getLsbD 18 = false ∨ s.xcr0.extractLsb' 1 2 ≠ 3#2 ∨ (instrIsEvex i = true ∧ s.xcr0.extractLsb' 5 3 ≠ 7#3)) →
    exec i s = .fault (.invalidOpcode s)

/-- 30_encoding.md rule R67, 60_exceptions.md rule R135. -/
def Obligations.MissingFeatureRaisesUd : Prop :=
  ∀ (i : Instr) (s : State),
    ((instrIsEvex i = false ∧ s.params.features.fma = false) ∨
     (instrIsEvex i = true ∧ s.params.features.avx512f = false) ∨
     (instrIsEvex i = true ∧ instrVecLen i ≠ .v512 ∧ s.params.features.avx512vl = false)) →
    exec i s = .fault (.invalidOpcode s)

/-- 60_exceptions.md rule R137: #NM where no #UD condition holds, #UD where one does, which is where the instruction is not
available even with `CR0.TS` cleared; `CR0.EM` is not read. -/
def Obligations.TaskSwitchedRaisesNm : Prop :=
  ∀ (i : Instr) (s : State), i.wellFormed = true →
    (s.cr0.getLsbD 3 = true → State.instrAvailable { s with cr0 := s.cr0 &&& ~~~0x8#64 } i = true →
      exec i s = .fault (.deviceNotAvailable s)) ∧
    (State.instrAvailable { s with cr0 := s.cr0 &&& ~~~0x8#64 } i = false → exec i s = .fault (.invalidOpcode s)) ∧
    exec i { s with cr0 := s.cr0 ^^^ 0x4#64 } = mapResult (fun t => { t with cr0 := s.cr0 ^^^ 0x4#64 }) (exec i s)

/-- 60_exceptions.md rule R138, with 20_memory.md rules R44 and R45 and the priority of rule R140: what an available
instruction raises for the bytes of memory that it reads. Of this the model's reading or choice are: that the offset in the
second clause wraps modulo 2^32 before the limit is checked (log entry 17), that an SS override in `Long64` gives #GP(0)
(log entry 16), that `CR2` is state (log entry 15), and that the refusal of 20_memory.md rule R39 comes at the access and
after every fault (log entries 24 and 11). -/
def Obligations.MemoryOperandFaults : Prop :=
  ∀ (i : Instr) (s : State), i.wellFormed = true → s.instrAvailable i = true →
    (∀ (a : AddrForm), instrAddress i = some a →
      (∀ b, s.readsByte i b = true → s.mode = .long64 →
        canonical s.params.linearBits (s.byteLinear (s.instrLocation i a) b) = false →
        exec i s = .fault (if (instrPrefixes i).seg = none ∧ stackBase a = true then .stackSegment s
          else .generalProtection s)) ∧
      (∀ b, s.readsByte i b = true → s.mode ≠ .long64 →
        ((s.segment (operandSegment (instrPrefixes i) a)).readable = false ∨
          (s.segment (operandSegment (instrPrefixes i) a)).limit.toNat < (s.byteOffset (s.instrLocation i a) b).toNat) →
        exec i s = .fault (if operandSegment (instrPrefixes i) a = .ss then .stackSegment s
          else .generalProtection s)) ∧
      (∀ b code, s.readsByte i b = true →
        (∀ b', s.readsByte i b' = true → s.byteLegal (s.instrLocation i a) b' = true) →
        s.translate .read (s.byteLinear (s.instrLocation i a) b) = .faults code →
        ∃ b' code', s.readsByte i b' = true ∧
          s.translate .read (s.byteLinear (s.instrLocation i a) b') = .faults code' ∧
          exec i s = .fault (.pageFault code' { s with cr2 := s.byteLinear (s.instrLocation i a) b' })) ∧
      (∀ b, s.readsByte i b = true →
        (∀ b', s.readsByte i b' = true → s.byteLegal (s.instrLocation i a) b' = true ∧
          ∀ code, s.translate .read (s.byteLinear (s.instrLocation i a) b') ≠ .faults code) →
        s.translate .read (s.byteLinear (s.instrLocation i a) b) = .device →
        exec i s = .refused .readSideEffects) ∧
      ((∀ b, s.readsByte i b = true → s.byteReadable (s.instrLocation i a) b = true) →
        ∀ t code, exec i s ≠ .fault (.stackSegment t) ∧ exec i s ≠ .fault (.generalProtection t) ∧
          exec i s ≠ .fault (.pageFault code t))) ∧
    (instrAddress i = none →
      ∀ t code, exec i s ≠ .fault (.stackSegment t) ∧ exec i s ≠ .fault (.generalProtection t) ∧
        exec i s ≠ .fault (.pageFault code t))

/-- 60_exceptions.md rule R132, under the condition of rule R131; where it is #UD nothing is written (41_vfmsubadd_vex.md rule
R107, 42_vfmsubadd_evex.md rule R115). -/
def Obligations.UnmaskedSimdExceptionIsXmOrUd : Prop :=
  ∀ (i : Instr) (s : State), i.wellFormed = true → s.instrAvailable i = true → s.instrReadable i = true →
    s.instrTraps i = true →
    (s.cr4.getLsbD 10 = true → ∃ t, exec i s = .fault (.simdFloatingPoint t)) ∧
    (s.cr4.getLsbD 10 = false → exec i s = .fault (.invalidOpcode s))

/-- 60_exceptions.md rule R131: an instruction that is available and can read its operand ends in an exception under the
condition of the rule, with no vector register written; otherwise it completes with the masked responses of its active
elements, and ORs their flags into `MXCSR` (but under embedded rounding, 42_vfmsubadd_evex.md rule R114). -/
def Obligations.CompletesUnlessUnmasked : Prop :=
  ∀ (i : Instr) (s : State), i.wellFormed = true → s.instrAvailable i = true → s.instrReadable i = true →
    (s.instrTraps i = true → ∃ x, exec i s = .fault x ∧ x.after.zmm = s.zmm) ∧
    (s.instrTraps i = false → ∃ t, exec i s = .next t ∧
      (∀ j, j < (instrVecLen i).elements → s.instrActive i j = true →
        element (t.vec (instrDest i)) j = (s.instrElement i j).result) ∧
      t.mxcsr = if (instrRounding i).isSome then s.mxcsr
        else orFlags s.mxcsr (flagsBelow (instrVecLen i).elements (s.instrActive i) (s.instrElement i)))

/-- 60_exceptions.md rule R142. The counter `draws` is the model's own (log entry 2). -/
def Obligations.FlagsAtSimdFault : Prop :=
  ∀ (i : Instr) (s t : State), exec i s = .fault (.simdFloatingPoint t) →
    ∃ g : BitVec 6,
      t = { s with mxcsr := t.mxcsr, draws := t.draws } ∧
      t.mxcsr.extractLsb' 0 6 = s.mxcsr.extractLsb' 0 6 ||| g ∧
      t.mxcsr.extractLsb' 6 26 = s.mxcsr.extractLsb' 6 26 ∧
      (∀ n, g.getLsbD n = true → ∃ j, j < (instrVecLen i).elements ∧ s.instrActive i j = true ∧
        ((s.instrElement i j).flags.getLsbD n = true ∨
          (n = 4 ∧ s.mxcsr.getLsbD 11 = false ∧ (s.instrElement i j).tiny = true))) ∧
      ∃ n, n < 6 ∧ n ≠ 2 ∧ g.getLsbD n = true ∧ s.mxcsr.getLsbD (7 + n) = false

/-- 60_exceptions.md rules R141 and R142, 41_vfmsubadd_vex.md rule R107, 42_vfmsubadd_evex.md rule R115: what a fault leaves.
A page fault changes `CR2` alone. #XM sets flags of `MXCSR` alone, all of which the active elements of the decoded
instruction raise (the counter `draws` is the model's own, log entry 2). Every other fault, #UD in place of #XM among them,
changes nothing. -/
def Obligations.FaultLeavesState : Prop :=
  ∀ (s : State) (x : Fault), step s = .fault x →
    match x with
    | .pageFault _ t => t = { s with cr2 := t.cr2 }
    | .simdFloatingPoint t =>
      t = { s with mxcsr := t.mxcsr, draws := t.draws } ∧ s.cr4.getLsbD 10 = true ∧
      ∃ i, decode s.decodeMode s.fetch = .instr i ∧ s.instrAvailable i = true ∧ s.instrReadable i = true ∧
        s.instrTraps i = true ∧
        ∃ g : BitVec 6, t.mxcsr = s.mxcsr ||| g.setWidth 32 ∧
          ∀ n, g.getLsbD n = true → ∃ j, j < (instrVecLen i).elements ∧ s.instrActive i j = true ∧
            ((s.instrElement i j).flags.getLsbD n = true ∨
              (n = 4 ∧ s.mxcsr.getLsbD 11 = false ∧ (s.instrElement i j).tiny = true))
    | .invalidOpcode t => t = s
    | .deviceNotAvailable t => t = s
    | .stackSegment t => t = s
    | .generalProtection t => t = s

/-! ## Frames -/

/-- 10_state.md rule R23: what an instruction that completes changes is the destination register, the flags of `MXCSR` by OR
with those its active elements raise (none under embedded rounding), and the program counter. `ZE` is never raised. -/
def Obligations.CompletedInstrFrame : Prop :=
  ∀ (i : Instr) (s t : State), exec i s = .next t →
    (∀ n : EvexReg, n ≠ instrDest i → t.vec n = s.vec n) ∧
    t.k = s.k ∧ t.gpr = s.gpr ∧ t.segs = s.segs ∧ t.rflags = s.rflags ∧
    t.cr0 = s.cr0 ∧ t.cr2 = s.cr2 ∧ t.cr4 = s.cr4 ∧ t.xcr0 = s.xcr0 ∧ t.cpl = s.cpl ∧
    t.mode = s.mode ∧ t.code16 = s.code16 ∧ t.params = s.params ∧ t.draws = s.draws ∧
    (∀ a : Quad, t.mem.read a = s.mem.read a) ∧
    t.mxcsr.extractLsb' 0 6 = s.mxcsr.extractLsb' 0 6 |||
      (if (instrRounding i).isSome then 0#6
        else flagsBelow (instrVecLen i).elements (s.instrActive i) (s.instrElement i)) ∧
    t.mxcsr.extractLsb' 6 26 = s.mxcsr.extractLsb' 6 26 ∧
    t.mxcsr.getLsbD 2 = s.mxcsr.getLsbD 2

/-- 20_memory.md rule R37. -/
def Obligations.NeverWritesMemory : Prop :=
  ∀ s : State, (∀ t, step s = .next t → t.mem = s.mem) ∧ (∀ x, step s = .fault x → x.after.mem = s.mem)

/-- 10_state.md rule R18: the program counter after a completed instruction, and at a fault. That it is taken modulo 2^32 in a
16-bit code segment too, as in the other 32-bit modes, is the model's choice (PRESUMED, log entry 31). -/
def Obligations.ProgramCounterAdvances : Prop :=
  ∀ (i : Instr) (s : State),
    (∀ t, exec i s = .next t → s.mode = .long64 → t.rip = s.rip + BitVec.ofNat 64 (encode i).length) ∧
    (∀ t, exec i s = .next t → s.mode ≠ .long64 →
      t.rip.toNat = (s.rip.toNat + (encode i).length) % 2 ^ 32) ∧
    (∀ x, exec i s = .fault x → x.after.rip = s.rip)

/-- 41_vfmsubadd_vex.md rule R108 and 42_vfmsubadd_evex.md rule R113. -/
def Obligations.UpperBitsZeroed : Prop :=
  ∀ (i : Instr) (s t : State), exec i s = .next t →
    ∀ b, (instrVecLen i).bits ≤ b → (t.vec (instrDest i)).getLsbD b = false

/-! ## Results -/

/-- The VEX.128 forms (41_vfmsubadd_vex.md rules R100 to R103): where the instruction is available, its operand can be read
and no element raises an unmasked exception, it completes with the elements, the flags and the program counter of the
rules. -/
def Obligations.Vex128Result : Prop :=
  ∀ (o : VexOperands) (s : State), s.vexAvailable = true → s.vexReadable .v128 o = true →
    let d := element (s.vec (vexNumber o.dest))
    let s2 := element (s.vec (vexNumber o.src2))
    let s3 := s.vexSource o
    let fma := s.fma (mxcsrRounding s.mxcsr)
    ((∀ j, j < 2 → s.traps (fma d s3 s2 j) = false) →
      VexCompletes s .v128 o (fma d s3 s2) (exec (.vfmsubadd132pdVex128 o) s)) ∧
    ((∀ j, j < 2 → s.traps (fma s2 d s3 j) = false) →
      VexCompletes s .v128 o (fma s2 d s3) (exec (.vfmsubadd213pdVex128 o) s)) ∧
    ((∀ j, j < 2 → s.traps (fma s2 s3 d j) = false) →
      VexCompletes s .v128 o (fma s2 s3 d) (exec (.vfmsubadd231pdVex128 o) s))

/-- The VEX.256 forms (41_vfmsubadd_vex.md rules R100, R104 to R106). -/
def Obligations.Vex256Result : Prop :=
  ∀ (o : VexOperands) (s : State), s.vexAvailable = true → s.vexReadable .v256 o = true →
    let d := element (s.vec (vexNumber o.dest))
    let s2 := element (s.vec (vexNumber o.src2))
    let s3 := s.vexSource o
    let fma := s.fma (mxcsrRounding s.mxcsr)
    ((∀ j, j < 4 → s.traps (fma d s3 s2 j) = false) →
      VexCompletes s .v256 o (fma d s3 s2) (exec (.vfmsubadd132pdVex256 o) s)) ∧
    ((∀ j, j < 4 → s.traps (fma s2 d s3 j) = false) →
      VexCompletes s .v256 o (fma s2 d s3) (exec (.vfmsubadd213pdVex256 o) s)) ∧
    ((∀ j, j < 4 → s.traps (fma s2 s3 d j) = false) →
      VexCompletes s .v256 o (fma s2 s3 d) (exec (.vfmsubadd231pdVex256 o) s))

/-- The EVEX.128 forms (42_vfmsubadd_evex.md rules R110 to R113, R116 to R118), under every writemask, merging and
zeroing, with a register, memory or broadcast operand. -/
def Obligations.Evex128Result : Prop :=
  ∀ (p : EvexOperands EvexRm) (s : State),
    let o := widen p
    s.evexAvailable .v128 = true → maskWellFormed o.aaa o.z = true → s.evexReadable .v128 o = true →
    let d := element (s.vec o.dest)
    let s2 := element (s.vec o.src2)
    let s3 := s.evexSource .v128 o
    let fma := s.fma (mxcsrRounding s.mxcsr)
    ((∀ j, j < 2 → s.active o.aaa j = true → s.traps (fma d s3 s2 j) = false) →
      EvexCompletes s .v128 o (fma d s3 s2) (exec (.vfmsubadd132pdEvex128 p) s)) ∧
    ((∀ j, j < 2 → s.active o.aaa j = true → s.traps (fma s2 d s3 j) = false) →
      EvexCompletes s .v128 o (fma s2 d s3) (exec (.vfmsubadd213pdEvex128 p) s)) ∧
    ((∀ j, j < 2 → s.active o.aaa j = true → s.traps (fma s2 s3 d j) = false) →
      EvexCompletes s .v128 o (fma s2 s3 d) (exec (.vfmsubadd231pdEvex128 p) s))

/-- The EVEX.256 forms (42_vfmsubadd_evex.md rules R110 to R113, R119 to R121). -/
def Obligations.Evex256Result : Prop :=
  ∀ (p : EvexOperands EvexRm) (s : State),
    let o := widen p
    s.evexAvailable .v256 = true → maskWellFormed o.aaa o.z = true → s.evexReadable .v256 o = true →
    let d := element (s.vec o.dest)
    let s2 := element (s.vec o.src2)
    let s3 := s.evexSource .v256 o
    let fma := s.fma (mxcsrRounding s.mxcsr)
    ((∀ j, j < 4 → s.active o.aaa j = true → s.traps (fma d s3 s2 j) = false) →
      EvexCompletes s .v256 o (fma d s3 s2) (exec (.vfmsubadd132pdEvex256 p) s)) ∧
    ((∀ j, j < 4 → s.active o.aaa j = true → s.traps (fma s2 d s3 j) = false) →
      EvexCompletes s .v256 o (fma s2 d s3) (exec (.vfmsubadd213pdEvex256 p) s)) ∧
    ((∀ j, j < 4 → s.active o.aaa j = true → s.traps (fma s2 s3 d j) = false) →
      EvexCompletes s .v256 o (fma s2 s3 d) (exec (.vfmsubadd231pdEvex256 p) s))

/-- The EVEX.512 forms without embedded rounding (42_vfmsubadd_evex.md rules R110 to R112, R122 to R124). -/
def Obligations.Evex512Result : Prop :=
  ∀ (o : EvexOperands EvexRm512) (s : State), embeddedRounding o.src3 = none →
    s.evexAvailable .v512 = true → maskWellFormed o.aaa o.z = true → s.evexReadable .v512 o = true →
    let d := element (s.vec o.dest)
    let s2 := element (s.vec o.src2)
    let s3 := s.evexSource .v512 o
    let fma := s.fma (mxcsrRounding s.mxcsr)
    ((∀ j, j < 8 → s.active o.aaa j = true → s.traps (fma d s3 s2 j) = false) →
      EvexCompletes s .v512 o (fma d s3 s2) (exec (.vfmsubadd132pdEvex512 o) s)) ∧
    ((∀ j, j < 8 → s.active o.aaa j = true → s.traps (fma s2 d s3 j) = false) →
      EvexCompletes s .v512 o (fma s2 d s3) (exec (.vfmsubadd213pdEvex512 o) s)) ∧
    ((∀ j, j < 8 → s.active o.aaa j = true → s.traps (fma s2 s3 d j) = false) →
      EvexCompletes s .v512 o (fma s2 s3 d) (exec (.vfmsubadd231pdEvex512 o) s))

/-- The EVEX.512 register forms with embedded rounding (42_vfmsubadd_evex.md rule R114): they complete whatever flags the
elements raise, with the rounding mode of the instruction, and `MXCSR` is not written. -/
def Obligations.EmbeddedRoundingResult : Prop :=
  ∀ (o : EvexOperands EvexRm512) (n : EvexReg) (rc : RoundingMode) (s : State), o.src3 = .regRounded n rc →
    s.evexAvailable .v512 = true → maskWellFormed o.aaa o.z = true →
    let d := element (s.vec o.dest)
    let s2 := element (s.vec o.src2)
    let s3 := element (s.vec n)
    let fma := s.fma rc
    EvexCompletes s .v512 o (fma d s3 s2) (exec (.vfmsubadd132pdEvex512 o) s) ∧
    EvexCompletes s .v512 o (fma s2 d s3) (exec (.vfmsubadd213pdEvex512 o) s) ∧
    EvexCompletes s .v512 o (fma s2 s3 d) (exec (.vfmsubadd231pdEvex512 o) s) ∧
    (∀ t, exec (.vfmsubadd132pdEvex512 o) s = .next t → t.mxcsr = s.mxcsr) ∧
    (∀ t, exec (.vfmsubadd213pdEvex512 o) s = .next t → t.mxcsr = s.mxcsr) ∧
    (∀ t, exec (.vfmsubadd231pdEvex512 o) s = .next t → t.mxcsr = s.mxcsr)

/-- 20_memory.md rule R38, 42_vfmsubadd_evex.md rules R111 and R113: with a writemask of all zeros a memory form completes
whatever its address is; the destination keeps its low elements or clears them, and its upper bits are cleared. -/
def Obligations.ZeroMaskReadsNothing : Prop :=
  ∀ (i : Instr) (s : State), i.wellFormed = true → s.instrAvailable i = true →
    (∀ j, j < (instrVecLen i).elements → s.instrActive i j = false) →
    ∃ t, exec i s = .next t ∧ t.mxcsr = s.mxcsr ∧ t.rip = s.nextRip (instrLength i) ∧
      ∀ o, instrOperands i = .inr o →
        t.vec o.dest = if o.z then 0 else s.vec o.dest &&& BitVec.ofNat 512 (2 ^ (instrVecLen i).bits - 1)

/-- 42_vfmsubadd_evex.md rule R125, where both forms are available: without a writemask an EVEX.128 or EVEX.256 form gives
what the VEX form of the same mnemonic and length gives on the same operands. A memory operand is the same operand where
both forms reach the same location through the same segment rules; the program counters differ by the lengths. -/
def Obligations.EvexEqualsVex : Prop :=
  ∀ (form : FmaForm) (vl : VecLen) (o : VexOperands) (p : EvexOperands EvexRm) (s : State),
    (vl = .v128 ∨ vl = .v256) → s.vexAvailable = true → s.evexAvailable vl = true →
    p.dest = vexNumber o.dest → p.src2 = vexNumber o.src2 → p.aaa = 0#3 → p.z = false →
    ((∃ n, o.src3 = .reg n ∧ p.src3 = .reg (vexNumber n)) ∨
      ∃ a b, o.src3 = .mem a ∧ p.src3 = .mem b ∧ s.vexLocation o a = s.evexLocation vl.bytes (widen p) b ∧
        s.segmentFault o.pre a = s.segmentFault p.pre b) →
    exec (if vl = .v128 then evex128Instr form p else evex256Instr form p) s =
      match exec (vexInstr form (if vl = .v128 then 0#1 else 1#1) o) s with
      | .next t => .next { t with rip := s.nextRip (evexLength (widen p)) }
      | .fault x => .fault x
      | .refused q => .refused q

/-! ## What an outcome does not depend on -/

/-- 42_vfmsubadd_evex.md rule R114: under embedded rounding only `DAZ` and `FTZ` of `MXCSR` are read. -/
def Obligations.EmbeddedRoundingReadsDazFtzOnly : Prop :=
  ∀ (i : Instr) (s : State) (m : BitVec 32), instrRounding i ≠ none →
    m.getLsbD 6 = s.mxcsr.getLsbD 6 → m.getLsbD 15 = s.mxcsr.getLsbD 15 →
    exec i { s with mxcsr := m } = mapResult (fun t => { t with mxcsr := m }) (exec i s)

/-- 42_vfmsubadd_evex.md rule R111, 40_fma_element.md rule R82: the inactive elements of a source register other than the
destination, and its bits above the vector length, are invisible. -/
def Obligations.InactiveElementsInvisible : Prop :=
  ∀ (i : Instr) (s : State) (n : EvexReg) (v : Vec), n ≠ instrDest i →
    (∀ j, j < (instrVecLen i).elements → s.instrActive i j = true → element v j = element (s.vec n) j) →
    exec i (s.setVec n v) = mapResult (fun t => t.setVec n v) (exec i s)

/-- 20_memory.md rules R34, R38: memory that an instruction does not read has no effect on its outcome; a register form
reads none, and a memory form reads the bytes of its active elements. -/
def Obligations.UnreadMemoryInvisible : Prop :=
  ∀ (i : Instr) (s : State) (m : Memory),
    (∀ a b p, instrAddress i = some a → s.readsByte i b = true →
      s.translate .read (s.byteLinear (s.instrLocation i a) b) = .maps p → m.read p = s.mem.read p) →
    exec i { s with mem := m } = mapResult (fun t => { t with mem := m }) (exec i s)

/-- 60_exceptions.md rule R146, 10_state.md rules R21 and R22: where `Translate` does not depend on the privilege level,
nothing does; of `RFLAGS` only `VM` is read. -/
def Obligations.PrivilegeAndFlagsInvisible : Prop :=
  ∀ (i : Instr) (s : State) (c : BitVec 2) (f : Quad), (∀ r ∈ s.params.translate, r.cpl = none) →
    f.getLsbD 17 = s.rflags.getLsbD 17 →
    exec i { s with cpl := c, rflags := f } = mapResult (fun t => { t with cpl := c, rflags := f }) (exec i s)

/-! ## Memory operands -/

/-- 20_memory.md rule R32: data is little-endian. -/
def Obligations.MemoryIsLittleEndian : Prop :=
  ∀ (s : State) (l : Location) (i k : Nat) (p : Quad), k < 8 →
    s.translate .read (s.byteLinear l (i + k)) = .maps p →
    (s.readQuad l i).extractLsb' (8 * k) 8 = s.mem.read p

/-- 30_encoding.md rules R54 to R56, 20_memory.md rule R45 and 10_state.md rule R20 in `Long64`: the effective address of
every form of the table, with `disp8` multiplied by 1 in a VEX form, by 8 in a broadcast and by the bytes of the vector in
another EVEX form; and the linear address of every byte of the operand, with `FSbase` or `GSbase` added where the override
names it and nothing added otherwise. -/
def Obligations.LongModeAddresses : Prop :=
  ∀ (i : Instr) (s : State) (a : AddrForm), s.mode = .long64 → instrAddress i = some a →
    let factor : Int :=
      if instrIsEvex i = false then 1
      else if instrBroadcast i then 8
      else
        match instrVecLen i with
        | .v128 => 16
        | .v256 => 32
        | .v512 => 64
    let disp : Disp → Quad := fun d =>
      match d with
      | .none => 0
      | .disp8 x => BitVec.ofInt 64 (x.toInt * factor)
      | .disp32 x => BitVec.ofInt 64 x.toInt
    let index : BitVec 2 → GprNum → Quad := fun scale x =>
      if x = 4#4 then 0 else BitVec.ofNat 64 ((s.reg x).toNat * 2 ^ scale.toNat)
    let sum : Quad :=
      match a with
      | .base b d => s.reg b + disp d
      | .disp32 d => s.rip + BitVec.ofNat 64 (encode i).length + BitVec.ofInt 64 d.toInt
      | .sib scale x b d => s.reg b + index scale x + disp d
      | .sibNoBase scale x d => index scale x + BitVec.ofInt 64 d.toInt
    let ea : Quad := if (instrPrefixes i).addrSize then BitVec.ofNat 64 (sum.toNat % 2 ^ 32) else sum
    let base : Quad :=
      if (instrPrefixes i).seg = some .fs then s.segs.fs.base
      else if (instrPrefixes i).seg = some .gs then s.segs.gs.base
      else 0
    (s.instrLocation i a).ea = ea ∧
    ∀ n, (s.byteLinear (s.instrLocation i a) n).toNat = (ea.toNat + n + base.toNat) % 2 ^ 64

/-- 30_encoding.md rule R68 (d) and 20_memory.md rule R45 in the 32-bit modes: the effective address, made from 32-bit
registers modulo 2^32, with no RIP-relative form; and the linear address of every byte of the operand, which adds the base
of the segment that the override names, or else of SS for the bases `ESP` and `EBP` and of DS otherwise. That the offset
and the linear address wrap modulo 2^32 is the model's reading of 20_memory.md rule R31 (DEDUCED, log entry 17). The decoder
answers no memory form in a 16-bit code segment; that the addresses of a term would be the same there is the model's choice
(log entry 31). -/
def Obligations.ProtectedModeAddresses : Prop :=
  ∀ (i : Instr) (s : State) (a : AddrForm), s.mode ≠ .long64 → instrAddress i = some a →
    let factor : Int :=
      if instrIsEvex i = false then 1
      else if instrBroadcast i then 8
      else
        match instrVecLen i with
        | .v128 => 16
        | .v256 => 32
        | .v512 => 64
    let reg : GprNum → BitVec 32 := fun x => (s.reg x).extractLsb' 0 32
    let disp : Disp → BitVec 32 := fun d =>
      match d with
      | .none => 0
      | .disp8 x => BitVec.ofInt 32 (x.toInt * factor)
      | .disp32 x => x
    let index : BitVec 2 → GprNum → BitVec 32 := fun scale x =>
      if x = 4#4 then 0 else BitVec.ofNat 32 ((reg x).toNat * 2 ^ scale.toNat)
    let ea : BitVec 32 :=
      match a with
      | .base b d => reg b + disp d
      | .disp32 d => d
      | .sib scale x b d => reg b + index scale x + disp d
      | .sibNoBase scale x d => index scale x + d
    let stack : Bool :=
      match a with
      | .base b _ => b == 4#4 || b == 5#4
      | .disp32 _ => false
      | .sib _ _ b _ => b == 4#4 || b == 5#4
      | .sibNoBase _ _ _ => false
    let base : Quad :=
      match (instrPrefixes i).seg with
      | none => if stack then s.segs.ss.base else s.segs.ds.base
      | some .es => s.segs.es.base
      | some .cs => s.segs.cs.base
      | some .ss => s.segs.ss.base
      | some .ds => s.segs.ds.base
      | some .fs => s.segs.fs.base
      | some .gs => s.segs.gs.base
    (s.instrLocation i a).ea.toNat = ea.toNat ∧
    ∀ n, (s.byteLinear (s.instrLocation i a) n).toNat = ((ea.toNat + n) % 2 ^ 32 + base.toNat) % 2 ^ 32

/-! ## The arithmetic of one element -/

/-- 40_fma_element.md rule R96: the flag sets that `FmaElem` can return, and that `IE` and `DE` are decided from the
operands alone. -/
def Obligations.PossibleFlagSets : Prop :=
  ∀ (rc : RoundingMode) (daz ftz neg : Bool) (a b c : Quad),
    (fmaElem rc daz ftz neg a b c).flags ∈
      [0#6, flagIE, flagDE, flagPE, flagDE ||| flagPE, flagOE ||| flagPE, flagDE ||| flagOE ||| flagPE,
        flagUE ||| flagPE, flagDE ||| flagUE ||| flagPE] ∧
    ∀ (rc' : RoundingMode) (ftz' : Bool),
      (fmaElem rc' daz ftz' neg a b c).flags &&& (flagIE ||| flagDE) =
      (fmaElem rc daz ftz neg a b c).flags &&& (flagIE ||| flagDE)

/-- 40_fma_element.md rule R86, with its consequences for the three forms. -/
def Obligations.NanOperandPropagates : Prop :=
  (∀ (rc : RoundingMode) (daz ftz neg : Bool) (a b c : Quad), (isNaN a || isNaN b || isNaN c) = true →
    fmaElem rc daz ftz neg a b c =
      ⟨(if isNaN a then a else if isNaN b then b else c) ||| 0x0008000000000000#64,
       if isSNaN a || isSNaN b || isSNaN c then flagIE else 0#6, false⟩) ∧
  (∀ (s : State) (rc : RoundingMode) (d s2 s3 : Nat → Quad) (j : Nat),
    (isNaN (d j) || isNaN (s2 j) || isNaN (s3 j)) = true →
    (s.formFma .f132 rc d s2 s3 j).result =
      (if isNaN (d j) then d j else if isNaN (s3 j) then s3 j else s2 j) ||| 0x0008000000000000#64 ∧
    (s.formFma .f213 rc d s2 s3 j).result =
      (if isNaN (s2 j) then s2 j else if isNaN (d j) then d j else s3 j) ||| 0x0008000000000000#64 ∧
    (s.formFma .f231 rc d s2 s3 j).result =
      (if isNaN (s2 j) then s2 j else if isNaN (s3 j) then s3 j else d j) ||| 0x0008000000000000#64)

/-- 40_fma_element.md rule R85. -/
def Obligations.SubtractionNegatesAddend : Prop :=
  ∀ (rc : RoundingMode) (daz ftz : Bool) (a b c : Quad),
    (isNaN c = false →
      fmaElem rc daz ftz true a b c = fmaElem rc daz ftz false a b (c ^^^ 0x8000000000000000#64)) ∧
    (isNaN c = true → fmaElem rc daz ftz true a b c = fmaElem rc daz ftz false a b c)

/-- 40_fma_element.md rule R98 (P3). -/
def Obligations.FactorsCommute : Prop :=
  ∀ (rc : RoundingMode) (daz ftz neg : Bool) (a b c : Quad), isNaN a = false → isNaN b = false →
    fmaElem rc daz ftz neg a b c = fmaElem rc daz ftz neg b a c

/-- 40_fma_element.md rules R83 and R98 (P8): a denormal input is read as the zero of its sign, and where no input is
denormal `daz` has no effect; `ftz` has no effect on a result that is not tiny. -/
def Obligations.DazAndFtzEffects : Prop :=
  ∀ (rc : RoundingMode) (daz ftz neg : Bool) (a b c : Quad),
    (isDenormal a = true →
      fmaElem rc true ftz neg a b c = fmaElem rc true ftz neg (if a.getLsbD 63 then 0x8000000000000000#64 else 0#64) b c) ∧
    (isDenormal b = true →
      fmaElem rc true ftz neg a b c = fmaElem rc true ftz neg a (if b.getLsbD 63 then 0x8000000000000000#64 else 0#64) c) ∧
    (isDenormal c = true →
      fmaElem rc true ftz neg a b c = fmaElem rc true ftz neg a b (if c.getLsbD 63 then 0x8000000000000000#64 else 0#64)) ∧
    (isDenormal a = false → isDenormal b = false → isDenormal c = false →
      fmaElem rc true ftz neg a b c = fmaElem rc false ftz neg a b c) ∧
    ((fmaElem rc daz true neg a b c).tiny = false →
      fmaElem rc daz true neg a b c = fmaElem rc daz false neg a b c)

/-- 40_fma_element.md rule R87: the invalid operations without a NaN operand, and that nothing else without a NaN operand
raises `IE`. `a'`, `b'` and `c'` are the operands after rules R83 and R85. -/
def Obligations.InvalidOperationResult : Prop :=
  ∀ (rc : RoundingMode) (daz ftz neg : Bool) (a b c : Quad),
    isNaN a = false → isNaN b = false → isNaN c = false →
    let a' := conditionInput daz a
    let b' := conditionInput daz b
    let c' := negateIf neg (conditionInput daz c)
    let invalid : Prop :=
      (isInfinite a' = true ∧ isZero b' = true) ∨ (isZero a' = true ∧ isInfinite b' = true) ∨
        ((isInfinite a' = true ∨ isInfinite b' = true) ∧ isInfinite c' = true ∧
          (a' ^^^ b').getLsbD 63 ≠ c'.getLsbD 63)
    (invalid → fmaElem rc daz ftz neg a b c = ⟨0xFFF8000000000000#64, flagIE, false⟩) ∧
    (¬ invalid → (fmaElem rc daz ftz neg a b c).flags &&& flagIE = 0#6)

/-- 40_fma_element.md rules R88 and R89: a valid operation on an infinite operand is exact, and raises `DE` alone, where an
operand is denormal. -/
def Obligations.InfiniteOperandResult : Prop :=
  ∀ (rc : RoundingMode) (daz ftz neg : Bool) (a b c : Quad),
    isNaN a = false → isNaN b = false → isNaN c = false →
    let a' := conditionInput daz a
    let b' := conditionInput daz b
    let c' := negateIf neg (conditionInput daz c)
    let de : BitVec 6 := if isDenormal a' || isDenormal b' || isDenormal c' then flagDE else 0#6
    (((isInfinite a' = true ∧ isZero b' = false) ∨ (isZero a' = false ∧ isInfinite b' = true)) →
      (isInfinite c' = true → (a' ^^^ b').getLsbD 63 = c'.getLsbD 63) →
      fmaElem rc daz ftz neg a b c =
        ⟨if (a' ^^^ b').getLsbD 63 then 0xFFF0000000000000#64 else 0x7FF0000000000000#64, de, false⟩) ∧
    (isInfinite a' = false → isInfinite b' = false → isInfinite c' = true →
      fmaElem rc daz ftz neg a b c = ⟨c', de, false⟩)

/-- 40_fma_element.md rule R91: the sign of an exact zero. `a'`, `b'` and `c'` are the operands after rules R83 and R85; `DE`
is rule R88's and decided before. -/
def Obligations.ExactZeroSign : Prop :=
  ∀ (rc : RoundingMode) (daz ftz neg : Bool) (a b c : Quad),
    dblExponent a ≠ 2047 → dblExponent b ≠ 2047 → dblExponent c ≠ 2047 →
    let a' := conditionInput daz a
    let b' := conditionInput daz b
    let c' := negateIf neg (conditionInput daz c)
    let sameZero : Prop := (isZero a' || isZero b') = true ∧ isZero c' = true ∧ (a' ^^^ b').getLsbD 63 = c'.getLsbD 63
    scaledValue a' * scaledValue b' + scaledValue c' * 2 ^ 1074 = 0 →
    (fmaElem rc daz ftz neg a b c).flags &&& ~~~flagDE = 0#6 ∧
    (sameZero → (fmaElem rc daz ftz neg a b c).result = c') ∧
    (¬ sameZero → (fmaElem rc daz ftz neg a b c).result = if rc = .down then 0x8000000000000000#64 else 0#64)

/-- 40_fma_element.md rule R98 (P2): where the exact sum is the value of a number `r` that is not flushed to zero, the
result is `r`, and no flag but `DE` is raised. -/
def Obligations.RepresentableSumIsExact : Prop :=
  ∀ (rc : RoundingMode) (ftz : Bool) (a b c r : Quad),
    dblExponent a ≠ 2047 → dblExponent b ≠ 2047 → dblExponent c ≠ 2047 → dblExponent r ≠ 2047 →
    isZero r = false → (ftz = false ∨ dblExponent r ≠ 0) →
    scaledValue a * scaledValue b + scaledValue c * 2 ^ 1074 = scaledValue r * 2 ^ 1074 →
    fmaElem rc false ftz false a b c =
      ⟨r, if isDenormal a || isDenormal b || isDenormal c then flagDE else 0#6, dblExponent r == 0⟩

/-- 40_fma_element.md rules R90, R94: in round-to-nearest, no number is nearer to the exact sum than a finite result, and
where another number is as near, the result is the one whose fraction is even. -/
def Obligations.NearestResultIsNearest : Prop :=
  ∀ (a b c y : Quad), dblExponent a ≠ 2047 → dblExponent b ≠ 2047 → dblExponent c ≠ 2047 →
    let x : Int := scaledValue a * scaledValue b + scaledValue c * 2 ^ 1074
    let r := (fmaElem .nearest false false false a b c).result
    dblExponent r ≠ 2047 → dblExponent y ≠ 2047 →
    (x - scaledValue r * 2 ^ 1074).natAbs ≤ (x - scaledValue y * 2 ^ 1074).natAbs ∧
    (scaledValue y ≠ scaledValue r →
      (x - scaledValue r * 2 ^ 1074).natAbs = (x - scaledValue y * 2 ^ 1074).natAbs → r.getLsbD 0 = false)

/-- 40_fma_element.md rules R90, R93, R94: the directed modes. A finite result lies on the side of the exact sum that the
mode names, and no number lies between them; rounding toward zero does not raise the magnitude. In every mode the sign of the
result is that of an exact sum which is not zero, also where the result is a zero or an infinity. -/
def Obligations.DirectedResultIsTight : Prop :=
  ∀ (a b c y : Quad), dblExponent a ≠ 2047 → dblExponent b ≠ 2047 → dblExponent c ≠ 2047 → dblExponent y ≠ 2047 →
    let x : Int := scaledValue a * scaledValue b + scaledValue c * 2 ^ 1074
    let v : RoundingMode → Int := fun rc => scaledValue (fmaElem rc false false false a b c).result * 2 ^ 1074
    let finite : RoundingMode → Prop := fun rc => dblExponent (fmaElem rc false false false a b c).result ≠ 2047
    let w : Int := scaledValue y * 2 ^ 1074
    (finite .down → v .down ≤ x ∧ (w ≤ x → w ≤ v .down)) ∧
    (finite .up → x ≤ v .up ∧ (x ≤ w → v .up ≤ w)) ∧
    finite .zero ∧ (v .zero).natAbs ≤ x.natAbs ∧ (w.natAbs ≤ x.natAbs → w.natAbs ≤ (v .zero).natAbs) ∧
    (x ≠ 0 → ∀ rc, (fmaElem rc false false false a b c).result.getLsbD 63 = decide (x < 0))

/-- 40_fma_element.md rule R93: the results and the flags of an overflow, decided on the sum rounded to 53 bits. -/
def Obligations.OverflowResult : Prop :=
  ∀ (rc : RoundingMode) (ftz : Bool) (a b c : Quad),
    dblExponent a ≠ 2047 → dblExponent b ≠ 2047 → dblExponent c ≠ 2047 →
    let x : Int := scaledValue a * scaledValue b + scaledValue c * 2 ^ 1074
    let e := fmaElem rc false ftz false a b c
    (e.flags &&& flagOE ≠ 0#6 ↔ (2 ^ 53 - 1) * 2 ^ 3119 < round53 rc (decide (x < 0)) x.natAbs) ∧
    (e.flags &&& flagOE ≠ 0#6 →
      e.flags &&& flagPE ≠ 0#6 ∧ e.flags &&& flagUE = 0#6 ∧ e.tiny = false ∧
      e.result =
        match rc with
        | .nearest => if x < 0 then 0xFFF0000000000000#64 else 0x7FF0000000000000#64
        | .down    => if x < 0 then 0xFFF0000000000000#64 else 0x7FEFFFFFFFFFFFFF#64
        | .up      => if x < 0 then 0xFFEFFFFFFFFFFFFF#64 else 0x7FF0000000000000#64
        | .zero    => if x < 0 then 0xFFEFFFFFFFFFFFFF#64 else 0x7FEFFFFFFFFFFFFF#64)

/-- 40_fma_element.md rules R92, R94, R95: without flush-to-zero, `PE` of a result that does not overflow says that it is not
the exact sum, and `UE` that it is tiny and not exact; with flush-to-zero a tiny result is the zero of the sum's sign, and
`UE` and `PE` are raised. A result is tiny exactly where the sum is not zero and its magnitude, rounded to 53 bits, is below
`2^-1022`, which is `2^1126` in units of `2^-2148`. -/
def Obligations.InexactAndUnderflowFlags : Prop :=
  ∀ (rc : RoundingMode) (a b c : Quad),
    dblExponent a ≠ 2047 → dblExponent b ≠ 2047 → dblExponent c ≠ 2047 →
    let x : Int := scaledValue a * scaledValue b + scaledValue c * 2 ^ 1074
    let e := fmaElem rc false false false a b c
    let f := fmaElem rc false true false a b c
    (e.flags &&& flagOE = 0#6 →
      (e.flags &&& flagPE ≠ 0#6 ↔ scaledValue e.result * 2 ^ 1074 ≠ x) ∧
      (e.flags &&& flagUE ≠ 0#6 ↔ e.tiny = true ∧ scaledValue e.result * 2 ^ 1074 ≠ x)) ∧
    f.tiny = e.tiny ∧
    (e.tiny = true ↔ x ≠ 0 ∧ round53 rc (decide (x < 0)) x.natAbs < 2 ^ 1126) ∧
    (e.tiny = true →
      f.result = (if x < 0 then 0x8000000000000000#64 else 0#64) ∧
      f.flags = e.flags ||| flagUE ||| flagPE)

/-! ## Reset and the invariant -/

/-- 70_reset_and_hazards.md rule R156, with the values of 10_state.md rule R25. -/
def Obligations.EveryFormRaisesUdAtReset : Prop :=
  State.reset.mxcsr = 0x00001F80#32 ∧ (∀ n : EvexReg, State.reset.vec n = 0) ∧ (∀ n : BitVec 3, State.reset.opmask n = 0) ∧
  State.reset.cr0 = 0x60000010#64 ∧ State.reset.cr0.getLsbD 0 = false ∧ State.reset.cr4 = 0 ∧ State.reset.xcr0 = 1 ∧
  State.reset.rip = 0x0000FFF0#64 ∧
  ∀ i : Instr, exec i State.reset = .fault (.invalidOpcode State.reset)

/-- The invariant holds at reset. -/
def Obligations.ResetMeetsMachineInvariant : Prop := State.reset.Inv

/-- Every step keeps the invariant, from every state. -/
def Obligations.StepKeepsMachineInvariant : Prop :=
  ∀ s t : State, s.Inv → step s = .next t → t.Inv
end

