-- ==== Sys2Proof/Laws/Decode.lean ====
section
/-! SUPPORT. Laws/Decode.lean: the length of each part of an encoding, and what the limit of fifteen bytes lets through. -/

namespace Sys2Proof

open Machine

@[simp] theorem length_encodePrefixes (p : Prefixes) : (encodePrefixes p).length = prefixLength p := by
  obtain ⟨g, a⟩ := p
  cases g <;> cases a <;> rfl

@[simp] theorem length_encodeDisp (d : Disp) : (encodeDisp d).length = dispLength d := by
  cases d <;> rfl

@[simp] theorem length_encodeAddr_tail (a : AddrForm) : (encodeAddr a).tail.length = addrLength a := by
  cases a with
  | base b d => exact length_encodeDisp d
  | disp32 d => rfl
  | sib s i b d => simp [encodeAddr, addrLength, Nat.add_comm]
  | sibNoBase s i d => rfl

theorem length_encodeVexWith (form : FmaForm) (l : BitVec 1) (o : VexOperands) (c : RmCode) :
    (encodeVexWith form l o c).length = prefixLength o.pre + 5 + c.tail.length := by
  simp [encodeVexWith]
  omega

theorem length_encodeEvexWith {ρ : Type} (form : FmaForm) (b : BitVec 1) (ll : BitVec 2) (o : EvexOperands ρ)
    (c : RmCode) : (encodeEvexWith form b ll o c).length = prefixLength o.pre + 6 + c.tail.length := by
  simp [encodeEvexWith]
  omega

theorem length_encodeVex (form : FmaForm) (l : BitVec 1) (o : VexOperands) :
    (encodeVex form l o).length = vexLength o := by
  simp only [encodeVex, vexLength, length_encodeVexWith]
  cases o.src3 with
  | reg n => rfl
  | mem a => simp [vexRmLength]

theorem length_encodeEvex (form : FmaForm) (ll : BitVec 2) (o : EvexOperands EvexRm) :
    (encodeEvex form ll o).length = evexLength (widen o) := by
  simp only [encodeEvex, evexLength, widen]
  cases o.src3 with
  | reg n => simp [length_encodeEvexWith, widenRm, evexRmLength, encodeEvexReg]
  | mem a => simp [length_encodeEvexWith, widenRm, evexRmLength]
  | bcast a => simp [length_encodeEvexWith, widenRm, evexRmLength]

theorem length_encodeEvex512 (form : FmaForm) (o : EvexOperands EvexRm512) :
    (encodeEvex512 form o).length = evexLength o := by
  simp only [encodeEvex512, evexLength]
  cases o.src3 with
  | reg n => simp [length_encodeEvexWith, evexRmLength, encodeEvexReg]
  | regRounded n rc => simp [length_encodeEvexWith, evexRmLength, encodeEvexReg]
  | mem a => simp [length_encodeEvexWith, evexRmLength]
  | bcast a => simp [length_encodeEvexWith, evexRmLength]

/-- An instruction is decoded exactly where its bytes are that instruction and the first fifteen tell so. -/
theorem decode_eq_instr (m : DecodeMode) (bytes : List Byte) (i : Instr) :
    decode m bytes = .instr i ↔ decodeBody m bytes = .instr i ∧ fitsLimit m bytes = true := by
  unfold decode
  cases decodeBody m bytes <;> cases fitsLimit m bytes <;> simp <;> split <;> simp

/-- Bytes that are no form, or have a 16-bit address, are told so whatever their length. -/
theorem decode_eq_body (m : DecodeMode) (bytes : List Byte)
    (h : decodeBody m bytes = .notThisGroup ∨ decodeBody m bytes = .addressing16) :
    decode m bytes = decodeBody m bytes := by
  unfold decode
  rcases h with h | h <;> rw [h]

end Sys2Proof
end

