-- ==== Sys2Proof/Laws/Flags.lean ====
section
/-! SUPPORT. Laws/Flags.lean: the fields of MXCSR under an OR of flags (10_state.md rule R16), the set drawn at a SIMD
floating-point fault (60_exceptions.md rule R142), and what raising an exception answers (rule R141). -/

namespace Sys2Proof.Machine

@[simp] theorem mxcsrFlags_orFlags (m : BitVec 32) (f : BitVec 6) : mxcsrFlags (orFlags m f) = mxcsrFlags m ||| f := by
  apply BitVec.eq_of_getLsbD_eq
  intro i hi
  simp [mxcsrFlags, orFlags, hi, show i < 32 by omega]

/-- A bit above the flags is kept. -/
theorem getLsbD_orFlags (m : BitVec 32) (f : BitVec 6) (i : Nat) (h : 6 ≤ i) :
    (orFlags m f).getLsbD i = m.getLsbD i := by
  simp [orFlags, BitVec.getLsbD_of_ge f i h]

/-- The bits above the flags, as one field. -/
theorem upper_orFlags (m : BitVec 32) (f : BitVec 6) : (orFlags m f).extractLsb' 6 26 = m.extractLsb' 6 26 := by
  apply BitVec.eq_of_getLsbD_eq
  intro i hi
  simp [hi, getLsbD_orFlags m f (6 + i) (by omega)]

@[simp] theorem mxcsrMasks_orFlags (m : BitVec 32) (f : BitVec 6) : mxcsrMasks (orFlags m f) = mxcsrMasks m := by
  apply BitVec.eq_of_getLsbD_eq
  intro i hi
  simp [mxcsrMasks, hi, getLsbD_orFlags m f (7 + i) (by omega)]

@[simp] theorem mxcsrRC_orFlags (m : BitVec 32) (f : BitVec 6) : mxcsrRC (orFlags m f) = mxcsrRC m := by
  apply BitVec.eq_of_getLsbD_eq
  intro i hi
  simp [mxcsrRC, hi, getLsbD_orFlags m f (13 + i) (by omega)]

@[simp] theorem mxcsrDAZ_orFlags (m : BitVec 32) (f : BitVec 6) : mxcsrDAZ (orFlags m f) = mxcsrDAZ m :=
  getLsbD_orFlags m f 6 (by omega)

@[simp] theorem mxcsrFTZ_orFlags (m : BitVec 32) (f : BitVec 6) : mxcsrFTZ (orFlags m f) = mxcsrFTZ m :=
  getLsbD_orFlags m f 15 (by omega)

@[simp] theorem mxcsrReserved_orFlags (m : BitVec 32) (f : BitVec 6) :
    mxcsrReserved (orFlags m f) = mxcsrReserved m := by
  apply BitVec.eq_of_getLsbD_eq
  intro i hi
  simp [mxcsrReserved, hi, getLsbD_orFlags m f (16 + i) (by omega)]

/-- A drawn set holds only flags that were raised. -/
theorem drawFlags_subset (m : BitVec 32) (raised free : BitVec 6) :
    drawFlags m raised free &&& raised = drawFlags m raised free := by
  unfold drawFlags
  split
  · simp
  · rw [BitVec.and_assoc, BitVec.and_self]

/-- A drawn set meets the unmasked kinds where the raised flags do. -/
theorem drawFlags_meets (m : BitVec 32) (raised free : BitVec 6) (h : raised &&& unmasked m ≠ 0#6) :
    drawFlags m raised free &&& unmasked m ≠ 0#6 := by
  unfold drawFlags
  split
  · exact h
  · assumption

/-- Every set that rule R142 allows is drawn by some free value. -/
theorem drawFlags_complete (m : BitVec 32) (raised g : BitVec 6) (hsub : g &&& raised = g)
    (hmeet : g &&& unmasked m ≠ 0#6) : drawFlags m raised g = g := by
  unfold drawFlags
  rw [hsub, if_neg hmeet]

/-- Raising an exception never gives a next state. -/
theorem raise_ne_next (x : Exception) (s t : State) : raise x s ≠ .next t := by
  cases x with
  | simd raised => simp only [raise]; split <;> simp
  | _ => simp [raise]

/-- Raising an exception is a fault; its state is the state before, but for `CR2` of a page fault and the flags of #XM. -/
theorem raise_fault (x : Exception) (s : State) :
    ∃ f : Fault, raise x s = .fault f ∧
      (f.after = s ∨ (∃ code a, x = .pf code a ∧ f = .pageFault code { s with cr2 := a }) ∨
        ∃ raised, x = .simd raised ∧ s.cr4OSXMMEXCPT = true ∧
          f = .simdFloatingPoint { s with mxcsr := s.simdFaultMxcsr raised, draws := s.draws + 1 }) := by
  cases x with
  | ud => exact ⟨_, rfl, .inl rfl⟩
  | nm => exact ⟨_, rfl, .inl rfl⟩
  | ss => exact ⟨_, rfl, .inl rfl⟩
  | gp => exact ⟨_, rfl, .inl rfl⟩
  | pf code a => exact ⟨_, rfl, .inr (.inl ⟨code, a, rfl, rfl⟩)⟩
  | simd raised =>
    simp only [raise]
    split
    · rename_i h
      exact ⟨_, rfl, .inr (.inr ⟨raised, rfl, h, rfl⟩)⟩
    · exact ⟨_, rfl, .inl rfl⟩

/-- Raising an exception is a fault whose state differs from the state before in `CR2`, the flags of `MXCSR` and the
model's own counter of draws, at most. -/
theorem raise_after (x : Exception) (s : State) :
    ∃ f : Fault, raise x s = .fault f ∧ ∃ (c : Quad) (g : BitVec 6) (d : Nat),
      f.after = { s with cr2 := c, mxcsr := orFlags s.mxcsr g, draws := d } := by
  have h0 : orFlags s.mxcsr 0#6 = s.mxcsr := by simp [orFlags]
  cases x with
  | ud => exact ⟨_, rfl, s.cr2, 0#6, s.draws, by simp [Fault.after, h0]⟩
  | nm => exact ⟨_, rfl, s.cr2, 0#6, s.draws, by simp [Fault.after, h0]⟩
  | ss => exact ⟨_, rfl, s.cr2, 0#6, s.draws, by simp [Fault.after, h0]⟩
  | gp => exact ⟨_, rfl, s.cr2, 0#6, s.draws, by simp [Fault.after, h0]⟩
  | pf code a => exact ⟨_, rfl, a, 0#6, s.draws, by simp [Fault.after, h0]⟩
  | simd raised =>
    simp only [raise]
    split
    · exact ⟨_, rfl, s.cr2, drawFlags s.mxcsr raised (Config.simdFaultFlags s.draws), s.draws + 1, rfl⟩
    · exact ⟨_, rfl, s.cr2, 0#6, s.draws, by simp [Fault.after, h0]⟩

end Sys2Proof.Machine
end

