-- ==== Sys2Proof/Laws/Vector.lean ====
section
/-! SUPPORT. Laws/Vector.lean: the elements of a packed vector (00_scope.md rule R8). -/

namespace Sys2Proof.Machine

theorem getLsbD_element (v : Vec) (j i : Nat) : (element v j).getLsbD i = (decide (i < 64) && v.getLsbD (64 * j + i)) := by
  simp [element]

/-- Two vectors with equal elements are equal. -/
theorem vec_ext (v w : Vec) (h : ∀ j, j < 8 → element v j = element w j) : v = w := by
  apply BitVec.eq_of_getLsbD_eq
  intro i hi
  have h1 := congrArg (fun q : Quad => q.getLsbD (i % 64)) (h (i / 64) (by omega))
  have h2 : 64 * (i / 64) + i % 64 = i := by omega
  have h3 : i % 64 < 64 := Nat.mod_lt i (by omega)
  simp only [getLsbD_element, h3, decide_true, Bool.true_and, h2] at h1
  exact h1

/-- Element `j` of a packed list: its entry, or zero above the list. -/
theorem element_packElements (l : List Quad) (j : Nat) (h : j < 8) : element (packElements l) j = l.getD j 0 := by
  induction l generalizing j with
  | nil =>
    apply BitVec.eq_of_getLsbD_eq
    intro i hi
    simp [getLsbD_element, packElements]
  | cons e rest ih =>
    apply BitVec.eq_of_getLsbD_eq
    intro i hi
    cases j with
    | zero =>
      have h2 : 64 * 0 + i = i := by omega
      simp only [getLsbD_element, packElements, BitVec.getLsbD_or, BitVec.getLsbD_shiftLeft, BitVec.getLsbD_setWidth, hi,
        decide_true, Bool.true_and, h2, Bool.not_true, Bool.and_false, Bool.false_and, Bool.false_or, List.getD_cons_zero]
      simp only [show i < 512 by omega, decide_true, Bool.true_and]
    | succ j =>
      have h1 : ¬ 64 * (j + 1) + i < 64 := by omega
      have h2 : 64 * (j + 1) + i - 64 = 64 * j + i := by omega
      have h3 := congrArg (fun q : Quad => q.getLsbD i) (ih j (by omega))
      simp only [getLsbD_element, hi, decide_true, Bool.true_and] at h3
      have h4 : e.getLsbD (64 * (j + 1) + i) = false := BitVec.getLsbD_of_ge _ _ (by omega)
      have h5 : 64 * (j + 1) + i < 512 := by omega
      simp only [getLsbD_element, packElements, BitVec.getLsbD_or, BitVec.getLsbD_shiftLeft, BitVec.getLsbD_setWidth, hi,
        decide_true, Bool.true_and, h1, h2, h4, h5, decide_false, Bool.not_false, Bool.and_false, Bool.or_false,
        List.getD_cons_succ]
      exact h3

/-- Element `j` of the vector packed from a function. -/
theorem element_pack_range (f : Nat → Quad) (n j : Nat) (hj : j < 8) :
    element (packElements ((List.range n).map f)) j = if j < n then f j else 0 := by
  rw [element_packElements _ _ hj, List.getD_eq_getElem?_getD, List.getElem?_map]
  by_cases h : j < n
  · simp [h]
  · simp [h]

end Sys2Proof.Machine
end

