-- ==== Sys2Proof/Laws/Execute.lean ====
section
/-! SUPPORT. Laws/Execute.lean: what each shared operation of an instruction can answer, said once: reading the third
source operand, the last steps, the two kinds of form, and exec as one of the two. -/

namespace Sys2Proof.Machine

/-! ## Reading the third source operand -/

/-- A read goes through exactly where every one of its bytes can be read. -/
theorem readStop_none (s : State) (l : Location) (f : Exception) (bytes : List Nat) :
    s.readStop l f bytes = none ↔ ∀ i ∈ bytes, s.byteReadable l i = true := by
  unfold State.readStop State.byteReadable
  constructor
  · intro h i hi
    split at h
    · simp at h
    · rename_i hl
      split at h
      · simp at h
      · rename_i hp
        split at h
        · simp at h
        · rename_i hd
          simp only [List.any_eq_true, not_exists, not_and, Bool.not_eq_true] at hl hd
          have hpi := List.findSome?_eq_none_iff.mp hp i hi
          have hli := hl i hi
          have hdi := hd i hi
          simp_all
  · intro h
    have hl : (bytes.any fun i => !s.byteLegal l i) = false := by
      rw [List.any_eq_false]
      intro i hi
      have := h i hi
      simp only [Bool.and_eq_true] at this
      simp [this.1.1]
    have hp : bytes.findSome? (s.bytePageFault l) = none := by
      rw [List.findSome?_eq_none_iff]
      intro i hi
      have := h i hi
      simp only [Bool.and_eq_true, Option.isNone_iff_eq_none] at this
      exact this.1.2
    have hd : bytes.any (s.byteDevice l) = false := by
      simp only [List.any_eq_false, Bool.not_eq_true]
      intro i hi
      have := h i hi
      simp only [Bool.and_eq_true, Bool.not_eq_true'] at this
      exact this.2
    simp [hl, hp, hd]

/-- What stops a read: the segment exception, a page fault of one of its bytes, or memory whose reads have side effects. -/
theorem readStop_some (s : State) (l : Location) (f : Exception) (bytes : List Nat) (r : Result)
    (h : s.readStop l f bytes = some r) :
    r = raise f s ∨ (∃ code a, r = raise (.pf code a) s) ∨ r = .refused .readSideEffects := by
  unfold State.readStop at h
  split at h
  · exact .inl (Option.some.inj h).symm
  · split at h
    · rename_i x hx
      obtain ⟨i, _, hi⟩ := List.exists_of_findSome?_eq_some hx
      unfold State.bytePageFault at hi
      split at hi
      · rename_i code _
        exact .inr (.inl ⟨code, _, by rw [← Option.some.inj h, ← Option.some.inj hi]⟩)
      · simp at hi
      · simp at hi
    · split at h
      · exact .inr (.inr (Option.some.inj h).symm)
      · simp at h

theorem readStop_ne_next (s t : State) (l : Location) (f : Exception) (bytes : List Nat) :
    s.readStop l f bytes ≠ some (.next t) := by
  intro h
  rcases readStop_some s l f bytes _ h with h1 | ⟨_, _, h1⟩ | h1
  · exact raise_ne_next _ _ _ h1.symm
  · exact raise_ne_next _ _ _ h1.symm
  · simp at h1

/-- What can end a step while `SRC3` is read. -/
theorem readVexSource_stops (s : State) (vl : VecLen) (o : VexOperands) (r : Result) (h : s.readVexSource vl o = .stops r) :
    (∃ x, r = raise x s) ∨ r = .refused .readSideEffects := by
  unfold State.readVexSource at h
  split at h
  · simp at h
  · unfold State.readWhole at h
    split at h
    · rename_i r' hr
      obtain rfl : r' = r := by simpa using h
      rcases readStop_some _ _ _ _ _ hr with h1 | ⟨_, _, h1⟩ | h1
      · exact .inl ⟨_, h1⟩
      · exact .inl ⟨_, h1⟩
      · exact .inr h1
    · simp at h

theorem readEvexSource_stops (s : State) (vl : VecLen) (o : EvexOperands EvexRm512) (r : Result)
    (h : s.readEvexSource vl o = .stops r) : (∃ x, r = raise x s) ∨ r = .refused .readSideEffects := by
  have key : ∀ l f bytes, s.readStop l f bytes = some r → (∃ x, r = raise x s) ∨ r = .refused .readSideEffects := by
    intro l f bytes hr
    rcases readStop_some _ _ _ _ _ hr with h1 | ⟨_, _, h1⟩ | h1
    · exact .inl ⟨_, h1⟩
    · exact .inl ⟨_, h1⟩
    · exact .inr h1
  unfold State.readEvexSource at h
  split at h
  · simp at h
  · simp at h
  · unfold State.readWhole at h
    split at h
    · rename_i r' hr
      obtain rfl : r' = r := by simpa using h
      exact key _ _ _ hr
    · simp at h
  · unfold State.readBroadcast at h
    split at h
    · rename_i r' hr
      obtain rfl : r' = r := by simpa using h
      exact key _ _ _ hr
    · simp at h

/-! ## The last steps -/

/-- What the last steps answer: a SIMD floating-point exception, or the completed state. -/
theorem complete_cases (vl : VecLen) (c : Controls) (active : Nat → Bool) (dest : EvexReg) (d : Vec)
    (elem : Nat → FmaResult) (len : Nat) (s : State) (r : Result) (h : complete vl c active dest d elem len s = r) :
    (c.sae = false ∧ anyTraps s.mxcsr ((activeElements vl active).map elem) = true ∧
      r = raise (.simd (raisedFlags s.mxcsr ((activeElements vl active).map elem))) s) ∨
    ((c.sae = true ∨ anyTraps s.mxcsr ((activeElements vl active).map elem) = false) ∧
      r = .next { s.setVec dest (packElements ((List.range vl.elements).map (newElement c active d elem))) with
        mxcsr := if c.sae then s.mxcsr else orFlags s.mxcsr (unionFlags ((activeElements vl active).map elem))
        rip   := s.nextRip len }) := by
  unfold complete at h
  simp only at h
  split at h
  · rename_i ht
    simp only [Bool.and_eq_true, Bool.not_eq_true'] at ht
    exact .inl ⟨ht.1, ht.2, h.symm⟩
  · rename_i ht
    refine .inr ⟨?_, h.symm⟩
    cases hs : c.sae <;> simp_all

/-! ## The two kinds of form -/

/-- Everything a VEX form can answer. -/
theorem executeVex_cases (form : FmaForm) (vl : VecLen) (o : VexOperands) (s : State) (r : Result)
    (h : executeVex form vl o s = r) :
    ((s.vexDisabled || !s.params.features.fma) = true ∧ r = raise .ud s) ∨
    ((s.vexDisabled || !s.params.features.fma) = false ∧ s.cr0TS = true ∧ r = raise .nm s) ∨
    ((s.vexDisabled || !s.params.features.fma) = false ∧ s.cr0TS = false ∧
      (s.readVexSource vl o = .stops r ∨
        ∃ s3, s.readVexSource vl o = .value s3 ∧
          r = complete vl ⟨mxcsrRounding s.mxcsr, false, false⟩ (fun _ => true) (vexNumber o.dest) (s.vec (vexNumber o.dest))
            (fmaElement form (mxcsrRounding s.mxcsr) (mxcsrDAZ s.mxcsr) (mxcsrFTZ s.mxcsr)
              (s.vec (vexNumber o.dest)) (s.vec (vexNumber o.src2)) s3)
            (vexLength o) s)) := by
  unfold executeVex at h
  split at h
  · rename_i hu
    exact .inl ⟨hu, h.symm⟩
  · rename_i hu
    have hu : (s.vexDisabled || !s.params.features.fma) = false := by simpa using hu
    split at h
    · rename_i hn
      exact .inr (.inl ⟨hu, hn, h.symm⟩)
    · rename_i hn
      have hn : s.cr0TS = false := by simpa using hn
      refine .inr (.inr ⟨hu, hn, ?_⟩)
      split at h
      · rename_i r' hr
        exact .inl (h ▸ hr)
      · rename_i s3 hs3
        exact .inr ⟨s3, hs3, h.symm⟩

/-- Everything an EVEX form can answer. -/
theorem executeEvex_cases (form : FmaForm) (vl : VecLen) (o : EvexOperands EvexRm512) (s : State) (r : Result)
    (h : executeEvex form vl o s = r) :
    ((s.evexDisabled || !s.evexFeatures vl || !maskWellFormed o.aaa o.z) = true ∧ r = raise .ud s) ∨
    ((s.evexDisabled || !s.evexFeatures vl || !maskWellFormed o.aaa o.z) = false ∧ s.cr0TS = true ∧ r = raise .nm s) ∨
    ((s.evexDisabled || !s.evexFeatures vl || !maskWellFormed o.aaa o.z) = false ∧ s.cr0TS = false ∧
      (s.readEvexSource vl o = .stops r ∨
        ∃ s3, s.readEvexSource vl o = .value s3 ∧
          r = complete vl ⟨s.evexRounding o.src3, (embeddedRounding o.src3).isSome, o.z⟩ (s.active o.aaa) o.dest
            (s.vec o.dest)
            (fmaElement form (s.evexRounding o.src3) (mxcsrDAZ s.mxcsr) (mxcsrFTZ s.mxcsr)
              (s.vec o.dest) (s.vec o.src2) s3)
            (evexLength o) s)) := by
  unfold executeEvex at h
  split at h
  · rename_i hu
    exact .inl ⟨hu, h.symm⟩
  · rename_i hu
    have hu : (s.evexDisabled || !s.evexFeatures vl || !maskWellFormed o.aaa o.z) = false := by simpa using hu
    split at h
    · rename_i hn
      exact .inr (.inl ⟨hu, hn, h.symm⟩)
    · rename_i hn
      have hn : s.cr0TS = false := by simpa using hn
      refine .inr (.inr ⟨hu, hn, ?_⟩)
      split at h
      · rename_i r' hr
        exact .inl (h ▸ hr)
      · rename_i s3 hs3
        exact .inr ⟨s3, hs3, h.symm⟩

/-! ## exec -/

/-- Every instruction is a VEX form or an EVEX form, executed by the operation its kind of form shares. -/
theorem exec_view (i : Instr) :
    (∃ o, instrOperands i = .inl o ∧ exec i = executeVex (instrForm i) (instrVecLen i) o ∧ instrLength i = vexLength o ∧
      instrVecLen i ≠ .v512) ∨
    (∃ o, instrOperands i = .inr o ∧ exec i = executeEvex (instrForm i) (instrVecLen i) o ∧
      instrLength i = evexLength o) := by
  cases i with
  | vfmsubadd132pdVex128 o => exact .inl ⟨o, rfl, rfl, rfl, nofun⟩
  | vfmsubadd213pdVex128 o => exact .inl ⟨o, rfl, rfl, rfl, nofun⟩
  | vfmsubadd231pdVex128 o => exact .inl ⟨o, rfl, rfl, rfl, nofun⟩
  | vfmsubadd132pdVex256 o => exact .inl ⟨o, rfl, rfl, rfl, nofun⟩
  | vfmsubadd213pdVex256 o => exact .inl ⟨o, rfl, rfl, rfl, nofun⟩
  | vfmsubadd231pdVex256 o => exact .inl ⟨o, rfl, rfl, rfl, nofun⟩
  | vfmsubadd132pdEvex128 o => exact .inr ⟨widen o, rfl, rfl, rfl⟩
  | vfmsubadd213pdEvex128 o => exact .inr ⟨widen o, rfl, rfl, rfl⟩
  | vfmsubadd231pdEvex128 o => exact .inr ⟨widen o, rfl, rfl, rfl⟩
  | vfmsubadd132pdEvex256 o => exact .inr ⟨widen o, rfl, rfl, rfl⟩
  | vfmsubadd213pdEvex256 o => exact .inr ⟨widen o, rfl, rfl, rfl⟩
  | vfmsubadd231pdEvex256 o => exact .inr ⟨widen o, rfl, rfl, rfl⟩
  | vfmsubadd132pdEvex512 o => exact .inr ⟨o, rfl, rfl, rfl⟩
  | vfmsubadd213pdEvex512 o => exact .inr ⟨o, rfl, rfl, rfl⟩
  | vfmsubadd231pdEvex512 o => exact .inr ⟨o, rfl, rfl, rfl⟩

/-- Everything an instruction can answer: an exception that the shared operation raises, the refusal of a device read, or
the completed state: the destination with zeros above the vector length, the flags by OR, and the program counter. -/
theorem exec_cases (i : Instr) (s : State) (r : Result) (h : exec i s = r) :
    (∃ x, r = raise x s) ∨ r = .refused .readSideEffects ∨
    ∃ (f : Nat → Quad) (g : BitVec 6),
      r = .next { s.setVec (instrDest i) (packElements ((List.range (instrVecLen i).elements).map f)) with
        mxcsr := orFlags s.mxcsr g
        rip   := s.nextRip (instrLength i) } := by
  have h0 : orFlags s.mxcsr 0#6 = s.mxcsr := by simp [orFlags]
  rcases exec_view i with ⟨o, ho, he, hl, _⟩ | ⟨o, ho, he, hl⟩
  · rw [he] at h
    have hd : instrDest i = vexNumber o.dest := by simp only [instrDest, ho]
    rw [hd, hl]
    rcases executeVex_cases _ _ o s r h with ⟨_, h1⟩ | ⟨_, _, h1⟩ | ⟨_, _, h1 | ⟨s3, _, h1⟩⟩
    · exact .inl ⟨_, h1⟩
    · exact .inl ⟨_, h1⟩
    · exact (readVexSource_stops s _ o r h1).imp id .inl
    · rcases complete_cases _ _ _ _ _ _ _ _ _ h1.symm with ⟨_, _, h2⟩ | ⟨_, h2⟩
      · exact .inl ⟨_, h2⟩
      · exact .inr (.inr ⟨_, _, h2⟩)
  · rw [he] at h
    have hd : instrDest i = o.dest := by simp only [instrDest, ho]
    rw [hd, hl]
    rcases executeEvex_cases _ _ o s r h with ⟨_, h1⟩ | ⟨_, _, h1⟩ | ⟨_, _, h1 | ⟨s3, _, h1⟩⟩
    · exact .inl ⟨_, h1⟩
    · exact .inl ⟨_, h1⟩
    · exact (readEvexSource_stops s _ o r h1).imp id .inl
    · rcases complete_cases _ _ _ _ _ _ _ _ _ h1.symm with ⟨_, _, h2⟩ | ⟨_, h2⟩
      · exact .inl ⟨_, h2⟩
      · cases hs : (embeddedRounding o.src3).isSome
        · simp only [hs, Bool.false_eq_true, if_false] at h2
          exact .inr (.inr ⟨_, _, h2⟩)
        · simp only [hs, if_true] at h2
          exact .inr (.inr ⟨_, 0#6, by rw [h0]; exact h2⟩)

end Sys2Proof.Machine
end

