-- ==== Sys2Proof/Laws/FmaElem.lean ====
section
/-! SUPPORT. Laws/FmaElem.lean: what rounding a magnitude can answer (40_fma_element.md rule R90), and how the classes of a
value behave under rules R83 and R85. -/

namespace Sys2Proof.Machine

/-- A multiple of the unit is kept. -/
theorem roundTo_multiple (rc : RoundingMode) (negative : Bool) (m q : Nat) (h : m % q = 0) : roundTo rc negative m q = m := by
  have h1 : m = m / q * q := by
    have h2 := Nat.div_add_mod m q
    rw [h, Nat.add_zero, Nat.mul_comm] at h2
    exact h2.symm
  simp only [roundTo]
  rw [if_pos h1]

/-- Rounding answers one of the two multiples of the unit around the magnitude. -/
theorem roundTo_cases (rc : RoundingMode) (negative : Bool) (m q : Nat) :
    (m % q = 0 ∧ roundTo rc negative m q = m) ∨
    (m % q ≠ 0 ∧ (roundTo rc negative m q = m / q * q ∨ roundTo rc negative m q = m / q * q + q)) := by
  by_cases h : m % q = 0
  · exact .inl ⟨h, roundTo_multiple rc negative m q h⟩
  · refine .inr ⟨h, ?_⟩
    have h1 : m ≠ m / q * q := by
      intro h2
      have h3 := Nat.div_add_mod m q
      rw [Nat.mul_comm] at h3
      omega
    simp only [roundTo]
    rw [if_neg h1]
    cases rc with
    | nearest =>
      simp only
      split
      · exact .inl rfl
      · split
        · exact .inr rfl
        · split
          · exact .inl rfl
          · exact .inr rfl
    | down => cases negative <;> simp
    | up => cases negative <;> simp
    | zero => exact .inl rfl

/-- Truncation does not raise a magnitude. -/
theorem roundTo_zero_le (negative : Bool) (m q : Nat) : roundTo .zero negative m q ≤ m := by
  have h := Nat.div_mul_le_self m q
  simp only [roundTo]
  split
  · exact Nat.le_refl m
  · exact h

/-! ## Classes -/

/-- A NaN is not a denormal, so that rule R83 keeps it. -/
theorem isDenormal_of_isNaN (x : Quad) (h : isNaN x = true) : isDenormal x = false := by
  simp only [isNaN, Bool.and_eq_true, beq_iff_eq] at h
  simp [isDenormal, h.1]

theorem conditionInput_of_isNaN (daz : Bool) (x : Quad) (h : isNaN x = true) : conditionInput daz x = x := by
  simp [conditionInput, isDenormal_of_isNaN x h]

/-- Rule R83 makes no NaN and loses none. -/
@[simp] theorem isNaN_conditionInput (daz : Bool) (x : Quad) : isNaN (conditionInput daz x) = isNaN x := by
  unfold conditionInput
  split
  · rename_i h
    simp only [Bool.and_eq_true, isDenormal, beq_iff_eq] at h
    have h1 : isNaN x = false := by simp [isNaN, h.2.1]
    rw [h1]
    cases dblSign x <;> decide
  · rfl

@[simp] theorem conditionInput_false (x : Quad) : conditionInput false x = x := by simp [conditionInput]

end Sys2Proof.Machine
end

