-- ==== Sys2Proof/Laws/Memory.lean ====
section
/-! SUPPORT. Laws/Memory.lean: the memory operations read what was written, leave other bytes alone and keep the canonical
form, and in that form equal contents are equal data. -/

namespace Sys2Proof.Machine

theorem cellsRead_below (l : List Host.Cell) (low i : Nat) (h : cellsWf low l = true) (hi : i < low) :
    cellsRead l i = Config.unlistedByte := by
  induction l generalizing low with
  | nil => rfl
  | cons c rest ih =>
    obtain ⟨a, b⟩ := c
    simp only [cellsWf, Bool.and_eq_true, decide_eq_true_eq] at h
    have hne : i ≠ a := by omega
    simp only [cellsRead, hne, if_false]
    exact ih (a + 1) h.2 (by omega)

theorem cellsRead_cellsWrite_same (l : List Host.Cell) (low i : Nat) (v : Byte) (h : cellsWf low l = true) :
    cellsRead (cellsWrite l i v) i = v := by
  induction l generalizing low with
  | nil => simp only [cellsWrite]; split <;> simp_all [cellsRead]
  | cons c rest ih =>
    obtain ⟨a, b⟩ := c
    have h' := h
    simp only [cellsWf, Bool.and_eq_true, decide_eq_true_eq] at h
    simp only [cellsWrite]
    split
    · rename_i hlt
      split
      · rename_i hv
        have hne : i ≠ a := by omega
        simp only [cellsRead, hne, if_false]
        rw [hv]; exact cellsRead_below rest (a + 1) i h.2 (by omega)
      · simp [cellsRead]
    · split
      · rename_i hia
        split
        · rename_i hv
          rw [hv]; exact cellsRead_below rest (a + 1) i h.2 (by omega)
        · simp [cellsRead]
      · rename_i hia
        simp only [cellsRead, hia, if_false]
        exact ih (a + 1) h.2

theorem cellsRead_cellsWrite_other (l : List Host.Cell) (i j : Nat) (v : Byte) (hij : j ≠ i) :
    cellsRead (cellsWrite l i v) j = cellsRead l j := by
  induction l with
  | nil => simp only [cellsWrite]; split <;> simp [cellsRead, hij]
  | cons c rest ih =>
    obtain ⟨a, b⟩ := c
    simp only [cellsWrite]
    split
    · split <;> simp [cellsRead, hij]
    · split
      · rename_i hia
        split <;> simp [cellsRead, hij, ← hia]
      · simp only [cellsRead, ih]

theorem cellsWrite_wf (l : List Host.Cell) (low i : Nat) (v : Byte) (h : cellsWf low l = true) (hi : low ≤ i) :
    cellsWf low (cellsWrite l i v) = true := by
  induction l generalizing low with
  | nil =>
    simp only [cellsWrite]
    split <;> simp_all [cellsWf]
  | cons c rest ih =>
    obtain ⟨a, b⟩ := c
    have h' := h
    simp only [cellsWf, Bool.and_eq_true, decide_eq_true_eq] at h
    simp only [cellsWrite]
    split
    · split
      · exact h'
      · rename_i hlt hv
        simp only [cellsWf, Bool.and_eq_true, decide_eq_true_eq, bne_iff_ne, ne_eq]
        exact ⟨⟨hi, hv⟩, ⟨⟨by omega, by simpa using h.1.2⟩, h.2⟩⟩
    · split
      · rename_i hia
        have hr : ∀ (l : List Host.Cell) (p q : Nat), cellsWf q l = true → p ≤ q → cellsWf p l = true := by
          intro l p q hq hpq
          cases l with
          | nil => rfl
          | cons c r =>
            simp only [cellsWf, Bool.and_eq_true, decide_eq_true_eq] at hq ⊢
            exact ⟨⟨by omega, hq.1.2⟩, hq.2⟩
        split
        · exact hr rest low (a + 1) h.2 (by omega)
        · rename_i hv
          simp only [cellsWf, Bool.and_eq_true, decide_eq_true_eq, bne_iff_ne, ne_eq]
          exact ⟨⟨hi, hv⟩, hia ▸ h.2⟩
      · simp only [cellsWf, Bool.and_eq_true, decide_eq_true_eq]
        exact ⟨h.1, ih (a + 1) h.2 (by omega)⟩

/-- Reading back what was written. -/
theorem Memory.read_write_same (m : Memory) (a : Quad) (v : Byte) (h : m.wf = true) : (m.write a v).read a = v :=
  cellsRead_cellsWrite_same m.cells 0 a.toNat v h

/-- A write leaves every other byte alone. -/
theorem Memory.read_write_other (m : Memory) (a b : Quad) (v : Byte) (h : b ≠ a) : (m.write a v).read b = m.read b :=
  cellsRead_cellsWrite_other m.cells a.toNat b.toNat v (fun e => h (BitVec.eq_of_toNat_eq e))

/-- A write keeps the canonical form. -/
theorem Memory.write_wf (m : Memory) (a : Quad) (v : Byte) (h : m.wf = true) : (m.write a v).wf = true :=
  cellsWrite_wf m.cells 0 a.toNat v h (Nat.zero_le _)

theorem State.reset_mem_wf : State.reset.mem.wf = true := rfl

/-- In canonical form, memories with equal contents are equal. -/
theorem cells_ext (l k : List Host.Cell) (low : Nat) (hl : cellsWf low l = true) (hk : cellsWf low k = true)
    (h : ∀ i, cellsRead l i = cellsRead k i) : l = k := by
  induction l generalizing k low with
  | nil =>
    cases k with
    | nil => rfl
    | cons c r =>
      obtain ⟨a, b⟩ := c
      simp only [cellsWf, Bool.and_eq_true, bne_iff_ne, ne_eq] at hk
      have := h a
      simp only [cellsRead, if_true] at this
      exact absurd this.symm hk.1.2
  | cons c r ih =>
    obtain ⟨a, b⟩ := c
    simp only [cellsWf, Bool.and_eq_true, bne_iff_ne, ne_eq, decide_eq_true_eq] at hl
    cases k with
    | nil =>
      have := h a
      simp only [cellsRead, if_true] at this
      exact absurd this hl.1.2
    | cons c' r' =>
      obtain ⟨a', b'⟩ := c'
      simp only [cellsWf, Bool.and_eq_true, bne_iff_ne, ne_eq, decide_eq_true_eq] at hk
      have haa : a = a' := by
        rcases Nat.lt_trichotomy a a' with hlt | heq | hgt
        · have h1 := h a
          have hne : a ≠ a' := by omega
          simp only [cellsRead, if_true, hne, if_false] at h1
          rw [cellsRead_below r' (a' + 1) a hk.2 (by omega)] at h1
          exact absurd h1 hl.1.2
        · exact heq
        · have h1 := h a'
          have hne : a' ≠ a := by omega
          simp only [cellsRead, if_true, hne, if_false] at h1
          rw [cellsRead_below r (a + 1) a' hl.2 (by omega)] at h1
          exact absurd h1.symm hk.1.2
      subst haa
      have hb : b = b' := by simpa [cellsRead] using h a
      subst hb
      congr 1
      refine ih r' (a + 1) hl.2 hk.2 fun i => ?_
      by_cases hi : i < a + 1
      · rw [cellsRead_below r _ i hl.2 hi, cellsRead_below r' _ i hk.2 hi]
      · have hne : i ≠ a := by omega
        simpa [cellsRead, hne] using h i

end Sys2Proof.Machine
end

