-- ==== Sys2Proof/Laws/PerInstr.lean ====
section
/-! SUPPORT. Laws/PerInstr.lean: for every instruction, the encoder writes as many bytes as the length that the program
counter advances by (30_encoding.md rule R57, 10_state.md rule R18). -/

namespace Sys2Proof.Laws.EncodedLength

open Machine

def Statement (i : Instr) : Prop := (encode i).length = instrLength i

theorem vfmsubadd132pdVex128 (o : VexOperands) : Statement (.vfmsubadd132pdVex128 o) := length_encodeVex _ _ o

theorem vfmsubadd213pdVex128 (o : VexOperands) : Statement (.vfmsubadd213pdVex128 o) := length_encodeVex _ _ o

theorem vfmsubadd231pdVex128 (o : VexOperands) : Statement (.vfmsubadd231pdVex128 o) := length_encodeVex _ _ o

theorem vfmsubadd132pdVex256 (o : VexOperands) : Statement (.vfmsubadd132pdVex256 o) := length_encodeVex _ _ o

theorem vfmsubadd213pdVex256 (o : VexOperands) : Statement (.vfmsubadd213pdVex256 o) := length_encodeVex _ _ o

theorem vfmsubadd231pdVex256 (o : VexOperands) : Statement (.vfmsubadd231pdVex256 o) := length_encodeVex _ _ o

theorem vfmsubadd132pdEvex128 (o : EvexOperands EvexRm) : Statement (.vfmsubadd132pdEvex128 o) := length_encodeEvex _ _ o

theorem vfmsubadd213pdEvex128 (o : EvexOperands EvexRm) : Statement (.vfmsubadd213pdEvex128 o) := length_encodeEvex _ _ o

theorem vfmsubadd231pdEvex128 (o : EvexOperands EvexRm) : Statement (.vfmsubadd231pdEvex128 o) := length_encodeEvex _ _ o

theorem vfmsubadd132pdEvex256 (o : EvexOperands EvexRm) : Statement (.vfmsubadd132pdEvex256 o) := length_encodeEvex _ _ o

theorem vfmsubadd213pdEvex256 (o : EvexOperands EvexRm) : Statement (.vfmsubadd213pdEvex256 o) := length_encodeEvex _ _ o

theorem vfmsubadd231pdEvex256 (o : EvexOperands EvexRm) : Statement (.vfmsubadd231pdEvex256 o) := length_encodeEvex _ _ o

theorem vfmsubadd132pdEvex512 (o : EvexOperands EvexRm512) : Statement (.vfmsubadd132pdEvex512 o) := length_encodeEvex512 _ o

theorem vfmsubadd213pdEvex512 (o : EvexOperands EvexRm512) : Statement (.vfmsubadd213pdEvex512 o) := length_encodeEvex512 _ o

theorem vfmsubadd231pdEvex512 (o : EvexOperands EvexRm512) : Statement (.vfmsubadd231pdEvex512 o) := length_encodeEvex512 _ o

end Sys2Proof.Laws.EncodedLength
end

