-- ==== Sys2Proof/Laws/State.lean ====
section
/-! SUPPORT. Laws/State.lean: what each update of the state leaves in each field, and the vector registers under a write. -/

namespace Sys2Proof.Machine

variable (s : State) (n : EvexReg) (v : Vec)

@[simp] theorem State.setVec_k : (s.setVec n v).k = s.k := rfl
@[simp] theorem State.setVec_mxcsr : (s.setVec n v).mxcsr = s.mxcsr := rfl
@[simp] theorem State.setVec_rip : (s.setVec n v).rip = s.rip := rfl
@[simp] theorem State.setVec_gpr : (s.setVec n v).gpr = s.gpr := rfl
@[simp] theorem State.setVec_segs : (s.setVec n v).segs = s.segs := rfl
@[simp] theorem State.setVec_rflags : (s.setVec n v).rflags = s.rflags := rfl
@[simp] theorem State.setVec_cr0 : (s.setVec n v).cr0 = s.cr0 := rfl
@[simp] theorem State.setVec_cr2 : (s.setVec n v).cr2 = s.cr2 := rfl
@[simp] theorem State.setVec_cr4 : (s.setVec n v).cr4 = s.cr4 := rfl
@[simp] theorem State.setVec_xcr0 : (s.setVec n v).xcr0 = s.xcr0 := rfl
@[simp] theorem State.setVec_cpl : (s.setVec n v).cpl = s.cpl := rfl
@[simp] theorem State.setVec_mode : (s.setVec n v).mode = s.mode := rfl
@[simp] theorem State.setVec_code16 : (s.setVec n v).code16 = s.code16 := rfl
@[simp] theorem State.setVec_params : (s.setVec n v).params = s.params := rfl
@[simp] theorem State.setVec_mem : (s.setVec n v).mem = s.mem := rfl
@[simp] theorem State.setVec_draws : (s.setVec n v).draws = s.draws := rfl
@[simp] theorem State.setVec_zmm : (s.setVec n v).zmm = s.zmm.set n.toNat v n.isLt := rfl

/-- The register written. -/
@[simp] theorem State.vec_setVec_same : (s.setVec n v).vec n = v := by
  simp [State.vec]

/-- Every other register. -/
theorem State.vec_setVec_other (m : EvexReg) (h : m ≠ n) : (s.setVec n v).vec m = s.vec m := by
  have : n.toNat ≠ m.toNat := fun e => h (BitVec.eq_of_toNat_eq e.symm)
  simp only [State.vec, State.setVec_zmm]
  exact Vector.getElem_set_ne _ _ this

@[simp] theorem State.enable_zmm : s.enable.zmm = s.zmm := rfl
@[simp] theorem State.enable_k : s.enable.k = s.k := rfl
@[simp] theorem State.enable_mxcsr : s.enable.mxcsr = s.mxcsr := rfl
@[simp] theorem State.enable_rip : s.enable.rip = s.rip := rfl
@[simp] theorem State.enable_gpr : s.enable.gpr = s.gpr := rfl
@[simp] theorem State.enable_segs : s.enable.segs = s.segs := rfl
@[simp] theorem State.enable_cr2 : s.enable.cr2 = s.cr2 := rfl
@[simp] theorem State.enable_cpl : s.enable.cpl = s.cpl := rfl
@[simp] theorem State.enable_mode : s.enable.mode = .long64 := rfl
@[simp] theorem State.enable_code16 : s.enable.code16 = s.code16 := rfl
@[simp] theorem State.enable_params : s.enable.params = s.params := rfl
@[simp] theorem State.enable_mem : s.enable.mem = s.mem := rfl
@[simp] theorem State.enable_draws : s.enable.draws = s.draws := rfl

end Sys2Proof.Machine
end

