-- ==== Sys2Proof/Laws/Source.lean ====
section
/-! SUPPORT. Laws/Source.lean: the third source operand that a form reads is the one Safety.lean names, element by element,
and reading it goes through exactly where every byte that is read can be read. -/

namespace Sys2Proof.Machine

theorem mem_quadBytes (starts : List Nat) (b : Nat) : b ∈ quadBytes starts ↔ ∃ i ∈ starts, ∃ k, k < 8 ∧ b = i + k := by
  simp only [quadBytes, List.mem_flatMap, List.mem_map, List.mem_range]
  constructor
  · rintro ⟨i, hi, k, hk, rfl⟩
    exact ⟨i, hi, k, hk, rfl⟩
  · rintro ⟨i, hi, k, hk, rfl⟩
    exact ⟨i, hi, k, hk, rfl⟩

theorem mem_activeElements (vl : VecLen) (active : Nat → Bool) (j : Nat) :
    j ∈ activeElements vl active ↔ j < vl.elements ∧ active j = true := by
  simp [activeElements]

theorem elements_le (vl : VecLen) : vl.elements ≤ 8 := by cases vl <;> decide

theorem elements_pos (vl : VecLen) : 0 < vl.elements := by cases vl <;> decide

/-- A whole memory operand: the bytes read are those of the active elements. -/
theorem mem_wholeBytes (vl : VecLen) (active : Nat → Bool) (b : Nat) :
    b ∈ quadBytes ((activeElements vl active).map (8 * ·)) ↔ b < vl.bytes ∧ active (b / 8) = true := by
  simp only [mem_quadBytes, List.mem_map, mem_activeElements, VecLen.bytes]
  constructor
  · rintro ⟨_, ⟨j, ⟨hj, ha⟩, rfl⟩, k, hk, rfl⟩
    have h1 : (8 * j + k) / 8 = j := by omega
    exact ⟨by omega, by rw [h1]; exact ha⟩
  · rintro ⟨hb, ha⟩
    exact ⟨8 * (b / 8), ⟨b / 8, ⟨by omega, ha⟩, rfl⟩, b % 8, by omega, by omega⟩

/-- A broadcast operand: the bytes read are the eight of one element, if some element is active. -/
theorem mem_broadcastBytes (vl : VecLen) (active : Nat → Bool) (b : Nat) :
    b ∈ (if (activeElements vl active).isEmpty then [] else quadBytes [0]) ↔
      b < 8 ∧ (List.range vl.elements).any active = true := by
  have hany : (activeElements vl active).isEmpty = !(List.range vl.elements).any active := by
    rw [Bool.eq_iff_iff]
    simp [activeElements]
  rw [hany]
  cases h : (List.range vl.elements).any active
  · simp
  · simp [mem_quadBytes]

theorem quadReadable_iff (s : State) (l : Location) (i : Nat) :
    s.quadReadable l i = true ↔ ∀ k, k < 8 → s.byteReadable l (i + k) = true := by
  simp [State.quadReadable]

/-! ## Values -/

theorem readWhole_value (s : State) (l : Location) (x : Exception) (vl : VecLen) (active : Nat → Bool)
    (h : ∀ j, j < vl.elements → active j = true → s.quadReadable l (8 * j) = true) :
    ∃ v, s.readWhole l x vl active = .value v ∧
      ∀ j, j < vl.elements → active j = true → element v j = s.readQuad l (8 * j) := by
  have hn : s.readStop l x (quadBytes ((activeElements vl active).map (8 * ·))) = none := by
    rw [readStop_none]
    intro b hb
    obtain ⟨hlt, ha⟩ := (mem_wholeBytes vl active b).mp hb
    have h1 := (quadReadable_iff s l _).mp (h (b / 8) (by simp only [VecLen.bytes] at hlt; omega) ha) (b % 8) (by omega)
    have h2 : 8 * (b / 8) + b % 8 = b := by omega
    rwa [h2] at h1
  refine ⟨packElements ((List.range vl.elements).map fun j => if active j then s.readQuad l (8 * j) else 0),
    by simp only [State.readWhole, hn], ?_⟩
  intro j hj ha
  have h8 := elements_le vl
  rw [element_pack_range _ _ _ (by omega), if_pos hj, if_pos ha]

theorem readBroadcast_value (s : State) (l : Location) (x : Exception) (vl : VecLen) (active : Nat → Bool)
    (h : ∀ j, j < vl.elements → active j = true → s.quadReadable l 0 = true) :
    ∃ v, s.readBroadcast l x vl active = .value v ∧ ∀ j, j < vl.elements → element v j = s.readQuad l 0 := by
  have hn : s.readStop l x (if (activeElements vl active).isEmpty then [] else quadBytes [0]) = none := by
    rw [readStop_none]
    intro b hb
    obtain ⟨hlt, ha⟩ := (mem_broadcastBytes vl active b).mp hb
    obtain ⟨j, hj, ha⟩ := List.any_eq_true.mp ha
    have h1 := (quadReadable_iff s l _).mp (h j (List.mem_range.mp hj) ha) b hlt
    rwa [Nat.zero_add] at h1
  refine ⟨packElements ((List.range vl.elements).map fun _ => s.readQuad l 0), by simp only [State.readBroadcast, hn], ?_⟩
  intro j hj
  have h8 := elements_le vl
  rw [element_pack_range _ _ _ (by omega), if_pos hj]

/-- A VEX form whose operand can be read reads the elements `State.vexSource` names. -/
theorem readVexSource_value (s : State) (vl : VecLen) (o : VexOperands) (h : s.vexReadable vl o = true) :
    ∃ v, s.readVexSource vl o = .value v ∧ ∀ j, j < vl.elements → element v j = s.vexSource o j := by
  unfold State.readVexSource State.vexSource
  cases hs : o.src3 with
  | reg n => exact ⟨_, rfl, fun _ _ => rfl⟩
  | mem a =>
    simp only [State.vexReadable, hs, List.all_eq_true, List.mem_range] at h
    obtain ⟨v, hv, he⟩ := readWhole_value s (s.vexLocation o a) (s.segmentFault o.pre a) vl (fun _ => true)
      fun j hj _ => h j hj
    exact ⟨v, hv, fun j hj => he j hj rfl⟩

/-- An EVEX form whose operand can be read reads the elements `State.evexSource` names, where they are active. -/
theorem readEvexSource_value (s : State) (vl : VecLen) (o : EvexOperands EvexRm512) (h : s.evexReadable vl o = true) :
    ∃ v, s.readEvexSource vl o = .value v ∧
      ∀ j, j < vl.elements → s.active o.aaa j = true → element v j = s.evexSource vl o j := by
  unfold State.readEvexSource State.evexSource
  cases hs : o.src3 with
  | reg n => exact ⟨_, rfl, fun _ _ _ => rfl⟩
  | regRounded n rc => exact ⟨_, rfl, fun _ _ _ => rfl⟩
  | mem a =>
    simp only [State.evexReadable, hs, List.all_eq_true, List.mem_range, Bool.or_eq_true, Bool.not_eq_true'] at h
    exact readWhole_value s (s.evexLocation vl.bytes o a) (s.segmentFault o.pre a) vl (s.active o.aaa) fun j hj ha =>
      (h j hj).resolve_left (by simp [ha])
  | bcast a =>
    simp only [State.evexReadable, hs, List.all_eq_true, List.mem_range, Bool.or_eq_true, Bool.not_eq_true'] at h
    obtain ⟨v, hv, he⟩ := readBroadcast_value s (s.evexLocation 8 o a) (s.segmentFault o.pre a) vl (s.active o.aaa)
      fun j hj ha => (h j hj).resolve_left (by simp [ha])
    exact ⟨v, hv, fun j hj _ => he j hj⟩

/-- What a VEX form reads can be read. -/
theorem vexReadable_of_value (s : State) (vl : VecLen) (o : VexOperands) (v : Vec) (h : s.readVexSource vl o = .value v) :
    s.vexReadable vl o = true := by
  unfold State.readVexSource at h
  unfold State.vexReadable
  cases hs : o.src3 with
  | reg n => rfl
  | mem a =>
    simp only [hs, State.readWhole] at h
    split at h
    · simp at h
    · rename_i hn
      rw [readStop_none] at hn
      simp only [List.all_eq_true, List.mem_range, quadReadable_iff]
      intro j hj k hk
      exact hn _ ((mem_wholeBytes vl _ _).mpr ⟨by simp only [VecLen.bytes]; omega, rfl⟩)

/-- What an EVEX form reads can be read. -/
theorem evexReadable_of_value (s : State) (vl : VecLen) (o : EvexOperands EvexRm512) (v : Vec)
    (h : s.readEvexSource vl o = .value v) : s.evexReadable vl o = true := by
  unfold State.readEvexSource at h
  unfold State.evexReadable
  cases hs : o.src3 with
  | reg n => rfl
  | regRounded n rc => rfl
  | mem a =>
    simp only [hs, State.readWhole] at h
    split at h
    · simp at h
    · rename_i hn
      rw [readStop_none] at hn
      simp only [List.all_eq_true, List.mem_range, Bool.or_eq_true, Bool.not_eq_true', quadReadable_iff]
      intro j hj
      cases ha : s.active o.aaa j
      · exact .inl rfl
      · refine .inr fun k hk => hn _ ((mem_wholeBytes vl _ _).mpr ⟨by simp only [VecLen.bytes]; omega, ?_⟩)
        rwa [show (8 * j + k) / 8 = j by omega]
  | bcast a =>
    simp only [hs, State.readBroadcast] at h
    split at h
    · simp at h
    · rename_i hn
      rw [readStop_none] at hn
      simp only [List.all_eq_true, List.mem_range, Bool.or_eq_true, Bool.not_eq_true', quadReadable_iff]
      intro j hj
      cases ha : s.active o.aaa j
      · exact .inl rfl
      · refine .inr fun k hk => hn _ ((mem_broadcastBytes vl _ _).mpr ⟨by omega, ?_⟩)
        exact List.any_eq_true.mpr ⟨j, List.mem_range.mpr hj, ha⟩

/-! ## Elements -/

/-- Element `j` of a form, from the elements `j` of its operands (40_fma_element.md rule R82). -/
theorem fmaElement_eq_formFma (s : State) (form : FmaForm) (rc : RoundingMode) (d s2 s3 : Vec) (e : Nat → Quad) (j : Nat)
    (h : element s3 j = e j) :
    fmaElement form rc (mxcsrDAZ s.mxcsr) (mxcsrFTZ s.mxcsr) d s2 s3 j = s.formFma form rc (element d) (element s2) e j := by
  cases form <;> simp only [fmaElement, State.formFma, State.fma, h]

/-- The union of flags over the active elements, as `flagsBelow` has it. -/
theorem unionFlags_eq_flagsBelow (vl : VecLen) (active : Nat → Bool) (e e' : Nat → FmaResult)
    (h : ∀ j, j < vl.elements → active j = true → e j = e' j) :
    unionFlags ((activeElements vl active).map e) = flagsBelow vl.elements active e' := by
  have hcong : (activeElements vl active).map e = (activeElements vl active).map e' :=
    List.map_congr_left fun j hj => h j ((mem_activeElements vl active j).mp hj).1 ((mem_activeElements vl active j).mp hj).2
  rw [hcong]
  have gen : ∀ (l : List Nat) (f : BitVec 6),
      ((l.filter active).map e').foldl (fun f r => f ||| r.flags) f =
        l.foldl (fun f j => if active j then f ||| (e' j).flags else f) f := by
    intro l
    induction l with
    | nil => intro f; rfl
    | cons j rest ih =>
      intro f
      cases ha : active j
      · simp only [List.filter_cons, ha, Bool.false_eq_true, if_false, List.foldl_cons, ih]
      · simp only [List.filter_cons, ha, if_true, List.map_cons, List.foldl_cons, ih]
  exact gen _ _

/-- Some active element traps, as a statement about the elements. -/
theorem anyTraps_iff (s : State) (vl : VecLen) (active : Nat → Bool) (e e' : Nat → FmaResult)
    (h : ∀ j, j < vl.elements → active j = true → e j = e' j) :
    anyTraps s.mxcsr ((activeElements vl active).map e) = true ↔
      ∃ j, j < vl.elements ∧ active j = true ∧ s.traps (e' j) = true := by
  simp only [anyTraps, List.any_eq_true, List.mem_map, mem_activeElements]
  constructor
  · rintro ⟨_, ⟨j, ⟨hj, ha⟩, rfl⟩, ht⟩
    exact ⟨j, hj, ha, by rw [← h j hj ha]; exact ht⟩
  · rintro ⟨j, hj, ha, ht⟩
    exact ⟨_, ⟨j, ⟨hj, ha⟩, rfl⟩, by rw [h j hj ha]; exact ht⟩

/-- The completed state of the last steps: the elements of the destination, and zeros above the vector length. -/
theorem element_newElement (vl : VecLen) (c : Controls) (active : Nat → Bool) (d : Vec) (e : Nat → FmaResult) (j : Nat) :
    (j < vl.elements → element (packElements ((List.range vl.elements).map (newElement c active d e))) j =
      if active j then (e j).result else if c.zeroing then 0 else element d j) ∧
    (vl.elements ≤ j → j < 8 →
      element (packElements ((List.range vl.elements).map (newElement c active d e))) j = 0) := by
  have h8 := elements_le vl
  constructor
  · intro hj
    rw [element_pack_range _ _ _ (by omega), if_pos hj]
    rfl
  · intro hj hj8
    rw [element_pack_range _ _ _ hj8, if_neg (by omega)]

end Sys2Proof.Machine
end

