-- ==== Sys2Proof/Laws/Step.lean ====
section
/-! SUPPORT. Laws/Step.lean: what one step can answer. -/

namespace Sys2Proof.Machine

/-- Bytes are fetched in order from byte `i` on, where `n` is enough for them and each can be fetched. -/
theorem prefix_fetchUpTo (s : State) (bytes : List Byte) (n i : Nat) (hn : bytes.length ≤ n)
    (h : ∀ k, k < bytes.length → s.fetchByte (i + k) = bytes[k]?) : bytes <+: s.fetchUpTo n i := by
  induction bytes generalizing n i with
  | nil => exact List.nil_prefix
  | cons b rest ih =>
    obtain ⟨m, rfl⟩ : ∃ m, n = m + 1 := ⟨n - 1, by simp only [List.length_cons] at hn; omega⟩
    have hb : s.fetchByte i = some b := by simpa using h 0 (by simp)
    unfold State.fetchUpTo
    rw [hb]
    refine List.cons_prefix_cons.mpr ⟨rfl, ih m (i + 1) (by simpa using hn) fun k hk => ?_⟩
    have := h (k + 1) (by simpa using hk)
    rw [show i + 1 + k = i + (k + 1) by omega, this]
    simp

/-- The same with the prefixes passed over, for at most fifteen bytes. -/
theorem prefix_fetchFrom (s : State) (bytes : List Byte) (n i : Nat) (hn : bytes.length ≤ n)
    (hm : bytes.length ≤ maxLength) (h : ∀ k, k < bytes.length → s.fetchByte (i + k) = bytes[k]?) :
    bytes <+: s.fetchFrom n i := by
  induction bytes generalizing n i with
  | nil => exact List.nil_prefix
  | cons b rest ih =>
    obtain ⟨m, rfl⟩ : ∃ m, n = m + 1 := ⟨n - 1, by simp only [List.length_cons] at hn; omega⟩
    have hb : s.fetchByte i = some b := by simpa using h 0 (by simp)
    have hr : ∀ k, k < rest.length → s.fetchByte (i + 1 + k) = rest[k]? := fun k hk => by
      have := h (k + 1) (by simpa using hk)
      rw [show i + 1 + k = i + (k + 1) by omega, this]
      simp
    have hl : rest.length ≤ maxLength := by simp only [List.length_cons] at hm; omega
    unfold State.fetchFrom
    rw [hb]
    refine List.cons_prefix_cons.mpr ⟨rfl, ?_⟩
    split
    · exact ih m (i + 1) (by simpa using hn) hl hr
    · exact prefix_fetchUpTo s rest maxLength (i + 1) hl hr

/-- At most fifteen bytes stand at the start of what is fetched where each of them can be fetched at its place. -/
theorem prefix_fetch (s : State) (bytes : List Byte) (hn : bytes.length ≤ maxLength)
    (h : ∀ k, k < bytes.length → s.fetchByte k = bytes[k]?) : bytes <+: s.fetch :=
  prefix_fetchFrom s bytes addressSpace 0 (hn.trans (by decide)) hn (by simpa using h)

/-- Byte `i` of the instruction at `pc` in `Long64`. -/
theorem fetchByte_long (s : State) (i : Nat) (p : Quad) (hm : s.decodeMode = .long64)
    (hc : canonical s.params.linearBits (s.rip + BitVec.ofNat 64 i) = true)
    (ht : s.translate .fetch (s.rip + BitVec.ofNat 64 i) = .maps p) : s.fetchByte i = some (s.mem.read p) := by
  simp [State.fetchByte, State.fetchPhysical, State.fetchLinear, hm, hc, ht]

/-- Byte `i` of the instruction at `pc` outside `Long64`, at an offset within the limit of CS. -/
theorem fetchByte_short (s : State) (i : Nat) (p : Quad) (hm : s.decodeMode ≠ .long64)
    (hl : (s.rip + BitVec.ofNat 64 i).setWidth 32 ≤ s.segs.cs.limit)
    (ht : s.translate .fetch (((s.rip + BitVec.ofNat 64 i).setWidth 32 + s.segs.cs.base.setWidth 32).setWidth 64) =
      .maps p) : s.fetchByte i = some (s.mem.read p) := by
  simp [State.fetchByte, State.fetchPhysical, State.fetchLinear, hm, hl, ht]

/-- A step that goes on ran the decoded instruction. -/
theorem step_next (s t : State) (h : step s = .next t) :
    ∃ i, decode s.decodeMode s.fetch = .instr i ∧ exec i s = .next t := by
  unfold step at h
  split at h
  · rename_i i hi
    exact ⟨i, hi, h⟩
  · exact absurd h (raise_ne_next _ _ _)
  · exact absurd h (raise_ne_next _ _ _)
  · simp at h
  · simp at h
  · simp at h
  · simp at h
  · simp at h
  · simp at h

/-- A step ends in an exception that the shared operation raises, in a refusal, or in the completed state of an
instruction. -/
theorem step_cases (s : State) :
    (∃ x, step s = raise x s) ∨ (∃ q, step s = .refused q) ∨
    ∃ i f g, decode s.decodeMode s.fetch = .instr i ∧
      step s = .next { s.setVec (instrDest i) (packElements ((List.range (instrVecLen i).elements).map f)) with
        mxcsr := orFlags s.mxcsr g
        rip   := s.nextRip (instrLength i) } := by
  unfold step
  split
  · rename_i i hi
    rcases exec_cases i s _ rfl with ⟨x, hx⟩ | hr | ⟨f, g, hn⟩
    · exact .inl ⟨x, hx⟩
    · exact .inr (.inl ⟨_, hr⟩)
    · exact .inr (.inr ⟨i, f, g, hi, hn⟩)
  · exact .inl ⟨_, rfl⟩
  · exact .inl ⟨_, rfl⟩
  · exact .inr (.inl ⟨_, rfl⟩)
  · exact .inr (.inl ⟨_, rfl⟩)
  · exact .inr (.inl ⟨_, rfl⟩)
  · exact .inr (.inl ⟨_, rfl⟩)
  · exact .inr (.inl ⟨_, rfl⟩)
  · exact .inr (.inl ⟨_, rfl⟩)

end Sys2Proof.Machine
end

