-- ==== Sys2Proof/Tests/Slice0.lean ====
section
/-! SUPPORT. Tests/Slice0.lean: tests. The expected values are those of 95_test_vectors.md and of the examples of the rules
cited; the bytes of the decode tests are written out from 30_encoding.md. The theorems `witness_…` show that the hypotheses
of the statement they are named after can be met together. -/

namespace Sys2Proof.Tests

/- One theorem after another: elaborated side by side they need more threads than the check allows. -/
set_option Elab.async false

open Sys2Proof Sys2Proof.Machine

/-! ## Ill-formed terms are refused -/

def plain : Prefixes := ⟨none, false⟩

theorem test_wf_base_needs_sib :
    (Instr.vfmsubadd132pdVex128 ⟨plain, 0, 1, .mem (.base 4 .none)⟩).wellFormed = false ∧
    (Instr.vfmsubadd213pdVex128 ⟨plain, 0, 1, .mem (.base 12 (.disp8 0))⟩).wellFormed = false ∧
    (Instr.vfmsubadd231pdVex256 ⟨plain, 0, 1, .mem (.base 4 (.disp32 0))⟩).wellFormed = false := by decide

theorem test_wf_base_needs_displacement :
    (Instr.vfmsubadd132pdVex256 ⟨plain, 0, 1, .mem (.base 5 .none)⟩).wellFormed = false ∧
    (Instr.vfmsubadd132pdEvex128 ⟨plain, 0, 1, 0, false, .bcast (.base 13 .none)⟩).wellFormed = false ∧
    (Instr.vfmsubadd213pdEvex256 ⟨plain, 0, 1, 0, false, .mem (.base 13 .none)⟩).wellFormed = false := by decide

theorem test_wf_sib_base_needs_displacement :
    (Instr.vfmsubadd213pdVex256 ⟨plain, 0, 1, .mem (.sib 0 4 5 .none)⟩).wellFormed = false ∧
    (Instr.vfmsubadd231pdEvex512 ⟨plain, 0, 1, 0, false, .mem (.sib 0 4 13 .none)⟩).wellFormed = false := by decide

theorem test_wf_zeroing_needs_mask :
    (Instr.vfmsubadd132pdEvex128 ⟨plain, 0, 1, 0, true, .reg 2⟩).wellFormed = false ∧
    (Instr.vfmsubadd231pdEvex256 ⟨plain, 0, 1, 0, true, .reg 2⟩).wellFormed = false ∧
    (Instr.vfmsubadd213pdEvex512 ⟨plain, 0, 1, 0, true, .regRounded 2 .up⟩).wellFormed = false := by decide

/-! ## Decoding: one word a row, from the fields of 30_encoding.md rules R46 to R53 -/

/-- rule R79. -/
theorem test_decode_vex128_132 :
    decode .long64 [0xC4, 0xE2, 0xF1, 0x97, 0xC2] =
      .instr (.vfmsubadd132pdVex128 ⟨plain, 0, 1, .reg 2⟩) := by decide

/-- section 3.2: `R` extends `reg`, `vvvv` = 0110 is register 9. -/
theorem test_decode_vex128_213 :
    decode .long64 [0xC4, 0x62, 0xB1, 0xA7, 0xFF] =
      .instr (.vfmsubadd213pdVex128 ⟨plain, 15, 9, .reg 7⟩) := by decide

/-- `B` extends `rm`. -/
theorem test_decode_vex128_231 :
    decode .long64 [0xC4, 0xC2, 0xF1, 0xB7, 0xC0] =
      .instr (.vfmsubadd231pdVex128 ⟨plain, 0, 1, .reg 8⟩) := by decide

/-- `L` = 1. -/
theorem test_decode_vex256_132 :
    decode .long64 [0xC4, 0xE2, 0xF5, 0x97, 0xC2] =
      .instr (.vfmsubadd132pdVex256 ⟨plain, 0, 1, .reg 2⟩) := by decide

/-- a segment override; `mod` = 01, `rm` = 101. -/
theorem test_decode_vex256_213 :
    decode .long64 [0x64, 0xC4, 0xE2, 0xF5, 0xA7, 0x45, 0x00] =
      .instr (.vfmsubadd213pdVex256 ⟨⟨some .fs, false⟩, 0, 1, .mem (.base 5 (.disp8 0))⟩) := by decide

/-- section 3.2: a SIB byte with `X` and `B`. -/
theorem test_decode_vex256_231 :
    decode .long64 [0xC4, 0x82, 0xF5, 0xB7, 0x44, 0xB5, 0xE0] =
      .instr (.vfmsubadd231pdVex256 ⟨plain, 0, 1, .mem (.sib 2 14 13 (.disp8 0xE0))⟩) := by decide

/-- section 3.2: registers from 16 up. -/
theorem test_decode_evex128_132 :
    decode .long64 [0x62, 0xA2, 0xF5, 0x00, 0x97, 0xC2] =
      .instr (.vfmsubadd132pdEvex128 ⟨plain, 16, 17, 0, false, .reg 18⟩) := by decide

/-- rule R117. -/
theorem test_decode_evex128_213 :
    decode .long64 [0x62, 0xF2, 0xF5, 0x09, 0xA7, 0xC2] =
      .instr (.vfmsubadd213pdEvex128 ⟨plain, 0, 1, 1, false, .reg 2⟩) := by decide

/-- rule R118. -/
theorem test_decode_evex128_231 :
    decode .long64 [0x62, 0xF2, 0xF5, 0x89, 0xB7, 0xC2] =
      .instr (.vfmsubadd231pdEvex128 ⟨plain, 0, 1, 1, true, .reg 2⟩) := by decide

/-- section 3.2: `disp32`, least significant byte first. -/
theorem test_decode_evex256_132 :
    decode .long64 [0x62, 0xF2, 0xF5, 0x28, 0x97, 0x80, 0x00, 0xF0, 0xFF, 0xFF] =
      .instr (.vfmsubadd132pdEvex256 ⟨plain, 0, 1, 0, false, .mem (.base 0 (.disp32 0xFFFFF000))⟩) := by decide

/-- rule R120. -/
theorem test_decode_evex256_213 :
    decode .long64 [0x62, 0xF2, 0xF5, 0xA9, 0xA7, 0xC2] =
      .instr (.vfmsubadd213pdEvex256 ⟨plain, 0, 1, 1, true, .reg 2⟩) := by decide

/-- rule R121. -/
theorem test_decode_evex256_231 :
    decode .long64 [0x62, 0xF2, 0xF5, 0x39, 0xB7, 0x00] =
      .instr (.vfmsubadd231pdEvex256 ⟨plain, 0, 1, 1, false, .bcast (.base 0 .none)⟩) := by decide

/-- section 3.2: `L'L` = 11 is the rounding mode. -/
theorem test_decode_evex512_132 :
    decode .long64 [0x62, 0xF2, 0xF5, 0x78, 0x97, 0xC2] =
      .instr (.vfmsubadd132pdEvex512 ⟨plain, 0, 1, 0, false, .regRounded 2 .zero⟩) := by decide

/-- section 3.2: RIP-relative. -/
theorem test_decode_evex512_213 :
    decode .long64 [0x62, 0xF2, 0xF5, 0x48, 0xA7, 0x05, 0x40, 0x00, 0x00, 0x00] =
      .instr (.vfmsubadd213pdEvex512 ⟨plain, 0, 1, 0, false, .mem (.disp32 0x40)⟩) := by decide

/-- rule R79. -/
theorem test_decode_evex512_231 :
    decode .long64 [0x62, 0xF2, 0xED, 0xDA, 0xB7, 0x08] =
      .instr (.vfmsubadd231pdEvex512 ⟨plain, 1, 2, 2, true, .bcast (.base 0 .none)⟩) := by decide

/-- The first bytes of a table word are its low bits, and the bytes above it are 0. -/
theorem test_table_word : decodeTableWord 40 0xC297F1E2C4 = some (.vfmsubadd132pdVex128 ⟨plain, 0, 1, .reg 2⟩) := by decide

/-- Section 3.2: the #UD outcomes of the EVEX bits, and of a prefix before VEX. -/
theorem test_decode_ud :
    [decode .long64 [0x62, 0xF2, 0xF5, 0x88, 0x97, 0xC2], decode .long64 [0x62, 0xF2, 0xF5, 0x68, 0x97, 0xC2],
      decode .long64 [0x62, 0xF2, 0xF5, 0x78, 0x97, 0x00], decode .long64 [0x62, 0xFA, 0xF5, 0x08, 0x97, 0xC2],
      decode .long64 [0x62, 0xF6, 0xF5, 0x08, 0x97, 0xC2], decode .long64 [0x62, 0xF2, 0xF1, 0x08, 0x97, 0xC2],
      decode .long64 [0x48, 0xC4, 0xE2, 0xF1, 0x97, 0xC2]] = List.replicate 7 .ud := by decide

/-- Section 3.2: other instructions. -/
theorem test_decode_neighbours :
    [decode .long64 [0xC4, 0xE2, 0x71, 0x97, 0xC2], decode .long64 [0x62, 0xF2, 0xF5, 0x08, 0x96, 0xC2],
      decode .long64 [0xC4, 0xE2, 0xF0, 0x97, 0xC2], decode .long64 [0xC4, 0xE1, 0xF1, 0x97, 0xC2],
      decode .long64 [0xC5, 0xF1, 0x97, 0xC2]] = List.replicate 5 .notThisGroup := by decide

/-- Rules R61, R68, R69: the refusals; in real-address mode #UD in their place (log entry 30). -/
theorem test_decode_refusals :
    decode .long64 [0x67, 0x67, 0xC4, 0xE2, 0xF1, 0x97, 0x00] = .repeatedPrefix ∧
    decode .real [0x2E, 0x2E, 0xC4, 0xE2, 0xF1, 0x97, 0xC2] = .ud ∧
    decode .legacy32 [0xC4, 0xC2, 0xF1, 0x97, 0xC2] = .extensionBit ∧
    decode .legacy32 [0x67, 0xC4, 0xE2, 0xF1, 0x97, 0x00] = .addressing16 ∧
    decode .legacy16 [0xC4, 0xE2, 0xF1, 0x97, 0x00] = .addressing16 ∧
    decode .legacy32 [0x2E, 0x2E, 0x2E, 0x2E, 0x67, 0x62, 0xF2, 0xF5, 0x08, 0x97, 0x84, 0, 0, 0, 0] = .addressing16 ∧
    decode .legacy32 [0xC4, 0x62, 0xF1, 0x97, 0xC2] = .notThisGroup := by decide

/-! ## One step: the start state of 95_test_vectors.md section 3.1 -/

def vecD : Vec := packElements [0x4000000000000000, 0x4008000000000000, 0x4010000000000000, 0x4014000000000000,
  0x4018000000000000, 0x401C000000000000, 0x4020000000000000, 0x4022000000000000]
def vecS2 : Vec := packElements [0x4024000000000000, 0x4034000000000000, 0x403E000000000000, 0x4044000000000000,
  0x4049000000000000, 0x404E000000000000, 0x4051800000000000, 0x4054000000000000]
def vecS3 : Vec := packElements [0x3FE0000000000000, 0x3FF8000000000000, 0x4000000000000000, 0x4008000000000000,
  0xBFF0000000000000, 0xC000000000000000, 0x3FD0000000000000, 0x4010000000000000]

/-- `ZMM0`, `ZMM1`, `ZMM2`, `k1` and `MXCSR` as given; `RAX` = 1000H, `pc` = 400000H. -/
def start (d s2 s3 : Vec) (k1 : Quad) (m : BitVec 32) : State :=
  { State.reset.enable with
    zmm   := (((Vector.replicate 32 0).set 0 d).set 1 s2).set 2 s3
    k     := (Vector.replicate 8 0).set 1 k1
    mxcsr := m
    rip   := 0x400000
    gpr   := (Vector.replicate 16 0).set 0 0x1000 }

/-- The eight elements of `ZMM0`, `MXCSR` and `pc` after a step that goes on. -/
def seen : Result → Option (List Quad × BitVec 32 × Quad)
  | .next t => some ((List.range 8).map (element (t.vec 0)), t.mxcsr, t.rip)
  | .fault _ => none
  | .refused _ => none

/-- Elements stored in memory from an address on. -/
def storeQuads (m : Memory) (a : Quad) : List Quad → Memory
  | [] => m
  | q :: rest =>
    storeQuads ((List.range 8).foldl (fun m i => m.write (a + BitVec.ofNat 64 i) (q.extractLsb' (8 * i) 8)) m) (a + 8) rest

/-- V3.1. -/
theorem test_step_vex128_132 :
    seen (step (State.storeCode (start vecD vecS2 vecS3 0 0x1F80) 0
        [0xC4, 0xE2, 0xF1, 0x97, 0xC2])) =
      some ([0x4026000000000000, 0xC02F000000000000, 0, 0, 0, 0, 0, 0],
        0x1F80, 0x400005) := by decide +kernel

/-- V3.2. -/
theorem test_step_vex128_213 :
    seen (step (State.storeCode (start vecD vecS2 vecS3 0 0x1F80) 0
        [0xC4, 0xE2, 0xF1, 0xA7, 0xC2])) =
      some ([0x4034800000000000, 0x404D400000000000, 0, 0, 0, 0, 0, 0],
        0x1F80, 0x400005) := by decide +kernel

/-- V3.3. -/
theorem test_step_vex128_231 :
    seen (step (State.storeCode (start vecD vecS2 vecS3 0 0x1F80) 0
        [0xC4, 0xE2, 0xF1, 0xB7, 0xC2])) =
      some ([0x401C000000000000, 0x403B000000000000, 0, 0, 0, 0, 0, 0],
        0x1F80, 0x400005) := by decide +kernel

/-- V3.4. -/
theorem test_step_vex256_132 :
    seen (step (State.storeCode (start vecD vecS2 vecS3 0 0x1F80) 0
        [0xC4, 0xE2, 0xF5, 0x97, 0xC2])) =
      some ([0x4026000000000000, 0xC02F000000000000, 0x4043000000000000, 0xC039000000000000, 0, 0, 0, 0],
        0x1F80, 0x400005) := by decide +kernel

/-- V3.5. -/
theorem test_step_vex256_213 :
    seen (step (State.storeCode (start vecD vecS2 vecS3 0 0x1F80) 0
        [0xC4, 0xE2, 0xF5, 0xA7, 0xC2])) =
      some ([0x4034800000000000, 0x404D400000000000, 0x405E800000000000, 0x4068A00000000000, 0, 0, 0, 0],
        0x1F80, 0x400005) := by decide +kernel

/-- V3.6. -/
theorem test_step_vex256_231 :
    seen (step (State.storeCode (start vecD vecS2 vecS3 0 0x1F80) 0
        [0xC4, 0xE2, 0xF5, 0xB7, 0xC2])) =
      some ([0x401C000000000000, 0x403B000000000000, 0x4050000000000000, 0x405CC00000000000, 0, 0, 0, 0],
        0x1F80, 0x400005) := by decide +kernel

/-- V3.8. -/
theorem test_step_vex256_213_memory :
    seen (step (State.storeCode ({ start vecD vecS2 vecS3 0 0x1F80 with mem := storeQuads ⟨[]⟩ 0x1000 [0x3FE0000000000000, 0x3FF8000000000000, 0x4000000000000000,
        0x4008000000000000] }) 0
        [0xC4, 0xE2, 0xF5, 0xA7, 0x00])) =
      some ([0x4034800000000000, 0x404D400000000000, 0x405E800000000000, 0x4068A00000000000, 0, 0, 0, 0],
        0x1F80, 0x400005) := by decide +kernel

/-- V3.9. -/
theorem test_step_evex128_132 :
    seen (step (State.storeCode (start vecD vecS2 vecS3 0 0x1F80) 0
        [0x62, 0xF2, 0xF5, 0x08, 0x97, 0xC2])) =
      some ([0x4026000000000000, 0xC02F000000000000, 0, 0, 0, 0, 0, 0],
        0x1F80, 0x400006) := by decide +kernel

/-- V3.10. -/
theorem test_step_evex128_213 :
    seen (step (State.storeCode (start vecD vecS2 vecS3 0x02 0x1F80) 0
        [0x62, 0xF2, 0xF5, 0x09, 0xA7, 0xC2])) =
      some ([0x4000000000000000, 0x404D400000000000, 0, 0, 0, 0, 0, 0],
        0x1F80, 0x400006) := by decide +kernel

/-- V3.11. -/
theorem test_step_evex128_231 :
    seen (step (State.storeCode (start vecD vecS2 vecS3 0x01 0x1F80) 0
        [0x62, 0xF2, 0xF5, 0x89, 0xB7, 0xC2])) =
      some ([0x401C000000000000, 0, 0, 0, 0, 0, 0, 0],
        0x1F80, 0x400006) := by decide +kernel

/-- V3.12. -/
theorem test_step_evex256_132 :
    seen (step (State.storeCode (start vecD vecS2 vecS3 0x05 0x1F80) 0
        [0x62, 0xF2, 0xF5, 0x29, 0x97, 0xC2])) =
      some ([0x4026000000000000, 0x4008000000000000, 0x4043000000000000, 0x4014000000000000, 0, 0, 0, 0],
        0x1F80, 0x400006) := by decide +kernel

/-- V3.13. -/
theorem test_step_evex256_213 :
    seen (step (State.storeCode (start vecD vecS2 vecS3 0x0A 0x1F80) 0
        [0x62, 0xF2, 0xF5, 0xA9, 0xA7, 0xC2])) =
      some ([0, 0x404D400000000000, 0, 0x4068A00000000000, 0, 0, 0, 0],
        0x1F80, 0x400006) := by decide +kernel

/-- V3.14. -/
theorem test_step_evex256_231_broadcast :
    seen (step (State.storeCode ({ start vecD vecS2 vecS3 0x0F 0x1F80 with mem := storeQuads ⟨[]⟩ 0x1000 [0x3FE0000000000000] }) 0
        [0x62, 0xF2, 0xF5, 0x39, 0xB7, 0x00])) =
      some ([0x401C000000000000, 0x401C000000000000, 0x4033000000000000, 0x402E000000000000, 0, 0, 0, 0],
        0x1F80, 0x400006) := by decide +kernel

/-- V3.15. -/
theorem test_step_evex512_132 :
    seen (step (State.storeCode (start vecD vecS2 vecS3 0 0x1F80) 0
        [0x62, 0xF2, 0xF5, 0x48, 0x97, 0xC2])) =
      some ([0x4026000000000000, 0xC02F000000000000, 0x4043000000000000, 0xC039000000000000, 0x4046000000000000, 0xC052800000000000, 0x4052000000000000, 0xC046000000000000],
        0x1F80, 0x400006) := by decide +kernel

/-- V3.16. -/
theorem test_step_evex512_213 :
    seen (step (State.storeCode (start vecD vecS2 vecS3 0xF0 0x1F80) 0
        [0x62, 0xF2, 0xF5, 0xC9, 0xA7, 0xC2])) =
      some ([0, 0, 0, 0, 0x4072B00000000000, 0x407A600000000000, 0x4081820000000000, 0x4086600000000000],
        0x1F80, 0x400006) := by decide +kernel

/-- V3.17. -/
theorem test_step_evex512_231 :
    seen (step (State.storeCode (start vecD vecS2 vecS3 0x3C 0x1F80) 0
        [0x62, 0xF2, 0xF5, 0x49, 0xB7, 0xC2])) =
      some ([0x4000000000000000, 0x4008000000000000, 0x4050000000000000, 0x405CC00000000000, 0xC046000000000000, 0xC05FC00000000000, 0x4020000000000000, 0x4022000000000000],
        0x1F80, 0x400006) := by decide +kernel

/-- V3.22. -/
theorem test_step_evex512_132_rounding :
    seen (step (State.storeCode (start (packElements (List.replicate 8 0x3FD5555555555555)) (packElements (List.replicate 8 0x3C30000000000000))
        (packElements (List.replicate 8 0x4008000000000000)) 0 0x5F80) 0
        [0x62, 0xF2, 0xF5, 0x38, 0x97, 0xC2])) =
      some ([0x3FEFFFFFFFFFFFFF, 0x3FEFFFFFFFFFFFFF, 0x3FEFFFFFFFFFFFFF, 0x3FEFFFFFFFFFFFFF, 0x3FEFFFFFFFFFFFFF, 0x3FEFFFFFFFFFFFFF, 0x3FEFFFFFFFFFFFFF, 0x3FEFFFFFFFFFFFFF],
        0x5F80, 0x400006) := by decide +kernel

/-! ## Elements: 95_test_vectors.md section 2 -/

/-- E3, E14, E16b: one rounding; tiny after rounding; not tiny after rounding. -/
theorem test_element_rounding :
    fmaElem .nearest false false true 0x3FF0000000000001 0x3FF0000000000001 0x3FF0000000000000 =
      ⟨0x3CC0000000000000, flagPE, false⟩ ∧
    fmaElem .nearest false false false 0x3FEFFFFFFFFFFFFF 0x0010000000000000 0 =
      ⟨0x0010000000000000, flagUE ||| flagPE, true⟩ ∧
    fmaElem .nearest false false false 0xBFD0000000000000 1 0x0010000000000000 =
      ⟨0x0010000000000000, flagDE ||| flagPE, false⟩ := by decide +kernel

/-- E10, E9 (down), E8 (toward zero). -/
theorem test_element_overflow :
    fmaElem .nearest false false false 0x7FEFFFFFFFFFFFFF 0x3FF0000000000000 0x7C90000000000000 =
      ⟨0x7FF0000000000000, flagOE ||| flagPE, false⟩ ∧
    fmaElem .down false false false 0xFFEFFFFFFFFFFFFF 0x4000000000000000 0 =
      ⟨0xFFF0000000000000, flagOE ||| flagPE, false⟩ ∧
    fmaElem .zero false false false 0x7FEFFFFFFFFFFFFF 0x4000000000000000 0 =
      ⟨0x7FEFFFFFFFFFFFFF, flagOE ||| flagPE, false⟩ := by decide +kernel

/-- E12, E16c, E17b, E18b: flush-to-zero and denormals-are-zeros. -/
theorem test_element_ftz_daz :
    fmaElem .nearest false true false 0x0010000000000000 0x3FE0000000000000 0 = ⟨0, flagUE ||| flagPE, true⟩ ∧
    fmaElem .nearest false true false 0xBFD8000000000000 1 0x0010000000000000 =
      ⟨0, flagDE ||| flagUE ||| flagPE, true⟩ ∧
    fmaElem .nearest true false false 0x000FFFFFFFFFFFFF 0x3FF0000000000000 0 = ⟨0, 0, false⟩ ∧
    fmaElem .nearest true false false 0x7FF0000000000000 1 0x3FF0000000000000 =
      ⟨0xFFF8000000000000, flagIE, false⟩ := by decide +kernel

/-- E19b, E20, E21b, E21c, E22b: NaN operands, infinities, the sign of zero. -/
theorem test_element_special :
    fmaElem .nearest false false false 0 0x7FF0000000000000 0x7FF8000000000001 = ⟨0x7FF8000000000001, 0, false⟩ ∧
    fmaElem .nearest false false true 0x7FF0000000000000 0x3FF0000000000000 0x7FF0000000000000 =
      ⟨0xFFF8000000000000, flagIE, false⟩ ∧
    fmaElem .nearest false false false 0x3FF0000000000000 0xFFF8000000000002 0xFFF4000000000003 =
      ⟨0xFFF8000000000002, flagIE, false⟩ ∧
    fmaElem .nearest false false true 0x3FF0000000000000 0x3FF0000000000000 0xFFF4000000000003 =
      ⟨0xFFFC000000000003, flagIE, false⟩ ∧
    fmaElem .down false false true 0x3FF0000000000000 0x3FF0000000000000 0x3FF0000000000000 =
      ⟨0x8000000000000000, 0, false⟩ := by decide +kernel

/-! ## Exceptions: 95_test_vectors.md sections 3.3 and 3.4 -/

/-- The vector number, `CR2` and `pc` of a fault. -/
def faulted : Result → Option (Nat × Quad × Quad)
  | .next _ => none
  | .fault x => some (x.vector, x.after.cr2, x.after.rip)
  | .refused _ => none

/-- The state of section 3.1 with these bytes at `pc`. -/
def code (bytes : List Byte) : State := State.storeCode (start vecD vecS2 vecS3 0 0x1F80) 0 bytes

/-- The same in a 32-bit mode, in a 16-bit code segment or not. -/
def code32 (short : Bool) (bytes : List Byte) : State :=
  State.storeCode { start vecD vecS2 vecS3 0 0x1F80 with mode := .compat32, code16 := short, rip := 0x100 } 0 bytes

/-- `RAX` 48 bytes below a page that is not mapped, as in M1 to M6, with a value of `k1`. -/
def paged (k1 : Quad) : State :=
  { start vecD (packElements (List.replicate 8 0x3FF0000000000000)) 0 k1 0x1F80 with
    gpr    := (Vector.replicate 16 0).set 0 0x1FD0
    mem    := storeQuads ⟨[]⟩ 0x1FD0 (List.replicate 6 0x3FF0000000000000)
    params := ⟨⟨true, true, true⟩, .bits48, [⟨0x2000, 0x2FFF, some .read, none, .faults 4⟩]⟩ }

/-- M1 and M2: a page fault of an active element, with the first byte of the page in `CR2`; none of inactive ones. -/
theorem test_page_fault :
    faulted (step (State.storeCode (paged 0xFF) 0 [0x62, 0xF2, 0xF5, 0x49, 0x97, 0x00])) = some (14, 0x2000, 0x400000) ∧
    seen (step (State.storeCode (paged 0x3F) 0 [0x62, 0xF2, 0xF5, 0x49, 0x97, 0x00])) =
      some ([0x4008000000000000, 0x4000000000000000, 0x4014000000000000, 0x4010000000000000, 0x401C000000000000,
        0x4018000000000000, 0x4020000000000000, 0x4022000000000000], 0x1F80, 0x400006) := by decide +kernel

/-- M17, M18, M19: non-canonical addresses. -/
theorem test_noncanonical :
    faulted (step { code [0xC4, 0xE2, 0xF1, 0x97, 0x00] with gpr := (Vector.replicate 16 0).set 0 0x800000000000 }) =
      some (13, 0, 0x400000) ∧
    faulted (step { code [0xC4, 0xE2, 0xF1, 0x97, 0x04, 0x24] with gpr := (Vector.replicate 16 0).set 4 0x800000000000 }) =
      some (12, 0, 0x400000) ∧
    faulted (step { code [0xC4, 0xE2, 0xF1, 0x97, 0x00] with gpr := (Vector.replicate 16 0).set 0 0x7FFFFFFFFFF8 }) =
      some (13, 0, 0x400000) := by decide +kernel

/-- The operands of X1: an SNaN in element 0 of the destination, with the invalid-operation exception unmasked. -/
def signaling : State :=
  start (packElements [0x7FF0000000000001, 0]) (packElements [0x3FF0000000000000, 0x3FF0000000000000])
    (packElements [0x3FF0000000000000, 0x3FF0000000000000]) 1 0x1F00

/-- X1 and rule R132; and X23: with the SNaN in an inactive element nothing is raised. -/
theorem test_unmasked :
    faulted (exec (.vfmsubadd231pdVex128 ⟨plain, 0, 1, .reg 2⟩) signaling) = some (19, 0, 0x400000) ∧
    faulted (exec (.vfmsubadd231pdVex128 ⟨plain, 0, 1, .reg 2⟩) { signaling with cr4 := 0x40000 }) =
      some (6, 0, 0x400000) ∧
    seen (exec (.vfmsubadd231pdEvex128 ⟨plain, 0, 1, 1, false, .reg 2⟩)
      { signaling with zmm := signaling.zmm.set 0 (packElements [0, 0x7FF0000000000001]) }) =
      some ([0x3FF0000000000000, 0x7FF0000000000001, 0, 0, 0, 0, 0, 0], 0x1F00, 0x400006) := by decide +kernel

/-- Rule R137, and the priority of rule R140 over the memory operand. -/
theorem test_device_not_available :
    faulted (exec (.vfmsubadd132pdEvex512 ⟨plain, 0, 1, 0, false, .mem (.base 0 .none)⟩)
      { paged 0 with cr0 := 0x9 }) = some (7, 0, 0x400000) := by decide +kernel

/-- Rule R156: a launched state runs what reset refuses. -/
theorem test_launch :
    faulted (exec (.vfmsubadd132pdVex128 ⟨plain, 0, 1, .reg 2⟩) State.reset) = some (6, 0, 0xFFF0) ∧
    seen (step (State.reset.withFetchWord 40 0xC297F1E2C4)) = some (List.replicate 8 0, 0x1F80, 0xFFF5) := by
  decide +kernel

/-! ## Witnesses -/

theorem next_of_seen (r : Result) (h : (seen r).isSome = true) : ∃ t, r = .next t := by
  cases r with
  | next t => exact ⟨t, rfl⟩
  | fault x => simp [seen] at h
  | refused q => simp [seen] at h

theorem fault_of_faulted (r : Result) (h : (faulted r).isSome = true) : ∃ x, r = .fault x := by
  cases r with
  | next t => simp [faulted] at h
  | fault x => exact ⟨x, rfl⟩
  | refused q => simp [faulted] at h

/-- The reason of a refusal. -/
def refusal : Result → Option Refusal
  | .next _ => none
  | .fault _ => none
  | .refused q => some q

theorem refused_of (r : Result) (q : Refusal) (h : refusal r = some q) : r = .refused q := by
  cases r with
  | next t => simp [refusal] at h
  | fault x => simp [refusal] at h
  | refused q' => simpa [refusal] using h

/-- A run that has not ended. -/
def stillRunning : Progress → Bool
  | .ended _ => false
  | .faulted _ => false
  | .refused _ => false
  | .running _ => true

/-- The number of a fault's vector tells an #XM. -/
theorem simd_of_faulted (r : Result) (h : (faulted r).map (·.1) = some 19) : ∃ t, r = .fault (.simdFloatingPoint t) := by
  cases r with
  | next t => simp [faulted] at h
  | fault x => cases x <;> simp [faulted, Fault.vector] at h; exact ⟨_, rfl⟩
  | refused q => simp [faulted] at h

def regForm : Instr := .vfmsubadd132pdVex128 ⟨plain, 0, 1, .reg 2⟩
def memForm : Instr := .vfmsubadd213pdVex256 ⟨⟨some .fs, true⟩, 15, 15, .mem (.sib 3 15 13 (.disp32 0xFFFFFFFF))⟩
def maskForm : Instr := .vfmsubadd231pdEvex512 ⟨⟨some .gs, true⟩, 31, 31, 7, true, .bcast (.sib 3 15 15 (.disp8 0x80))⟩
def roundForm : Instr := .vfmsubadd132pdEvex512 ⟨plain, 0, 1, 1, false, .regRounded 2 .up⟩
def loadForm : Instr := .vfmsubadd132pdEvex512 ⟨plain, 0, 1, 1, false, .mem (.base 0 .none)⟩

def launched : State := start vecD vecS2 vecS3 0x81 0x1F80

theorem witness_DecodeEncodeVex :
    instrIsEvex regForm = false ∧ regForm.wellFormed = true ∧ instrIsEvex memForm = false ∧ memForm.wellFormed = true := by
  decide

theorem witness_DecodeEncodeEvex :
    instrIsEvex roundForm = true ∧ roundForm.wellFormed = true ∧ instrIsEvex maskForm = true ∧ maskForm.wellFormed = true := by
  decide

theorem witness_DecodeEncodeIn32BitModes :
    (∃ i : Instr, i = .vfmsubadd213pdEvex256 ⟨⟨none, true⟩, 7, 7, 7, true, .reg 7⟩ ∧ i.wellFormed = true ∧
      instrLow i = true ∧ instrAddress i = none) ∧
    (∃ i : Instr, i = .vfmsubadd132pdVex128 ⟨plain, 7, 7, .mem (.base 7 .none)⟩ ∧ i.wellFormed = true ∧
      instrLow i = true ∧ (instrPrefixes i).addrSize = false) ∧
    (∃ i : Instr, i = .vfmsubadd132pdVex128 ⟨⟨none, true⟩, 7, 7, .mem (.base 7 .none)⟩ ∧ i.wellFormed = true ∧
      instrLow i = true ∧ (instrPrefixes i).addrSize = true ∧ instrAddress i ≠ none) ∧
    (∃ i : Instr, i = .vfmsubadd132pdVex128 ⟨plain, 0, 8, .reg 0⟩ ∧ i.wellFormed = true ∧ instrLow i = false) :=
  ⟨⟨_, rfl, by decide⟩, ⟨_, rfl, by decide⟩, ⟨_, rfl, by decide⟩, ⟨_, rfl, by decide⟩⟩

theorem witness_DecodeReadsOnlyItsLength :
    decode .long64 (encode maskForm) = .instr maskForm ∧ decode .legacy32 (encode regForm ++ [0x90]) = .instr regForm := by
  decide

theorem witness_ForbiddenPrefixRaisesUd :
    ∃ (s : State) (ps : List Byte), s = code [0x40, 0x64, 0x4F, 0xC4, 0xE2, 0xF1, 0x97, 0xC2] ∧
      ps = [0x40, 0x64, 0x4F] ∧ s.decodeMode = .long64 ∧ regForm.wellFormed = true ∧ (ps ++ encode regForm).length ≤ 15 ∧
      (∀ b ∈ ps, b ∈ [0xF0#8, 0x66#8, 0xF2#8, 0xF3#8, 0x26#8, 0x2E#8, 0x36#8, 0x3E#8, 0x64#8, 0x65#8, 0x67#8] ∨
        (0x40#8 ≤ b ∧ b ≤ 0x4F#8)) ∧
      (∃ b ∈ ps, b ∈ [0xF0#8, 0x66#8, 0xF2#8, 0xF3#8] ∨ (0x40#8 ≤ b ∧ b ≤ 0x4F#8)) ∧
      ps ++ encode regForm <+: s.fetch :=
  ⟨_, _, rfl, rfl, by decide +kernel, by decide, by decide, by decide, ⟨0x40, by decide⟩, by decide +kernel⟩

/-- The bytes of an EVEX form with a segment override, as the statements on EVEX bits take them apart. -/
def evexBytes (p0 p1 p2 op modrm : Byte) : List Byte := 0x64 :: 0x62 :: p0 :: p1 :: p2 :: op :: modrm :: List.replicate 8 0

theorem witness_ReservedEvexBitsRaiseUd :
    ∃ p0 p1 p2 op modrm : Byte, p0 = 0xFA ∧ p1 = 0xF5 ∧ p2 = 0x08 ∧ op = 0x97 ∧ modrm = 0xC2 ∧
      (code (evexBytes p0 p1 p2 op modrm)).decodeMode = .long64 ∧
      encodePrefixes ⟨some .fs, false⟩ ++ 0x62#8 :: p0 :: p1 :: p2 :: op :: modrm :: List.replicate 5 0 <+:
        (code (evexBytes p0 p1 p2 op modrm)).fetch ∧
      op ∈ [0x97#8, 0xA7#8, 0xB7#8] ∧ p0 &&& 0x03#8 = 0x02#8 ∧ p1 &&& 0x83#8 = 0x81#8 ∧ p0.getLsbD 3 = true :=
  ⟨_, _, _, _, _, rfl, rfl, rfl, rfl, rfl, by decide +kernel⟩

theorem witness_ZeroingWithoutMaskRaisesUd :
    ∃ p0 p1 p2 op modrm : Byte, p0 = 0xF2 ∧ p1 = 0xF5 ∧ p2 = 0x88 ∧ op = 0xA7 ∧ modrm = 0xC2 ∧
      (code (evexBytes p0 p1 p2 op modrm)).decodeMode = .long64 ∧
      encodePrefixes ⟨some .fs, false⟩ ++ 0x62#8 :: p0 :: p1 :: p2 :: op :: modrm :: List.replicate 5 0 <+:
        (code (evexBytes p0 p1 p2 op modrm)).fetch ∧
      op ∈ [0x97#8, 0xA7#8, 0xB7#8] ∧ p0 &&& 0x03#8 = 0x02#8 ∧ p1 &&& 0x83#8 = 0x81#8 ∧
      p2.getLsbD 7 = true ∧ p2 &&& 0x07#8 = 0#8 :=
  ⟨_, _, _, _, _, rfl, rfl, rfl, rfl, rfl, by decide +kernel⟩

theorem witness_ReservedVectorLengthRaisesUd :
    (∃ p0 p1 p2 op modrm : Byte, p0 = 0xF2 ∧ p1 = 0xF5 ∧ p2 = 0x78 ∧ op = 0xB7 ∧ modrm = 0xBF ∧
      (code (evexBytes p0 p1 p2 op modrm)).decodeMode = .long64 ∧
      encodePrefixes ⟨some .fs, false⟩ ++ 0x62#8 :: p0 :: p1 :: p2 :: op :: modrm :: List.replicate 5 0 <+:
        (code (evexBytes p0 p1 p2 op modrm)).fetch ∧
      op ∈ [0x97#8, 0xA7#8, 0xB7#8] ∧ p0 &&& 0x03#8 = 0x02#8 ∧ p1 &&& 0x83#8 = 0x81#8 ∧ p2 &&& 0x60#8 = 0x60#8 ∧
      modrm &&& 0xC0#8 ≠ 0xC0#8) ∧
    (∃ p0 p1 p2 op modrm : Byte, p0 = 0xF2 ∧ p1 = 0xF5 ∧ p2 = 0xF9 ∧ op = 0xB7 ∧ modrm = 0xC0 ∧
      (code (evexBytes p0 p1 p2 op modrm)).decodeMode = .long64 ∧
      encodePrefixes ⟨some .fs, false⟩ ++ 0x62#8 :: p0 :: p1 :: p2 :: op :: modrm :: List.replicate 5 0 <+:
        (code (evexBytes p0 p1 p2 op modrm)).fetch ∧
      op ∈ [0x97#8, 0xA7#8, 0xB7#8] ∧ p0 &&& 0x03#8 = 0x02#8 ∧ p1 &&& 0x83#8 = 0x81#8 ∧ p2 &&& 0x60#8 = 0x60#8 ∧
      modrm &&& 0xC0#8 = 0xC0#8 ∧ p2.getLsbD 4 = true ∧ p0 &&& 0x0C#8 = 0#8 ∧ p1.getLsbD 2 = true ∧
      (p2.getLsbD 7 = true → p2 &&& 0x07#8 ≠ 0#8)) :=
  ⟨⟨_, _, _, _, _, rfl, rfl, rfl, rfl, rfl, by decide +kernel⟩, ⟨_, _, _, _, _, rfl, rfl, rfl, rfl, rfl, by decide +kernel⟩⟩

theorem witness_IgnoredBitsDecodeAlike :
    (∃ modrm : Byte, modrm = 0xC4 ∧ modrm &&& 0xC0#8 = 0xC0#8) ∧
    (∃ modrm : Byte, modrm = 0xBB ∧ modrm &&& 0xC0#8 ≠ 0xC0#8 ∧ modrm &&& 0x07#8 ≠ 0x04#8) ∧
    (∃ modrm : Byte, modrm = 0x3D ∧ modrm &&& 0xC7#8 = 0x05#8) ∧
    (∃ (modrm : Byte) (rest : List Byte), modrm = 0x04 ∧ rest = [0x25, 0, 0, 0, 0] ∧ modrm &&& 0xC7#8 = 0x04#8 ∧
      ∃ sib tail, rest = sib :: tail ∧ sib &&& 0x07#8 = 0x05#8) :=
  ⟨⟨_, rfl, by decide⟩, ⟨_, rfl, by decide⟩, ⟨_, rfl, by decide⟩, ⟨_, _, rfl, rfl, by decide, _, _, rfl, by decide⟩⟩

theorem witness_NeighbourEncodingsRefused :
    (∃ (s : State) (ps : List Byte) (b1 b2 op : Byte), s = code (ps ++ [0xC4, b1, b2, op, 0xC2]) ∧
      ps = [0x66, 0x67, 0x2E, 0x48] ∧ b1 = 0xE2 ∧ b2 = 0x71 ∧ op = 0x97 ∧ s.decodeMode = .long64 ∧
      (∀ b ∈ ps, b ∈ [0xF0#8, 0x66#8, 0xF2#8, 0xF3#8, 0x26#8, 0x2E#8, 0x36#8, 0x3E#8, 0x64#8, 0x65#8, 0x67#8] ∨
        (s.decodeMode = .long64 ∧ 0x40#8 ≤ b ∧ b ≤ 0x4F#8)) ∧
      ps ++ [0xC4#8, b1, b2, op] <+: s.fetch ∧ b2 &&& 0x83#8 ≠ 0x81#8) ∧
    (∃ (s : State) (ps : List Byte) (b1 b2 b3 op : Byte), s = code (ps ++ [0x62, b1, b2, b3, op, 0xC2]) ∧
      ps = List.replicate 15 0x2E ∧ b1 = 0xF2 ∧ b2 = 0xF5 ∧ b3 = 0x08 ∧ op = 0x96 ∧ s.decodeMode = .long64 ∧
      ps ++ [0x62#8, b1, b2, b3, op] <+: s.fetch ∧ op ∉ [0x97#8, 0xA7#8, 0xB7#8]) ∧
    (∃ (ps : List Byte) (b : Byte), ps = List.replicate 15 0x66 ∧ b = 0x90 ∧
      (∀ b ∈ ps, b ∈ [0xF0#8, 0x66#8, 0xF2#8, 0xF3#8, 0x26#8, 0x2E#8, 0x36#8, 0x3E#8, 0x64#8, 0x65#8, 0x67#8]) ∧
      ps ++ [b] <+: (code (ps ++ [b])).fetch ∧
      b ∉ [0xF0#8, 0x66#8, 0xF2#8, 0xF3#8, 0x26#8, 0x2E#8, 0x36#8, 0x3E#8, 0x64#8, 0x65#8, 0x67#8, 0xC4#8, 0x62#8] ∧
      ¬ (0x40#8 ≤ b ∧ b ≤ 0x4F#8)) ∧
    (∃ (s : State) (ps : List Byte) (b b1 : Byte), s = code32 false (ps ++ [b, b1]) ∧
      ps = List.replicate 13 0x2E ∧ b = 0xC4 ∧ b1 = 0 ∧ s.decodeMode ≠ .long64 ∧ b1 &&& 0xC0#8 ≠ 0xC0#8 ∧
      ps ++ [b, b1] <+: s.fetch) :=
  ⟨⟨_, _, _, _, _, rfl, rfl, rfl, rfl, rfl, by decide +kernel⟩,
    ⟨_, _, _, _, _, _, rfl, rfl, rfl, rfl, rfl, rfl, by decide +kernel⟩,
    ⟨_, _, rfl, rfl, by decide, by decide +kernel⟩, ⟨_, _, _, _, rfl, rfl, rfl, rfl, by decide +kernel⟩⟩

theorem witness_TooLongInstrRaisesGp :
    (∃ (s : State) (ps : List Byte), ps = List.replicate 11 0x66 ∧ s = code (ps ++ encode regForm) ∧
      regForm.wellFormed = true ∧ 15 < (ps ++ encode regForm).length ∧
      (∀ b ∈ ps, b ∈ [0xF0#8, 0x66#8, 0xF2#8, 0xF3#8, 0x26#8, 0x2E#8, 0x36#8, 0x3E#8, 0x64#8, 0x65#8, 0x67#8]) ∧
      ps ++ encode regForm <+: s.fetch ∧ s.decodeMode = .long64) ∧
    (∃ (s : State) (i : Instr) (ps : List Byte), i = .vfmsubadd132pdVex128 ⟨plain, 7, 7, .mem (.base 7 .none)⟩ ∧
      ps = List.replicate 11 0x2E ∧
      s = code32 false (ps ++ encode i) ∧ i.wellFormed = true ∧ instrLow i = true ∧
      15 < (ps ++ encode i).length ∧ ps ++ encode i <+: s.fetch ∧ s.decodeMode = .legacy32 ∧ instrAddress i ≠ none ∧
      0x67#8 ∉ ps ∧ (instrPrefixes i).addrSize = false) ∧
    (∃ (s : State) (i : Instr) (ps : List Byte), i = .vfmsubadd132pdVex128 ⟨plain, 7, 7, .mem (.base 7 .none)⟩ ∧
      ps = List.replicate 11 0x67 ∧
      s = code32 false (ps ++ encode i) ∧ ps ++ encode i <+: s.fetch ∧
      15 < (ps ++ encode i).length ∧ s.decodeMode = .legacy32 ∧ 0x67#8 ∈ ps) ∧
    (∃ (s : State) (ps : List Byte), ps = List.replicate 11 0x2E ∧
      s = code32 true (ps ++ encode regForm) ∧ instrLow regForm = true ∧
      ps ++ encode regForm <+: s.fetch ∧ s.decodeMode = .legacy16 ∧ instrAddress regForm = none) ∧
    (∃ (s : State) (i : Instr) (ps : List Byte), i = .vfmsubadd132pdVex128 ⟨plain, 7, 7, .mem (.base 7 .none)⟩ ∧
      ps = List.replicate 11 0x2E ∧ s = code32 true (ps ++ encode i) ∧ i.wellFormed = true ∧
      15 < (ps ++ encode i).length ∧ instrLow i = true ∧ ps ++ encode i <+: s.fetch ∧ s.decodeMode = .legacy16 ∧
      instrAddress i ≠ none) :=
  ⟨⟨_, _, rfl, rfl, by decide +kernel⟩, ⟨_, _, _, rfl, rfl, rfl, by decide +kernel⟩,
    ⟨_, _, _, rfl, rfl, rfl, by decide +kernel⟩, ⟨_, _, rfl, rfl, by decide +kernel⟩,
    ⟨_, _, _, rfl, rfl, rfl, by decide +kernel⟩⟩

/-- Rule R57: eleven prefixes and five bytes are #GP(0), vector 13; rules R68 (b), R71: other bytes are refused. -/
theorem test_length_limit :
    (faulted (step (code (List.replicate 11 0x66 ++ [0xC4, 0xE2, 0xF1, 0x97, 0xC2])))).map (·.1) = some 13 ∧
    (faulted (step (code (List.replicate 10 0x66 ++ [0xC4, 0xE2, 0xF1, 0x97, 0xC2])))).map (·.1) = some 6 ∧
    decode .legacy32 (List.replicate 13 0x2E ++ [0xC4, 0x00]) = .notThisGroup ∧
    decode .long64 (List.replicate 15 0x66 ++ [0x90]) = .notThisGroup := by decide +kernel

theorem witness_StepRunsDecodedInstr :
    ∃ s : State, s = code [0xC4, 0xE2, 0xF1, 0x97, 0xC2] ∧ decode s.decodeMode s.fetch = .instr regForm ∧
      ∃ t, step s = .next t :=
  ⟨_, rfl, by decide +kernel, next_of_seen _ (by decide +kernel)⟩

/-- In `Long64` with code above the canonical hole and translated to another place; in a 32-bit mode with a memory
operand, `pc` near the limit of CS; in a 16-bit code segment. -/
theorem witness_StoredInstrRuns :
    (∃ s : State, s = State.storeCode { start vecD vecS2 vecS3 0 0x1F80 with
          rip := 0xFFFF800000000000,
          params := ⟨⟨true, true, true⟩, .bits48, [⟨0xFFFF800000000000, 0xFFFF800000000FFF, some .fetch, none, .maps 0x7000⟩]⟩ }
          0 (encode regForm) ∧
      s.cr0.getLsbD 0 = true ∧ s.rflags.getLsbD 17 = false ∧ regForm.wellFormed = true ∧ s.mode = .long64 ∧
      ∀ n, n < (encode regForm).length → canonical s.params.linearBits (s.rip + BitVec.ofNat 64 n) = true ∧
        s.translate .fetch (s.rip + BitVec.ofNat 64 n) = .maps (0x7000 + BitVec.ofNat 64 n) ∧
        (encode regForm)[n]? = some (s.mem.read (0x7000 + BitVec.ofNat 64 n))) ∧
    (∃ (s : State) (i : Instr), i = .vfmsubadd132pdVex128 ⟨plain, 7, 7, .mem (.base 7 .none)⟩ ∧
      s = State.storeCode { start vecD vecS2 vecS3 0 0x1F80 with
        mode := .compat32, code16 := false, rip := 0xFFFB } 0 (encode i) ∧
      s.cr0.getLsbD 0 = true ∧ s.rflags.getLsbD 17 = false ∧ i.wellFormed = true ∧ s.mode ≠ .long64 ∧
      instrLow i = true ∧ s.code16 = false ∧ (instrPrefixes i).addrSize = false ∧
      ∀ n, n < (encode i).length → (s.rip.toNat + n) % 2 ^ 32 ≤ s.segs.cs.limit.toNat ∧
        s.translate .fetch (BitVec.ofNat 64 (((s.rip.toNat + n) % 2 ^ 32 + s.segs.cs.base.toNat) % 2 ^ 32)) =
          .maps (0xFFFFFFFB + BitVec.ofNat 64 n) ∧
        (encode i)[n]? = some (s.mem.read (0xFFFFFFFB + BitVec.ofNat 64 n))) ∧
    (∃ s : State, s = code32 true (encode regForm) ∧ s.mode ≠ .long64 ∧ instrLow regForm = true ∧
      instrAddress regForm = none ∧
      ∀ n, n < (encode regForm).length → (s.rip.toNat + n) % 2 ^ 32 ≤ s.segs.cs.limit.toNat ∧
        s.translate .fetch (BitVec.ofNat 64 (((s.rip.toNat + n) % 2 ^ 32 + s.segs.cs.base.toNat) % 2 ^ 32)) =
          .maps (0xFFFF0100 + BitVec.ofNat 64 n) ∧
        (encode regForm)[n]? = some (s.mem.read (0xFFFF0100 + BitVec.ofNat 64 n))) :=
  ⟨⟨_, rfl, by decide +kernel⟩, ⟨_, _, rfl, rfl, by decide +kernel⟩, ⟨_, rfl, by decide +kernel⟩⟩

theorem witness_LaunchRunsTableWord : decodeTableWord 40 0xC297F1E2C4 = some regForm := by decide

/-- Clause by clause: at the end address; a step to it; a fault; a refusal. -/
theorem witness_RunEndsAtEndAddress :
    (∃ s : State, s = code [] ∧ s.rip = 0x400000) ∧
    (∃ s : State, s = code [0xC4, 0xE2, 0xF1, 0x97, 0xC2] ∧ s.rip ≠ 0x400005 ∧ (∃ t, step s = .next t) ∧
      ∀ t, run 0x400005 1 s ≠ .running t) ∧
    (∃ s : State, s = code [0x62, 0xF2, 0xF5, 0x88, 0x97, 0xC2] ∧ s.rip ≠ 0x400005 ∧ ∃ x, step s = .fault x) ∧
    (∃ s : State, s = code [] ∧ s.rip ≠ 0x400005 ∧ step s = .refused .notThisGroup) := by
  refine ⟨⟨_, rfl, by decide +kernel⟩, ⟨_, rfl, by decide +kernel, next_of_seen _ (by decide +kernel), fun t h => ?_⟩,
    ⟨_, rfl, by decide +kernel, fault_of_faulted _ (by decide +kernel)⟩, ⟨_, rfl, by decide +kernel, ?_⟩⟩
  · have : stillRunning (run 0x400005 1 (code [0xC4, 0xE2, 0xF1, 0x97, 0xC2])) = false := by decide +kernel
    rw [h] at this
    simp [stillRunning] at this
  · exact refused_of _ _ (by decide +kernel)

theorem witness_RealModeRaisesUd :
    (∃ s : State, s = State.storeCode State.reset 0 (encode regForm) ∧ s.cr0.getLsbD 0 = false ∧ regForm.wellFormed = true ∧
      instrLow regForm = true ∧ encode regForm <+: s.fetch) ∧
    (∃ s : State, s = { code (encode regForm) with rflags := 0x20000, mode := .protected32, rip := 0 } ∧
      s.rflags.getLsbD 17 = true) :=
  ⟨⟨_, rfl, by decide +kernel⟩, ⟨_, rfl, by decide +kernel⟩⟩

theorem witness_DisabledStateRaisesUd :
    (∃ s : State, s = { launched with cr4 := 0x600 } ∧ s.cr4.getLsbD 18 = false) ∧
    (∃ s : State, s = { launched with xcr0 := 0xE3 } ∧ s.xcr0.extractLsb' 1 2 ≠ 3#2) ∧
    (∃ s : State, s = { launched with xcr0 := 0x67 } ∧ instrIsEvex maskForm = true ∧ s.xcr0.extractLsb' 5 3 ≠ 7#3) :=
  ⟨⟨_, rfl, by decide⟩, ⟨_, rfl, by decide⟩, ⟨_, rfl, by decide⟩⟩

theorem witness_MissingFeatureRaisesUd :
    (∃ s : State, s = { launched with params := ⟨⟨false, true, true⟩, .bits48, []⟩ } ∧ instrIsEvex regForm = false ∧
      s.params.features.fma = false) ∧
    (∃ s : State, s = { launched with params := ⟨⟨true, false, false⟩, .bits48, []⟩ } ∧ instrIsEvex maskForm = true ∧
      s.params.features.avx512f = false) ∧
    (∃ (s : State) (i : Instr), s = { launched with params := ⟨⟨true, true, false⟩, .bits48, []⟩ } ∧
      i = .vfmsubadd132pdEvex128 ⟨plain, 0, 1, 0, false, .reg 2⟩ ∧ instrIsEvex i = true ∧ instrVecLen i ≠ .v512 ∧
      s.params.features.avx512vl = false) :=
  ⟨⟨_, rfl, by decide⟩, ⟨_, rfl, by decide⟩, ⟨_, _, rfl, rfl, by decide⟩⟩

theorem witness_TaskSwitchedRaisesNm :
    (∃ s : State, s = { launched with cr0 := 0x9 } ∧ maskForm.wellFormed = true ∧ s.cr0.getLsbD 3 = true ∧
      State.instrAvailable { s with cr0 := s.cr0 &&& ~~~0x8#64 } maskForm = true) ∧
    (∃ s : State, s = { launched with cr0 := 0x9, cr4 := 0 } ∧
      State.instrAvailable { s with cr0 := s.cr0 &&& ~~~0x8#64 } maskForm = false) :=
  ⟨⟨_, rfl, by decide +kernel⟩, ⟨_, rfl, by decide +kernel⟩⟩

/-- Clause by clause: byte 8 of the operand just above the canonical range; byte 15 just above a limit of 100EH; the page at
2000H; memory with side effects; every byte readable; a register form. -/
theorem witness_MemoryOperandFaults :
    (∃ (s : State) (i : Instr) (a : AddrForm), i = .vfmsubadd132pdVex128 ⟨plain, 0, 1, .mem a⟩ ∧ a = .base 0 .none ∧
      s = { launched with gpr := (Vector.replicate 16 0).set 0 0x7FFFFFFFFFF8 } ∧
      i.wellFormed = true ∧ s.instrAvailable i = true ∧ s.readsByte i 8 = true ∧ s.mode = .long64 ∧
      canonical s.params.linearBits (s.byteLinear (s.instrLocation i a) 8) = false) ∧
    (∃ (s : State) (i : Instr) (a : AddrForm), i = .vfmsubadd132pdVex128 ⟨plain, 0, 1, .mem a⟩ ∧ a = .base 0 .none ∧
      s = { launched with mode := .protected32, segs := { launched.segs with ds := ⟨0, 0x100E, true⟩ } } ∧
      i.wellFormed = true ∧ s.instrAvailable i = true ∧ s.readsByte i 15 = true ∧ s.mode ≠ .long64 ∧
      (s.segment (operandSegment (instrPrefixes i) a)).limit.toNat < (s.byteOffset (s.instrLocation i a) 15).toNat) ∧
    (∃ (s : State) (a : AddrForm), s = paged 0x40 ∧ a = .base 0 .none ∧ instrAddress loadForm = some a ∧
      loadForm.wellFormed = true ∧ s.instrAvailable loadForm = true ∧ s.readsByte loadForm 48 = true ∧
      (∀ b, b < 64 → s.readsByte loadForm b = true → s.byteLegal (s.instrLocation loadForm a) b = true) ∧
      s.translate .read (s.byteLinear (s.instrLocation loadForm a) 48) = .faults 4) ∧
    (∃ (s : State) (a : AddrForm), s = { paged 0x40 with params :=
        ⟨⟨true, true, true⟩, .bits48, [⟨0x2000, 0x2FFF, some .read, none, .device⟩]⟩ } ∧ a = .base 0 .none ∧
      instrAddress loadForm = some a ∧ s.instrAvailable loadForm = true ∧ s.readsByte loadForm 48 = true ∧
      s.translate .read (s.byteLinear (s.instrLocation loadForm a) 48) = .device) ∧
    (∃ (s : State) (a : AddrForm), s = paged 0x3F ∧ a = .base 0 .none ∧ instrAddress loadForm = some a ∧
      (∀ b, b < 64 → s.readsByte loadForm b = true → s.byteReadable (s.instrLocation loadForm a) b = true)) ∧
    (regForm.wellFormed = true ∧ launched.instrAvailable regForm = true ∧ instrAddress regForm = none) :=
  ⟨⟨_, _, _, rfl, rfl, rfl, by decide +kernel⟩, ⟨_, _, _, rfl, rfl, rfl, by decide +kernel⟩,
    ⟨_, _, rfl, rfl, by decide +kernel⟩, ⟨_, _, rfl, rfl, by decide +kernel⟩, ⟨_, _, rfl, rfl, by decide +kernel⟩,
    by decide +kernel⟩

theorem witness_UnmaskedSimdExceptionIsXmOrUd :
    ∃ i : Instr, i = .vfmsubadd231pdVex128 ⟨plain, 0, 1, .reg 2⟩ ∧ i.wellFormed = true ∧
      signaling.instrAvailable i = true ∧ signaling.instrReadable i = true ∧ signaling.instrTraps i = true ∧
      signaling.cr4.getLsbD 10 = true ∧
      State.instrAvailable { signaling with cr4 := 0x40000 } i = true ∧
      State.instrTraps { signaling with cr4 := 0x40000 } i = true :=
  ⟨_, rfl, by decide +kernel⟩

theorem witness_CompletesUnlessUnmasked :
    (∃ i : Instr, i = .vfmsubadd231pdVex128 ⟨plain, 0, 1, .reg 2⟩ ∧ i.wellFormed = true ∧
      signaling.instrAvailable i = true ∧ signaling.instrReadable i = true ∧ signaling.instrTraps i = true) ∧
    loadForm.wellFormed = true ∧ (paged 0x3F).instrAvailable loadForm = true ∧ (paged 0x3F).instrReadable loadForm = true ∧
      (paged 0x3F).instrTraps loadForm = false := ⟨⟨_, rfl, by decide +kernel⟩, by decide +kernel⟩

theorem witness_FlagsAtSimdFault :
    ∃ t, exec (.vfmsubadd231pdVex128 ⟨plain, 0, 1, .reg 2⟩) signaling = .fault (.simdFloatingPoint t) :=
  simd_of_faulted _ (by decide +kernel)

/-- A page fault, an #XM and, with `CR4.OSXMMEXCPT` clear, a #UD in its place. -/
theorem witness_FaultLeavesState :
    (∃ x, step (State.storeCode (paged 0xFF) 0 [0x62, 0xF2, 0xF5, 0x49, 0x97, 0x00]) = .fault x) ∧
    (∃ t, step (State.storeCode signaling 0 [0xC4, 0xE2, 0xF1, 0xB7, 0xC2]) = .fault (.simdFloatingPoint t)) ∧
    (∃ s : State, s = { State.storeCode signaling 0 [0xC4, 0xE2, 0xF1, 0xB7, 0xC2] with cr4 := 0x40000 } ∧
      ∃ x, step s = .fault x) :=
  ⟨fault_of_faulted _ (by decide +kernel), simd_of_faulted _ (by decide +kernel),
    _, rfl, fault_of_faulted _ (by decide +kernel)⟩

theorem witness_CompletedInstrFrame : ∃ t, exec regForm launched = .next t := next_of_seen _ (by decide +kernel)

theorem witness_NeverWritesMemory :
    (∃ t, step (code [0xC4, 0xE2, 0xF1, 0x97, 0xC2]) = .next t) ∧
    (∃ x, step (code [0x62, 0xF2, 0xF5, 0x88, 0x97, 0xC2]) = .fault x) :=
  ⟨next_of_seen _ (by decide +kernel), fault_of_faulted _ (by decide +kernel)⟩

theorem witness_ProgramCounterAdvances :
    (launched.mode = .long64 ∧ ∃ t, exec regForm launched = .next t) ∧
    (∃ s : State, s = { launched with mode := .compat32, rip := 0xFFFFFFFE } ∧ s.mode ≠ .long64 ∧
      ∃ t, exec regForm s = .next t) ∧
    (∃ x, exec regForm State.reset = .fault x) :=
  ⟨⟨rfl, next_of_seen _ (by decide +kernel)⟩, ⟨_, rfl, by decide, next_of_seen _ (by decide +kernel)⟩,
    fault_of_faulted _ (by decide +kernel)⟩

theorem witness_UpperBitsZeroed : ∃ t, exec regForm launched = .next t := next_of_seen _ (by decide +kernel)

theorem witness_Vex128Result :
    ∃ o : VexOperands, o = ⟨plain, 0, 1, .mem (.base 0 .none)⟩ ∧ launched.vexAvailable = true ∧
      launched.vexReadable .v128 o = true ∧
      ∀ form j, j < 2 → launched.traps (launched.formFma form (mxcsrRounding launched.mxcsr) (element (launched.vec 0))
        (element (launched.vec 1)) (launched.vexSource o) j) = false :=
  ⟨_, rfl, by decide +kernel, by decide +kernel, fun form => by cases form <;> decide +kernel⟩

theorem witness_Vex256Result :
    ∃ o : VexOperands, o = ⟨plain, 0, 1, .mem (.base 0 .none)⟩ ∧ launched.vexAvailable = true ∧
      launched.vexReadable .v256 o = true ∧
      ∀ form j, j < 4 → launched.traps (launched.formFma form (mxcsrRounding launched.mxcsr) (element (launched.vec 0))
        (element (launched.vec 1)) (launched.vexSource o) j) = false :=
  ⟨_, rfl, by decide +kernel, by decide +kernel, fun form => by cases form <;> decide +kernel⟩

theorem witness_Evex128Result :
    ∃ p : EvexOperands EvexRm, p = ⟨plain, 0, 1, 1, true, .bcast (.base 0 .none)⟩ ∧ launched.evexAvailable .v128 = true ∧
      maskWellFormed p.aaa p.z = true ∧ launched.evexReadable .v128 (widen p) = true ∧
      ∀ form j, j < 2 → launched.active p.aaa j = true → launched.traps (launched.formFma form
        (mxcsrRounding launched.mxcsr) (element (launched.vec 0)) (element (launched.vec 1))
        (launched.evexSource .v128 (widen p)) j) = false :=
  ⟨_, rfl, by decide +kernel, by decide +kernel, by decide +kernel, fun form => by cases form <;> decide +kernel⟩

theorem witness_Evex256Result :
    ∃ p : EvexOperands EvexRm, p = ⟨plain, 0, 1, 1, false, .mem (.base 0 .none)⟩ ∧ launched.evexAvailable .v256 = true ∧
      maskWellFormed p.aaa p.z = true ∧ launched.evexReadable .v256 (widen p) = true ∧
      ∀ form j, j < 4 → launched.active p.aaa j = true → launched.traps (launched.formFma form
        (mxcsrRounding launched.mxcsr) (element (launched.vec 0)) (element (launched.vec 1))
        (launched.evexSource .v256 (widen p)) j) = false :=
  ⟨_, rfl, by decide +kernel, by decide +kernel, by decide +kernel, fun form => by cases form <;> decide +kernel⟩

theorem witness_Evex512Result :
    ∃ o : EvexOperands EvexRm512, o = ⟨plain, 0, 1, 1, true, .mem (.base 0 .none)⟩ ∧ embeddedRounding o.src3 = none ∧
      launched.evexAvailable .v512 = true ∧ maskWellFormed o.aaa o.z = true ∧ launched.evexReadable .v512 o = true ∧
      ∀ form j, j < 8 → launched.active o.aaa j = true → launched.traps (launched.formFma form
        (mxcsrRounding launched.mxcsr) (element (launched.vec 0)) (element (launched.vec 1))
        (launched.evexSource .v512 o) j) = false :=
  ⟨_, rfl, rfl, by decide +kernel, by decide +kernel, by decide +kernel, fun form => by cases form <;> decide +kernel⟩

theorem witness_EmbeddedRoundingResult :
    ∃ o : EvexOperands EvexRm512, o = ⟨plain, 0, 1, 1, true, .regRounded 2 .down⟩ ∧ o.src3 = .regRounded 2 .down ∧
      launched.evexAvailable .v512 = true ∧ maskWellFormed o.aaa o.z = true :=
  ⟨_, rfl, rfl, by decide +kernel⟩

theorem witness_ZeroMaskReadsNothing :
    ∃ s : State, s = { paged 0 with gpr := (Vector.replicate 16 0).set 0 0x800000000000 } ∧ loadForm.wellFormed = true ∧
      s.instrAvailable loadForm = true ∧ ∀ j, j < (instrVecLen loadForm).elements → s.instrActive loadForm j = false :=
  ⟨_, rfl, by decide +kernel⟩

theorem witness_EvexEqualsVex :
    launched.vexAvailable = true ∧ launched.evexAvailable .v128 = true ∧
    (∃ (o : VexOperands) (p : EvexOperands EvexRm), o = ⟨plain, 15, 1, .reg 15⟩ ∧
      p = ⟨plain, 15, 1, 0, false, .reg 15⟩ ∧ p.dest = vexNumber o.dest ∧ p.src2 = vexNumber o.src2 ∧ p.aaa = 0#3 ∧
      p.z = false ∧ ∃ n, o.src3 = .reg n ∧ p.src3 = .reg (vexNumber n)) ∧
    (∃ (o : VexOperands) (p : EvexOperands EvexRm), o = ⟨plain, 0, 1, .mem (.base 0 (.disp8 16))⟩ ∧
      p = ⟨plain, 0, 1, 0, false, .mem (.base 0 (.disp8 1))⟩ ∧ p.dest = vexNumber o.dest ∧ p.src2 = vexNumber o.src2 ∧
      p.aaa = 0#3 ∧ p.z = false ∧ ∃ a b, o.src3 = .mem a ∧ p.src3 = .mem b ∧
      launched.vexLocation o a = launched.evexLocation (VecLen.bytes .v128) (widen p) b ∧
      launched.segmentFault o.pre a = launched.segmentFault p.pre b) :=
  ⟨by decide +kernel, by decide +kernel, ⟨_, _, rfl, rfl, rfl, rfl, rfl, rfl, _, rfl, rfl⟩,
    ⟨_, _, rfl, rfl, rfl, rfl, rfl, rfl, _, _, rfl, rfl, by decide +kernel⟩⟩

theorem witness_EmbeddedRoundingReadsDazFtzOnly :
    ∃ m : BitVec 32, m = 0x7FBF#32 ∧ instrRounding roundForm ≠ none ∧ m.getLsbD 6 = launched.mxcsr.getLsbD 6 ∧
      m.getLsbD 15 = launched.mxcsr.getLsbD 15 := ⟨_, rfl, by decide +kernel⟩

theorem witness_InactiveElementsInvisible :
    ∃ v : Vec, v = launched.vec 1 ^^^ ((1 : Vec) <<< 64) ∧ (1 : EvexReg) ≠ instrDest loadForm ∧
      ∀ j, j < (instrVecLen loadForm).elements → launched.instrActive loadForm j = true →
        element v j = element (launched.vec 1) j := ⟨_, rfl, by decide +kernel⟩

theorem witness_UnreadMemoryInvisible :
    ∃ (s : State) (m : Memory), s = paged 0x3F ∧ m = s.mem.write 0x2000 1 ∧
      ∀ b p, b < 64 → s.readsByte loadForm b = true →
        s.translate .read (s.byteLinear (s.instrLocation loadForm (.base 0 .none)) b) = .maps p → m.read p = s.mem.read p := by
  refine ⟨_, _, rfl, rfl, fun b p hb hr ht => ?_⟩
  have h : ∀ b, b < 64 → (paged 0x3F).readsByte loadForm b = true →
      (paged 0x3F).translate .read ((paged 0x3F).byteLinear ((paged 0x3F).instrLocation loadForm (.base 0 .none)) b) ≠
        .maps 0x2000 := by decide +kernel
  have hp : p ≠ 0x2000 := fun e => h b hb hr (e ▸ ht)
  exact cellsRead_cellsWrite_other _ _ _ _ fun e => hp (BitVec.eq_of_toNat_eq e)

theorem witness_PrivilegeAndFlagsInvisible :
    (∀ r ∈ (paged 0xFF).params.translate, r.cpl = none) ∧ (0xD5#64).getLsbD 17 = (paged 0xFF).rflags.getLsbD 17 := by
  decide +kernel

theorem witness_MemoryIsLittleEndian :
    launched.translate .read (launched.byteLinear ⟨.ds, 0xFFFFFFFFFFFFFFFF⟩ (0 + 7)) = .maps 6 := by decide +kernel

theorem witness_LongModeAddresses :
    launched.mode = .long64 ∧ instrAddress maskForm = some (.sib 3 15 15 (.disp8 0x80)) ∧
    ((launched.instrLocation maskForm (.sib 3 15 15 (.disp8 0x80))).ea = 0xFFFFFC00) ∧
    (∃ s : State, s = { launched with segs := { launched.segs with gs := ⟨0xFFFF800000000000, 0xFFFF, true⟩ } } ∧
      s.mode = .long64 ∧
      s.byteLinear (s.instrLocation maskForm (.sib 3 15 15 (.disp8 0x80))) 7 = 0xFFFF8000FFFFFC07) :=
  ⟨rfl, by decide, by decide +kernel, _, rfl, by decide +kernel⟩

/-- `EBP` as the base with a negative `disp8`, in SS; the last byte of the address space, where an offset wraps. -/
theorem witness_ProtectedModeAddresses :
    ∃ (s : State) (i : Instr) (a : AddrForm), i = .vfmsubadd132pdEvex256 ⟨plain, 0, 1, 0, false, .mem a⟩ ∧
      a = .base 5 (.disp8 0xFF) ∧ s = { launched with
        mode := .protected32, segs := { launched.segs with ss := ⟨0x1000, 0xFFFFFFFF, true⟩ },
        gpr := (Vector.replicate 16 0).set 5 0xFFFFFFFF0000001F } ∧
      s.mode ≠ .long64 ∧ instrAddress i = some a ∧
      (s.instrLocation i a).ea = 0xFFFFFFFF ∧ s.byteLinear (s.instrLocation i a) 1 = 0x1000 :=
  ⟨_, _, _, rfl, rfl, rfl, by decide +kernel⟩

theorem witness_NanOperandPropagates : (isNaN 0 || isNaN 0 || isNaN 0x7FF0000000000001) = true := by decide

theorem witness_SubtractionNegatesAddend : isNaN 0xFFF0000000000000 = false ∧ isNaN 0xFFF0000000000001 = true := by decide

theorem witness_FactorsCommute : isNaN 0x7FF0000000000000 = false ∧ isNaN 0 = false := by decide

theorem witness_DazAndFtzEffects :
    isDenormal 0x800FFFFFFFFFFFFF = true ∧ isDenormal 0x0010000000000000 = false ∧
    (fmaElem .nearest false true false 0x3FF0000000000000 0x0010000000000000 0).tiny = false := by decide +kernel

theorem witness_InvalidOperationResult :
    isNaN 0x7FF0000000000000 = false ∧ isNaN 1 = false ∧
    (isInfinite (conditionInput true 0x7FF0000000000000) = true ∧ isZero (conditionInput true 1) = true) ∧
    (isInfinite (conditionInput true 0x7FF0000000000000) = true ∧
      isInfinite (negateIf true (conditionInput true 0x7FF0000000000000)) = true ∧
      (0x7FF0000000000000#64 ^^^ 0x3FF0000000000000#64).getLsbD 63 ≠
        (negateIf true (conditionInput true 0x7FF0000000000000)).getLsbD 63) := by decide

theorem witness_InfiniteOperandResult :
    isNaN 0x7FF0000000000000 = false ∧ isNaN 1 = false ∧ isInfinite (conditionInput false 0x7FF0000000000000) = true ∧
    isZero (conditionInput false 1) = false ∧ isInfinite (negateIf true (conditionInput false 1)) = false ∧
    isInfinite (negateIf true (conditionInput false 0x7FF0000000000000)) = true := by decide

theorem witness_ExactZeroSign :
    (dblExponent 0x3FF0000000000000 ≠ 2047 ∧
      scaledValue 0x3FF0000000000000 * scaledValue 0x3FF0000000000000 + scaledValue 0xBFF0000000000000 * 2 ^ 1074 = 0) ∧
    ((isZero 0 || isZero 1) = true ∧ isZero 0 = true ∧ (0#64 ^^^ 1#64).getLsbD 63 = (0#64).getLsbD 63 ∧
      scaledValue 0 * scaledValue 1 + scaledValue 0 * 2 ^ 1074 = 0) := by decide +kernel

theorem witness_RepresentableSumIsExact :
    dblExponent 0x000FFFFFFFFFFFFF ≠ 2047 ∧ dblExponent 0x3FF0000000000000 ≠ 2047 ∧ isZero 0x000FFFFFFFFFFFFF = false ∧
    scaledValue 0x000FFFFFFFFFFFFF * scaledValue 0x3FF0000000000000 + scaledValue 0 * 2 ^ 1074 =
      scaledValue 0x000FFFFFFFFFFFFF * 2 ^ 1074 := by decide +kernel

/-- Rule R90: `1 + 2^-53` is halfway between 1 and the next number, and so is `1 + 3 * 2^-53` between that and the next. -/
theorem witness_NearestResultIsNearest :
    (∃ c y : Quad, c = 0x3CA0000000000000 ∧ y = 0x3FF0000000000001 ∧ dblExponent c ≠ 2047 ∧ dblExponent y ≠ 2047 ∧
      (fmaElem .nearest false false false 0x3FF0000000000000 0x3FF0000000000000 c).result = 0x3FF0000000000000 ∧
      scaledValue y ≠ scaledValue 0x3FF0000000000000 ∧
      (scaledValue 0x3FF0000000000000 * scaledValue 0x3FF0000000000000 + scaledValue c * 2 ^ 1074 -
        scaledValue 0x3FF0000000000000 * 2 ^ 1074).natAbs =
      (scaledValue 0x3FF0000000000000 * scaledValue 0x3FF0000000000000 + scaledValue c * 2 ^ 1074 -
        scaledValue y * 2 ^ 1074).natAbs) ∧
    (∃ c : Quad, c = 0x3CB8000000000000 ∧
      (fmaElem .nearest false false false 0x3FF0000000000000 0x3FF0000000000000 c).result = 0x3FF0000000000002) :=
  ⟨⟨_, _, rfl, rfl, by decide +kernel⟩, ⟨_, rfl, by decide +kernel⟩⟩

theorem witness_DirectedResultIsTight :
    dblExponent 0x7FEFFFFFFFFFFFFF ≠ 2047 ∧ dblExponent 0x4000000000000000 ≠ 2047 ∧
    dblExponent (fmaElem .down false false false 0x7FEFFFFFFFFFFFFF 0x4000000000000000 0).result ≠ 2047 ∧
    dblExponent (fmaElem .up false false false 0xFFEFFFFFFFFFFFFF 0x4000000000000000 0).result ≠ 2047 ∧
    scaledValue 0x8000000000000001 * scaledValue 0x0000000000000001 + scaledValue 0 * 2 ^ 1074 ≠ 0 ∧
    (fmaElem .zero false false false 0x8000000000000001 0x0000000000000001 0).result = 0x8000000000000000 := by
  decide +kernel

theorem witness_OverflowResult :
    dblExponent 0xFFEFFFFFFFFFFFFF ≠ 2047 ∧ dblExponent 0x4000000000000000 ≠ 2047 ∧
    (fmaElem .nearest false true false 0xFFEFFFFFFFFFFFFF 0x4000000000000000 0).flags &&& flagOE ≠ 0#6 := by decide +kernel

theorem witness_InexactAndUnderflowFlags :
    dblExponent 0x3FEFFFFFFFFFFFFF ≠ 2047 ∧ dblExponent 0x0010000000000000 ≠ 2047 ∧
    (fmaElem .nearest false false false 0x3FEFFFFFFFFFFFFF 0x0010000000000000 0).flags &&& flagOE = 0#6 ∧
    (fmaElem .nearest false false false 0x3FEFFFFFFFFFFFFF 0x0010000000000000 0).tiny = true ∧
    (scaledValue 0x3FEFFFFFFFFFFFFF * scaledValue 0x0010000000000000 ≠ 0 ∧
      round53 .nearest false (scaledValue 0x3FEFFFFFFFFFFFFF * scaledValue 0x0010000000000000).natAbs < 2 ^ 1126) := by
  decide +kernel

theorem witness_StepKeepsMachineInvariant :
    (code [0xC4, 0xE2, 0xF1, 0x97, 0xC2]).Inv ∧ ∃ t, step (code [0xC4, 0xE2, 0xF1, 0x97, 0xC2]) = .next t :=
  ⟨⟨by decide +kernel, by decide +kernel, fun h => absurd h (by decide +kernel), fun h => absurd (by decide +kernel) h,
    by decide +kernel⟩, next_of_seen _ (by decide +kernel)⟩

end Sys2Proof.Tests
end

section
/-! Proofs/State.lean: what an instruction that completes leaves in the state (10_state.md). The next state of `exec` is
said once (`exec_next`); that no element raises `ZE` (rule R17) is a fact about `FmaElem`. -/

namespace Sys2Proof.Machine

/-! ## An OR of flags into MXCSR (10_state.md rule R16) -/

/-- A bit of `MXCSR` under an OR of flags. -/
theorem getLsbD_orFlags_eq_or (m : BitVec 32) (f : BitVec 6) (n : Nat) :
    (orFlags m f).getLsbD n = (m.getLsbD n || f.getLsbD n) := by
  cases h : decide (n < 32)
  · have hn : 32 ≤ n := by simpa using h
    simp only [BitVec.getLsbD_of_ge _ n hn, BitVec.getLsbD_of_ge f n (by omega), Bool.or_false]
  · simp only [orFlags, BitVec.getLsbD_or, BitVec.getLsbD_setWidth, h, Bool.true_and]

theorem orFlags_zero (m : BitVec 32) : orFlags m 0#6 = m := by simp [orFlags]

/-! ## No element raises ZE (40_fma_element.md rule R80) -/

/-- A flag stays clear where it is added under a condition. -/
theorem getLsbD_flagIf (p : Bool) (f : BitVec 6) (n : Nat) (h : f.getLsbD n = false) : (flagIf p f).getLsbD n = false := by
  cases p
  · exact BitVec.getLsbD_zero
  · exact h

/-- Rounding adds only `OE`, `UE` and `PE` to the flags it is given. -/
theorem roundSum_flags_ze (rc : RoundingMode) (ftz : Bool) (f : BitVec 6) (x : Int) (hf : f.getLsbD 2 = false) :
    (roundSum rc ftz f x).flags.getLsbD 2 = false := by
  have hor : ∀ g : BitVec 6, g.getLsbD 2 = false → (f ||| g).getLsbD 2 = false := fun g hg => by
    rw [BitVec.getLsbD_or, hf, hg, Bool.or_false]
  unfold roundSum
  dsimp only
  split
  · rw [BitVec.or_assoc]
    exact hor _ (by decide)
  · split
    · split
      · rw [BitVec.or_assoc]
        exact hor _ (by decide)
      · exact hor _ (getLsbD_flagIf _ _ _ (by decide))
    · exact hor _ (getLsbD_flagIf _ _ _ (by decide))

theorem finiteSum_flags_ze (rc : RoundingMode) (ftz : Bool) (f : BitVec 6) (a b c : Quad) (hf : f.getLsbD 2 = false) :
    (finiteSum rc ftz f a b c).flags.getLsbD 2 = false := by
  unfold finiteSum
  dsimp only
  split
  · exact hf
  · exact roundSum_flags_ze rc ftz f _ hf

theorem fmaNumbers_flags_ze (rc : RoundingMode) (ftz : Bool) (a b c : Quad) :
    (fmaNumbers rc ftz a b c).flags.getLsbD 2 = false := by
  have hde : ∀ p, (flagIf p flagDE).getLsbD 2 = false := fun p => getLsbD_flagIf p _ _ (by decide)
  unfold fmaNumbers
  dsimp only
  split
  · decide
  · split
    · exact hde _
    · split
      · exact hde _
      · exact finiteSum_flags_ze rc ftz _ a b c (hde _)

theorem fmaElem_flags_ze (rc : RoundingMode) (daz ftz neg : Bool) (a b c : Quad) :
    (fmaElem rc daz ftz neg a b c).flags.getLsbD 2 = false := by
  unfold fmaElem fmaConditioned
  split
  · exact getLsbD_flagIf _ _ _ (by decide)
  · exact fmaNumbers_flags_ze rc ftz _ _ _

theorem formFma_flags_ze (s : State) (form : FmaForm) (rc : RoundingMode) (d s2 s3 : Nat → Quad) (j : Nat) :
    (s.formFma form rc d s2 s3 j).flags.getLsbD 2 = false := by
  cases form <;> exact fmaElem_flags_ze _ _ _ _ _ _ _

theorem instrElement_flags_ze (s : State) (i : Instr) (j : Nat) : (s.instrElement i j).flags.getLsbD 2 = false := by
  cases ho : instrOperands i <;> simp only [State.instrElement, ho, formFma_flags_ze]

/-- A flag is in the union where some active element raises it. -/
theorem getLsbD_flagsBelow (n : Nat) (active : Nat → Bool) (e : Nat → FmaResult) (b : Nat) :
    (flagsBelow n active e).getLsbD b = (List.range n).any fun j => active j && (e j).flags.getLsbD b := by
  induction n with
  | zero => exact BitVec.getLsbD_zero
  | succ n ih =>
    have hstep : flagsBelow (n + 1) active e =
        if active n then flagsBelow n active e ||| (e n).flags else flagsBelow n active e := by
      simp only [flagsBelow, List.range_succ, List.foldl_append, List.foldl_cons, List.foldl_nil]
    rw [hstep, List.range_succ, List.any_append, ← ih]
    cases ha : active n <;> simp [ha]

/-! ## The flags an instruction raises -/

/-- The flags that an instruction ORs into `MXCSR` when it completes: those its active elements raise, and none under
embedded rounding (42_vfmsubadd_evex.md rules R110 step 7, R114). -/
def State.instrFlags (s : State) (i : Instr) : BitVec 6 :=
  if (instrRounding i).isSome then 0#6
  else flagsBelow (instrVecLen i).elements (s.instrActive i) (s.instrElement i)

theorem instrFlags_ze (s : State) (i : Instr) : (s.instrFlags i).getLsbD 2 = false := by
  unfold State.instrFlags
  split
  · exact BitVec.getLsbD_zero
  · simp only [getLsbD_flagsBelow, instrElement_flags_ze, Bool.and_false, List.any_eq_false, Bool.false_eq_true,
      not_false_eq_true, implies_true]

/-- An instruction of VEX operands raises the flags of all its elements. -/
theorem instrFlags_vex (s : State) (i : Instr) (o : VexOperands) (ho : instrOperands i = .inl o) :
    s.instrFlags i = flagsBelow (instrVecLen i).elements (fun _ => true) (s.instrElement i) := by
  have ha : s.instrActive i = fun _ => true := funext fun j => by simp only [State.instrActive, ho]
  simp [State.instrFlags, instrRounding, ho, ha]

/-- An instruction of EVEX operands raises those of the elements its writemask selects, unless it rounds by itself. -/
theorem instrFlags_evex (s : State) (i : Instr) (o : EvexOperands EvexRm512) (ho : instrOperands i = .inr o) :
    s.instrFlags i = if (embeddedRounding o.src3).isSome then 0#6
      else flagsBelow (instrVecLen i).elements (s.active o.aaa) (s.instrElement i) := by
  have ha : s.instrActive i = s.active o.aaa := funext fun j => by simp only [State.instrActive, ho]
  simp only [State.instrFlags, instrRounding, ho, ha]

/-! ## The next state of an instruction -/

/-- Where reading `SRC3` ends the step, the step does not go on. -/
theorem readVexSource_ne_next (s t : State) (vl : VecLen) (o : VexOperands) : s.readVexSource vl o ≠ .stops (.next t) := by
  intro h
  rcases readVexSource_stops s vl o _ h with ⟨x, hx⟩ | hr
  · exact raise_ne_next x s t hx.symm
  · exact nomatch hr

theorem readEvexSource_ne_next (s t : State) (vl : VecLen) (o : EvexOperands EvexRm512) :
    s.readEvexSource vl o ≠ .stops (.next t) := by
  intro h
  rcases readEvexSource_stops s vl o _ h with ⟨x, hx⟩ | hr
  · exact raise_ne_next x s t hx.symm
  · exact nomatch hr

/-- The last steps, where they go on: the destination, the flags `e` has for the active elements, the program counter. -/
theorem complete_next (vl : VecLen) (c : Controls) (active : Nat → Bool) (dest : EvexReg) (d : Vec)
    (elem e : Nat → FmaResult) (len : Nat) (s t : State)
    (he : ∀ j, j < vl.elements → active j = true → elem j = e j)
    (h : complete vl c active dest d elem len s = .next t) :
    ∃ v, t = { s.setVec dest v with
      mxcsr := orFlags s.mxcsr (if c.sae then 0#6 else flagsBelow vl.elements active e)
      rip   := s.nextRip len } := by
  rcases complete_cases _ _ _ _ _ _ _ _ _ h with ⟨_, _, hx⟩ | ⟨_, hn⟩
  · exact absurd hx.symm (raise_ne_next _ s t)
  · rw [unionFlags_eq_flagsBelow vl active elem e he] at hn
    rw [apply_ite (orFlags s.mxcsr), orFlags_zero]
    exact ⟨_, Host.Outcome.next.inj hn⟩

/-- Rule R23, as the whole next state: an instruction that completes writes its destination, ORs its flags into `MXCSR` and
advances the program counter. -/
theorem exec_next (i : Instr) (s t : State) (h : exec i s = .next t) :
    ∃ v, t = { s.setVec (instrDest i) v with
      mxcsr := orFlags s.mxcsr (s.instrFlags i)
      rip   := s.nextRip (instrLength i) } := by
  rcases exec_view i with ⟨o, ho, hexec, hlen, _⟩ | ⟨o, ho, hexec, hlen⟩
  · have hdest : instrDest i = vexNumber o.dest := by simp only [instrDest, ho]
    rw [hexec] at h
    rw [hdest, hlen, instrFlags_vex s i o ho]
    rcases executeVex_cases _ _ o s _ h with ⟨_, hx⟩ | ⟨_, _, hx⟩ | ⟨_, _, hstop | ⟨s3, hs3, hc⟩⟩
    · exact absurd hx.symm (raise_ne_next _ s t)
    · exact absurd hx.symm (raise_ne_next _ s t)
    · exact absurd hstop (readVexSource_ne_next s t _ o)
    · obtain ⟨v, hv, hval⟩ := readVexSource_value s _ o (vexReadable_of_value s _ o s3 hs3)
      obtain rfl : s3 = v := SourceRead.value.inj (hs3.symm.trans hv)
      refine complete_next _ _ _ _ _ _ _ _ s t (fun j hj _ => ?_) hc.symm
      simp only [State.instrElement, ho, fmaElement_eq_formFma s _ _ _ _ s3 _ j (hval j hj)]
  · have hdest : instrDest i = o.dest := by simp only [instrDest, ho]
    rw [hexec] at h
    rw [hdest, hlen, instrFlags_evex s i o ho]
    rcases executeEvex_cases _ _ o s _ h with ⟨_, hx⟩ | ⟨_, _, hx⟩ | ⟨_, _, hstop | ⟨s3, hs3, hc⟩⟩
    · exact absurd hx.symm (raise_ne_next _ s t)
    · exact absurd hx.symm (raise_ne_next _ s t)
    · exact absurd hstop (readEvexSource_ne_next s t _ o)
    · obtain ⟨v, hv, hval⟩ := readEvexSource_value s _ o (evexReadable_of_value s _ o s3 hs3)
      obtain rfl : s3 = v := SourceRead.value.inj (hs3.symm.trans hv)
      refine complete_next _ _ _ _ _ _ _ _ s t (fun j hj ha => ?_) hc.symm
      simp only [State.instrElement, ho, fmaElement_eq_formFma s _ _ _ _ s3 _ j (hval j hj ha)]

/-- Settles O25: every field is read off the next state of `exec_next`; `ZE` is kept since no element raises it. -/
theorem completedInstrFrame : Obligations.CompletedInstrFrame := by
  intro i s t h
  obtain ⟨v, rfl⟩ := exec_next i s t h
  refine ⟨fun n hn => State.vec_setVec_other s (instrDest i) v n hn, rfl, rfl, rfl, rfl, rfl, rfl, rfl, rfl, rfl, rfl, rfl,
    rfl, rfl, fun _ => rfl, ?flags, ?upper, ?ze⟩
  case flags => exact mxcsrFlags_orFlags s.mxcsr (s.instrFlags i)
  case upper => exact upper_orFlags s.mxcsr (s.instrFlags i)
  case ze => rw [getLsbD_orFlags_eq_or, instrFlags_ze, Bool.or_false]

end Sys2Proof.Machine
end

section
/-! Proofs/Memory.lean: no step writes memory (20_memory.md rule R37). A step that goes on is `exec_next`; a step that faults
is an exception that the shared operation raises (`step_fault`). -/

namespace Sys2Proof.Machine

/-- A step that faults ends in an exception of 60_exceptions.md rule R130, raised in the state before it. -/
theorem step_fault (s : State) (f : Fault) (h : step s = .fault f) : ∃ x, raise x s = .fault f := by
  rcases step_cases s with ⟨x, hx⟩ | ⟨q, hq⟩ | ⟨i, e, g, _, hn⟩
  · exact ⟨x, hx.symm.trans h⟩
  · exact nomatch hq.symm.trans h
  · exact nomatch hn.symm.trans h

theorem raise_after_mem (x : Exception) (s : State) (f : Fault) (h : raise x s = .fault f) : f.after.mem = s.mem := by
  obtain ⟨f', hf', c, g, d, hafter⟩ := raise_after x s
  obtain rfl : f' = f := Host.Outcome.fault.inj (hf'.symm.trans h)
  rw [hafter]

/-- Rule R23: memory is no part of what an instruction that completes writes. -/
theorem exec_next_mem (i : Instr) (s t : State) (h : exec i s = .next t) : t.mem = s.mem := by
  obtain ⟨v, rfl⟩ := exec_next i s t h
  exact State.setVec_mem s (instrDest i) v

/-- Settles O26: a step goes on only by an instruction that completes, and faults only by the shared operation. -/
theorem neverWritesMemory : Obligations.NeverWritesMemory := by
  intro s
  refine ⟨fun t hnext => ?next, fun f hfault => ?fault⟩
  case next =>
    obtain ⟨i, _, hexec⟩ := step_next s t hnext
    exact exec_next_mem i s t hexec
  case fault =>
    obtain ⟨x, hx⟩ := step_fault s f hfault
    exact raise_after_mem x s f hx

end Sys2Proof.Machine
end

section
/-! Proofs/Decode.lean: the decoder, part by part, in the order of Sys2Proof/Decode.lean (30_encoding.md rule R70): the fields
of a byte under a mask, the permitted prefixes, `SRC3`, and what the fifteen-byte limit lets through. -/

namespace Sys2Proof

open Machine

/-! ## Fields of a byte -/

/-- A field that a mask covers whole is read off the masked byte. -/
theorem extractLsb'_of_and {w s n : Nat} {x mask v : BitVec w} (h : x &&& mask = v)
    (hmask : mask.extractLsb' s n = BitVec.allOnes n) : x.extractLsb' s n = v.extractLsb' s n := by
  rw [← h, BitVec.extractLsb'_and, hmask, BitVec.and_allOnes]

/-- Flipping bits outside a field leaves the field. -/
theorem extractLsb'_xor_of_zero {w s n : Nat} (x flip : BitVec w) (h : flip.extractLsb' s n = 0#n) :
    (x ^^^ flip).extractLsb' s n = x.extractLsb' s n := by
  rw [BitVec.extractLsb'_xor, h, BitVec.xor_zero]

theorem getLsbD_eq_true_iff {w : Nat} (x : BitVec w) (i : Nat) : x.getLsbD i = true ↔ x.extractLsb' i 1 = 1#1 := by
  rw [BitVec.getLsbD_eq_extractLsb', beq_iff_eq]

theorem getLsbD_eq_false_iff {w : Nat} (x : BitVec w) (i : Nat) : x.getLsbD i = false ↔ x.extractLsb' i 1 = 0#1 := by
  rw [BitVec.getLsbD_eq_extractLsb', beq_eq_false_iff_ne]
  generalize x.extractLsb' i 1 = b
  revert b
  decide

/-- A field with a bit set is not zero. -/
theorem extractLsb'_ne_zero_of_getLsbD {w : Nat} (x : BitVec w) (s n i : Nat) (hi : i < n)
    (h : x.getLsbD (s + i) = true) : x.extractLsb' s n ≠ 0#n := by
  intro hzero
  have hbit := congrArg (·.getLsbD i) hzero
  simp [hi, h] at hbit

/-- A byte masked to one field, said of the field. -/
theorem and_field_eq_iff (x : Byte) (s n : Nat) (v : BitVec n) (hsn : s + n ≤ 8) :
    x &&& (BitVec.allOnes n).setWidth 8 <<< s = v.setWidth 8 <<< s ↔ x.extractLsb' s n = v := by
  constructor
  · intro h
    refine BitVec.eq_of_getLsbD_eq fun i hi => ?_
    have hbit := congrArg (·.getLsbD (s + i)) h
    have hlt : s + i < 8 := by omega
    have hi8 : i < 8 := by omega
    simpa [BitVec.getLsbD_extractLsb', hi, hlt, hi8] using hbit
  · rintro rfl
    refine BitVec.eq_of_getLsbD_eq fun i hi => ?_
    by_cases hs : s ≤ i
    · have hsub : s + (i - s) = i := by omega
      by_cases hin : i - s < n <;> simp [BitVec.getLsbD_extractLsb', hi, hin, hsub, Bool.and_comm]
    · simp [hi, Nat.lt_of_not_le hs]

/-- The register form of ModRM (30_encoding.md rule R50). -/
theorem mod_eq_three_iff (modrm : Byte) : modrm &&& 0xC0#8 = 0xC0#8 ↔ modrm.extractLsb' 6 2 = 3#2 :=
  and_field_eq_iff modrm 6 2 3#2 (by decide)

theorem rm_eq_four_iff (modrm : Byte) : modrm &&& 0x07#8 = 0x04#8 ↔ modrm.extractLsb' 0 3 = 4#3 :=
  and_field_eq_iff modrm 0 3 4#3 (by decide)

theorem aaa_eq_zero_iff (p2 : Byte) : p2 &&& 0x07#8 = 0#8 ↔ p2.extractLsb' 0 3 = 0#3 :=
  and_field_eq_iff p2 0 3 0#3 (by decide)

/-! ## Step (1): the permitted prefixes -/

/-- The scan stops at the first byte that is none of the prefixes. -/
theorem scanPrefixes_stop (m : DecodeMode) (b : Byte) (rest : List Byte) (p : PrefixScan) (h : isPrefix m b = false) :
    scanPrefixes m (b :: rest) p = (p, b :: rest) := by
  simp only [isPrefix, Bool.or_eq_false_iff, Option.isSome_eq_false_iff, Option.isNone_iff_eq_none,
    beq_eq_false_iff_ne] at h
  obtain ⟨⟨hseg, haddr⟩, hforbidden⟩ := h
  simp [scanPrefixes, hseg, haddr, hforbidden]

@[simp] theorem segPrefix_segByte (g : SegName) : segPrefix (segByte g) = some g := by cases g <;> rfl

theorem scanPrefixes_segByte (m : DecodeMode) (g : SegName) (rest : List Byte) (p : PrefixScan) :
    scanPrefixes m (segByte g :: rest) p =
      scanPrefixes m rest { p with pre := { p.pre with seg := some g }, repeated := p.repeated || p.pre.seg.isSome } := by
  rw [scanPrefixes, segPrefix_segByte]

theorem scanPrefixes_addrSize (m : DecodeMode) (rest : List Byte) (p : PrefixScan) :
    scanPrefixes m (0x67#8 :: rest) p =
      scanPrefixes m rest { p with pre := { p.pre with addrSize := true }, repeated := p.repeated || p.pre.addrSize } := rfl

/-- The scan reads back the prefixes that the encoder writes, none of them repeated or forbidden. -/
theorem scanPrefixes_encodePrefixes (m : DecodeMode) (pre : Prefixes) (b : Byte) (rest : List Byte)
    (h : isPrefix m b = false) :
    scanPrefixes m (encodePrefixes pre ++ b :: rest) ⟨noPrefix, false, false⟩ = (⟨pre, false, false⟩, b :: rest) := by
  obtain ⟨seg, addrSize⟩ := pre
  cases seg <;> cases addrSize <;>
    simp [encodePrefixes, scanPrefixes_segByte, scanPrefixes_addrSize, scanPrefixes_stop m b rest _ h, noPrefix]

theorem prefixLength_le (pre : Prefixes) : prefixLength pre ≤ 2 := by
  unfold prefixLength
  split <;> split <;> decide

/-! ## Steps (2) and (3): which of the two prefixes -/

theorem decodeBody_vex (m : DecodeMode) (pre : Prefixes) (rest : List Byte) :
    decodeBody m (encodePrefixes pre ++ 0xC4#8 :: rest) = decodeVex m ⟨pre, false, false⟩ rest := by
  rw [decodeBody, scanPrefixes_encodePrefixes m pre _ _ (by cases m <;> decide)]
  rfl

theorem decodeBody_evex (m : DecodeMode) (pre : Prefixes) (rest : List Byte) :
    decodeBody m (encodePrefixes pre ++ 0x62#8 :: rest) = decodeEvex m ⟨pre, false, false⟩ rest := by
  rw [decodeBody, scanPrefixes_encodePrefixes m pre _ _ (by cases m <;> decide)]
  rfl

/-- In `Long64` every byte after `C4H` is payload, for there is no `LES`. -/
theorem decodeVex_long64 (p : PrefixScan) (b1 : Byte) (rest : List Byte) :
    decodeVex .long64 p (b1 :: rest) = decodeVexTail .long64 p b1 rest := rfl

theorem decodeEvex_long64 (p : PrefixScan) (p0 : Byte) (rest : List Byte) :
    decodeEvex .long64 p (p0 :: rest) = decodeEvexTail .long64 p p0 rest := rfl

/-! ## The opcode -/

theorem opcodeForm_of_mem (op : Byte) (h : op ∈ [0x97#8, 0xA7#8, 0xB7#8]) : ∃ form, opcodeForm op = some form := by
  simp only [List.mem_cons, List.not_mem_nil, or_false] at h
  rcases h with rfl | rfl | rfl
  · exact ⟨.f132, rfl⟩
  · exact ⟨.f213, rfl⟩
  · exact ⟨.f231, rfl⟩

/-! ## `SRC3`: one equation for each kind of row of rule R54 -/

theorem takeDisp_four (mod : BitVec 2) (rest : List Byte) (hzero : mod ≠ 0#2) (hone : mod ≠ 1#2) :
    takeDisp mod rest = (takeDisp32 rest).map .disp32 :=
  (if_neg hzero).trans (if_neg hone)

/-- The sizes of a displacement. -/
theorem disp_cases (mod : BitVec 2) : mod = 0#2 ∨ mod = 1#2 ∨ (mod ≠ 0#2 ∧ mod ≠ 1#2) := by
  tauto

theorem takeSib_noBase (x b : BitVec 1) (mod : BitVec 2) (sib : Byte) (rest : List Byte)
    (h : mod = 0#2 ∧ sib.extractLsb' 0 3 = 5#3) :
    takeSib x b mod (sib :: rest) =
      (takeDisp32 rest).map (.sibNoBase (sib.extractLsb' 6 2) (x ++ sib.extractLsb' 3 3)) := if_pos h

theorem takeSib_base (x b : BitVec 1) (mod : BitVec 2) (sib : Byte) (rest : List Byte)
    (h : ¬ (mod = 0#2 ∧ sib.extractLsb' 0 3 = 5#3)) :
    takeSib x b mod (sib :: rest) =
      (takeDisp mod rest).map (.sib (sib.extractLsb' 6 2) (x ++ sib.extractLsb' 3 3) (b ++ sib.extractLsb' 0 3)) :=
  if_neg h

theorem takeRm_reg (x b : BitVec 1) (modrm : Byte) (rest : List Byte) (hmod : modrm.extractLsb' 6 2 = 3#2) :
    takeRm x b modrm rest = some (.reg (modrm.extractLsb' 0 3)) := if_pos hmod

theorem takeRm_sib (x b : BitVec 1) (modrm : Byte) (rest : List Byte) (hmod : modrm.extractLsb' 6 2 ≠ 3#2)
    (hrm : modrm.extractLsb' 0 3 = 4#3) :
    takeRm x b modrm rest = (takeSib x b (modrm.extractLsb' 6 2) rest).map .mem := by
  rw [takeRm, if_neg hmod, if_pos hrm]

theorem takeRm_disp32 (x b : BitVec 1) (modrm : Byte) (rest : List Byte) (hmod : modrm.extractLsb' 6 2 = 0#2)
    (hrm : modrm.extractLsb' 0 3 = 5#3) :
    takeRm x b modrm rest = (takeDisp32 rest).map fun d => .mem (.disp32 d) := by
  rw [takeRm, if_neg (by rw [hmod]; decide), if_neg (by rw [hrm]; decide), if_pos ⟨hmod, hrm⟩]

theorem takeRm_base (x b : BitVec 1) (modrm : Byte) (rest : List Byte) (hmod : modrm.extractLsb' 6 2 ≠ 3#2)
    (hrm : modrm.extractLsb' 0 3 ≠ 4#3) (h : ¬ (modrm.extractLsb' 6 2 = 0#2 ∧ modrm.extractLsb' 0 3 = 5#3)) :
    takeRm x b modrm rest =
      (takeDisp (modrm.extractLsb' 6 2) rest).map fun d => .mem (.base (b ++ modrm.extractLsb' 0 3) d) := by
  rw [takeRm, if_neg hmod, if_neg hrm, if_neg h]

/-- The four kinds of row. -/
theorem modrm_cases (modrm : Byte) :
    modrm.extractLsb' 6 2 = 3#2 ∨
    (modrm.extractLsb' 6 2 ≠ 3#2 ∧ modrm.extractLsb' 0 3 = 4#3) ∨
    (modrm.extractLsb' 6 2 = 0#2 ∧ modrm.extractLsb' 0 3 = 5#3) ∨
    (modrm.extractLsb' 6 2 ≠ 3#2 ∧ modrm.extractLsb' 0 3 ≠ 4#3 ∧
      ¬ (modrm.extractLsb' 6 2 = 0#2 ∧ modrm.extractLsb' 0 3 = 5#3)) := by
  tauto

/-- A memory form names no register for `SRC3`. -/
theorem takeRm_ne_reg (x b : BitVec 1) (modrm : Byte) (rest : List Byte) (r : BitVec 3)
    (hmod : modrm.extractLsb' 6 2 ≠ 3#2) : takeRm x b modrm rest ≠ some (.reg r) := by
  rcases modrm_cases modrm with hreg | ⟨_, hrm⟩ | ⟨hzero, hrm⟩ | ⟨_, hrm, hbase⟩
  · exact absurd hreg hmod
  · simp [takeRm_sib x b modrm rest hmod hrm]
  · simp [takeRm_disp32 x b modrm rest hzero hrm]
  · simp [takeRm_base x b modrm rest hmod hrm hbase]

/-! ### Five bytes are enough -/

theorem takeDisp32_total (rest : List Byte) (h : 4 ≤ rest.length) : ∃ d, takeDisp32 rest = some d := by
  match rest, h with
  | _ :: _ :: _ :: _ :: _, _ => exact ⟨_, rfl⟩

theorem takeDisp_total (mod : BitVec 2) (rest : List Byte) (h : 4 ≤ rest.length) : ∃ d, takeDisp mod rest = some d := by
  rcases disp_cases mod with rfl | rfl | ⟨hzero, hone⟩
  · exact ⟨.none, rfl⟩
  · match rest, h with
    | d :: _, _ => exact ⟨.disp8 d, rfl⟩
  · obtain ⟨d, hd⟩ := takeDisp32_total rest h
    exact ⟨.disp32 d, by rw [takeDisp_four mod rest hzero hone, hd, Option.map_some]⟩

theorem takeSib_total (x b : BitVec 1) (mod : BitVec 2) (rest : List Byte) (h : 5 ≤ rest.length) :
    ∃ a, takeSib x b mod rest = some a := by
  match rest, h with
  | sib :: rest, h =>
    have hrest : 4 ≤ rest.length := Nat.le_of_succ_le_succ h
    by_cases hbase : mod = 0#2 ∧ sib.extractLsb' 0 3 = 5#3
    · obtain ⟨d, hd⟩ := takeDisp32_total rest hrest
      exact ⟨_, by rw [takeSib_noBase x b mod sib rest hbase, hd, Option.map_some]⟩
    · obtain ⟨d, hd⟩ := takeDisp_total mod rest hrest
      exact ⟨_, by rw [takeSib_base x b mod sib rest hbase, hd, Option.map_some]⟩

/-- A memory form is complete with five bytes after ModRM: a SIB byte and a displacement. -/
theorem takeRm_mem (x b : BitVec 1) (modrm : Byte) (rest : List Byte) (hmod : modrm.extractLsb' 6 2 ≠ 3#2)
    (h : 5 ≤ rest.length) : ∃ a, takeRm x b modrm rest = some (.mem a) := by
  have hrest : 4 ≤ rest.length := Nat.le_of_succ_le h
  rcases modrm_cases modrm with hreg | ⟨_, hrm⟩ | ⟨hzero, hrm⟩ | ⟨_, hrm, hbase⟩
  · exact absurd hreg hmod
  · obtain ⟨a, ha⟩ := takeSib_total x b (modrm.extractLsb' 6 2) rest h
    exact ⟨a, by rw [takeRm_sib x b modrm rest hmod hrm, ha, Option.map_some]⟩
  · obtain ⟨d, hd⟩ := takeDisp32_total rest hrest
    exact ⟨.disp32 d, by rw [takeRm_disp32 x b modrm rest hzero hrm, hd, Option.map_some]⟩
  · obtain ⟨d, hd⟩ := takeDisp_total (modrm.extractLsb' 6 2) rest hrest
    exact ⟨_, by rw [takeRm_base x b modrm rest hmod hrm hbase, hd, Option.map_some]⟩

theorem takeRm_total (x b : BitVec 1) (modrm : Byte) (rest : List Byte) (h : 5 ≤ rest.length) :
    ∃ rm, takeRm x b modrm rest = some rm := by
  by_cases hmod : modrm.extractLsb' 6 2 = 3#2
  · exact ⟨_, takeRm_reg x b modrm rest hmod⟩
  · obtain ⟨a, ha⟩ := takeRm_mem x b modrm rest hmod h
    exact ⟨_, ha⟩

/-! ### Bytes after a complete operand are not read -/

theorem takeDisp32_append (rest tail : List Byte) (d : BitVec 32) (h : takeDisp32 rest = some d) :
    takeDisp32 (rest ++ tail) = some d := by
  match rest, h with
  | _ :: _ :: _ :: _ :: _, h => exact h

theorem takeDisp_append (mod : BitVec 2) (rest tail : List Byte) (d : Disp) (h : takeDisp mod rest = some d) :
    takeDisp mod (rest ++ tail) = some d := by
  rcases disp_cases mod with rfl | rfl | ⟨hzero, hone⟩
  · exact h
  · match rest, h with
    | _ :: _, h => exact h
  · rw [takeDisp_four mod _ hzero hone] at h ⊢
    obtain ⟨e, he, rfl⟩ := Option.map_eq_some_iff.mp h
    rw [takeDisp32_append rest tail e he, Option.map_some]

theorem takeSib_append (x b : BitVec 1) (mod : BitVec 2) (rest tail : List Byte) (a : AddrForm)
    (h : takeSib x b mod rest = some a) : takeSib x b mod (rest ++ tail) = some a := by
  match rest, h with
  | sib :: rest, h =>
    rw [List.cons_append]
    by_cases hbase : mod = 0#2 ∧ sib.extractLsb' 0 3 = 5#3
    · rw [takeSib_noBase x b mod sib _ hbase] at h ⊢
      obtain ⟨d, hd, rfl⟩ := Option.map_eq_some_iff.mp h
      rw [takeDisp32_append rest tail d hd, Option.map_some]
    · rw [takeSib_base x b mod sib _ hbase] at h ⊢
      obtain ⟨d, hd, rfl⟩ := Option.map_eq_some_iff.mp h
      rw [takeDisp_append mod rest tail d hd, Option.map_some]

theorem takeRm_append (x b : BitVec 1) (modrm : Byte) (rest tail : List Byte) (rm : RmField)
    (h : takeRm x b modrm rest = some rm) : takeRm x b modrm (rest ++ tail) = some rm := by
  rcases modrm_cases modrm with hmod | ⟨hmod, hrm⟩ | ⟨hmod, hrm⟩ | ⟨hmod, hrm, hbase⟩
  · rwa [takeRm_reg x b modrm _ hmod] at h ⊢
  · rw [takeRm_sib x b modrm _ hmod hrm] at h ⊢
    obtain ⟨a, ha, rfl⟩ := Option.map_eq_some_iff.mp h
    rw [takeSib_append x b _ rest tail a ha, Option.map_some]
  · rw [takeRm_disp32 x b modrm _ hmod hrm] at h ⊢
    obtain ⟨d, hd, rfl⟩ := Option.map_eq_some_iff.mp h
    rw [takeDisp32_append rest tail d hd, Option.map_some]
  · rw [takeRm_base x b modrm _ hmod hrm hbase] at h ⊢
    obtain ⟨d, hd, rfl⟩ := Option.map_eq_some_iff.mp h
    rw [takeDisp_append _ rest tail d hd, Option.map_some]

/-! ## Refusals of a form -/

/-- In `Long64` no extension bit is refused (rule R68 (c) is of the 32-bit modes). -/
theorem refusalOf_long64 (p : PrefixScan) (extension : Bool) :
    refusalOf .long64 p extension = if p.repeated then some .repeatedPrefix else none := by
  simp [refusalOf]

/-! ## The limit of fifteen bytes (rule R57) -/

/-- Where a form or a #UD is told from at most fifteen bytes, whatever follows them, the decoder tells it. -/
theorem decode_eq_of_prefix (m : DecodeMode) (head bytes : List Byte) (v : Verdict) (hhead : head <+: bytes)
    (hlen : head.length ≤ maxLength) (hbody : ∀ tail, decodeBody m (head ++ tail) = v) (hshort : v ≠ .tooShort)
    (hincomplete : v ≠ .incomplete) : decode m bytes = v := by
  obtain ⟨tail, rfl⟩ := hhead
  have hfits : fitsLimit m (head ++ tail) = true := by
    simp [fitsLimit, List.take_append, List.take_of_length_le hlen, hbody, hshort, hincomplete]
  unfold decode
  rw [hbody tail]
  cases v with
  | tooShort => exact absurd rfl hshort
  | incomplete => exact absurd rfl hincomplete
  | _ => simp [hfits]

/-- The verdict rests on all the bytes, on the first fifteen, and on whether there are fifteen. -/
theorem decode_congr (m : DecodeMode) (bytes bytes' : List Byte) (hlen : bytes.length = bytes'.length)
    (hbody : decodeBody m bytes = decodeBody m bytes')
    (htake : decodeBody m (bytes.take maxLength) = decodeBody m (bytes'.take maxLength)) :
    decode m bytes = decode m bytes' := by
  have hfits : fitsLimit m bytes = fitsLimit m bytes' := by simp only [fitsLimit, htake]
  have hfull : (bytes.take maxLength).length = (bytes'.take maxLength).length := by
    rw [List.length_take, List.length_take, hlen]
  unfold decode
  rw [hbody, hfits, hfull]

/-! ## The examples of rule R79 -/

/-- Settles O1: the decoder run on the two encodings of rule R79. -/
theorem exampleWordsDecode : Obligations.ExampleWordsDecode := ⟨by decide, by decide⟩

end Sys2Proof
end

section
/-! Proofs/EvexBits.lean: what the payload bits of EVEX decide in `Long64` (30_encoding.md rules R62 to R64): one verdict
for every row of the group (`evexVerdict`), what each kind of bits makes of it, and the step that takes it. -/

namespace Sys2Proof

open Machine

/-! ## The rows of the group -/

/-- The bytes select an EVEX row of rule R58 with this operand order, by opcode, map, `pp` and `W`. -/
structure EvexRow (form : FmaForm) (p0 p1 op : Byte) : Prop where
  opcode : opcodeForm op = some form
  map    : p0.extractLsb' 0 2 = 2#2
  pp     : p1.extractLsb' 0 2 = 1#2
  w      : p1.extractLsb' 7 1 = 1#1

theorem exists_evexRow (p0 p1 op : Byte) (hop : op ∈ [0x97#8, 0xA7#8, 0xB7#8]) (hp0 : p0 &&& 0x03#8 = 0x02#8)
    (hp1 : p1 &&& 0x83#8 = 0x81#8) : ∃ form, EvexRow form p0 p1 op := by
  obtain ⟨form, hform⟩ := opcodeForm_of_mem op hop
  exact ⟨form, hform, extractLsb'_of_and hp0 (by decide), extractLsb'_of_and hp1 (by decide),
    extractLsb'_of_and hp1 (by decide)⟩

/-! ## The row that `b`, `mod` and `L'L` select -/

/-- `L'L = 11` selects no row but in a register form with `b = 1` (rule R64). -/
theorem selectEvex_three (form : FmaForm) (b : Bool) (xb : BitVec 2) (rm : RmField) (o : EvexOperands Unit)
    (h : b = false ∨ ∃ a, rm = .mem a) : selectEvex form b 3#2 xb rm o = .ud := by
  cases rm with
  | mem a => cases b <;> rfl
  | reg r =>
    obtain rfl : b = false := h.resolve_right fun ⟨_, ha⟩ => nomatch ha
    rfl

/-- A register form with `b = 1` has 512 bits and rounds as `L'L` says (rule R51). -/
theorem selectEvex_rounded (form : FmaForm) (ll xb : BitVec 2) (r : BitVec 3) (o : EvexOperands Unit) :
    ∃ i, selectEvex form true ll xb (.reg r) o = .instr i ∧ instrVecLen i = .v512 ∧
      instrRounding i = some (roundingOfBits ll) := by
  refine ⟨_, rfl, ?_⟩
  cases form <;> exact ⟨rfl, rfl⟩

/-- The bytes select a row, or raise #UD. -/
theorem selectEvex_cases (form : FmaForm) (b : Bool) (ll xb : BitVec 2) (rm : RmField) (o : EvexOperands Unit) :
    selectEvex form b ll xb rm o = .ud ∨ ∃ i, selectEvex form b ll xb rm o = .instr i := by
  cases rm with
  | reg r =>
    cases b with
    | true => exact .inr ⟨_, rfl⟩
    | false =>
      simp only [selectEvex]
      split_ifs <;> simp
  | mem a =>
    cases b <;> simp only [selectEvex] <;> split_ifs <;> simp

/-! ## The verdict -/

/-- What the fields of the payload and of ModRM give besides `SRC3` (rules R48 to R52). -/
def evexFields (pre : Prefixes) (p0 p1 p2 modrm : Byte) : EvexOperands Unit where
  pre  := pre
  dest := ~~~p0.extractLsb' 4 1 ++ (~~~p0.extractLsb' 7 1 ++ modrm.extractLsb' 3 3)
  src2 := ~~~p2.extractLsb' 3 1 ++ ~~~p1.extractLsb' 3 4
  aaa  := p2.extractLsb' 0 3
  z    := p2.extractLsb' 7 1 == 1#1
  src3 := ()

/-- The verdict in `Long64` on a row of the group with permitted prefixes, once `SRC3` is complete: the #UD of rule R62, that
of rule R63, then the selection by `b`, `mod` and `L'L`. -/
def evexVerdict (form : FmaForm) (pre : Prefixes) (p0 p1 p2 modrm : Byte) (rm : RmField) : Verdict :=
  if p0.extractLsb' 2 2 ≠ 0#2 ∨ p1.extractLsb' 2 1 ≠ 1#1 then .ud
  else if p2.extractLsb' 7 1 = 1#1 ∧ p2.extractLsb' 0 3 = 0#3 then .ud
  else selectEvex form (p2.extractLsb' 4 1 == 1#1) (p2.extractLsb' 5 2) (~~~p0.extractLsb' 5 2) rm
    (evexFields pre p0 p1 p2 modrm)

section Verdict

variable (form : FmaForm) (pre : Prefixes) (p0 p1 p2 modrm : Byte) (rm : RmField)

theorem evexVerdict_reserved (h : p0.extractLsb' 2 2 ≠ 0#2 ∨ p1.extractLsb' 2 1 ≠ 1#1) :
    evexVerdict form pre p0 p1 p2 modrm rm = .ud := if_pos h

theorem evexVerdict_zeroing (h : p2.extractLsb' 7 1 = 1#1 ∧ p2.extractLsb' 0 3 = 0#3) :
    evexVerdict form pre p0 p1 p2 modrm rm = .ud := by
  rw [evexVerdict, if_pos h, ite_self]

theorem evexVerdict_legal (hreserved : p0.extractLsb' 2 2 = 0#2 ∧ p1.extractLsb' 2 1 = 1#1)
    (hzeroing : p2.extractLsb' 7 1 = 1#1 → p2.extractLsb' 0 3 ≠ 0#3) :
    evexVerdict form pre p0 p1 p2 modrm rm =
      selectEvex form (p2.extractLsb' 4 1 == 1#1) (p2.extractLsb' 5 2) (~~~p0.extractLsb' 5 2) rm
        (evexFields pre p0 p1 p2 modrm) := by
  rw [evexVerdict, if_neg (by simp [hreserved]), if_neg (not_and.mpr hzeroing)]

/-- A #UD, or whatever the selection answers. -/
theorem evexVerdict_cases : evexVerdict form pre p0 p1 p2 modrm rm = .ud ∨
    evexVerdict form pre p0 p1 p2 modrm rm =
      selectEvex form (p2.extractLsb' 4 1 == 1#1) (p2.extractLsb' 5 2) (~~~p0.extractLsb' 5 2) rm
        (evexFields pre p0 p1 p2 modrm) := by
  unfold evexVerdict
  split_ifs
  · exact .inl rfl
  · exact .inl rfl
  · exact .inr rfl

theorem evexVerdict_three (hll : p2.extractLsb' 5 2 = 3#2) (h : p2.extractLsb' 4 1 = 0#1 ∨ ∃ a, rm = .mem a) :
    evexVerdict form pre p0 p1 p2 modrm rm = .ud := by
  rcases evexVerdict_cases form pre p0 p1 p2 modrm rm with hud | hselect
  · exact hud
  · rw [hselect, hll]
    exact selectEvex_three form _ _ rm _ (h.imp_left fun hb => by rw [hb]; rfl)

theorem evexVerdict_instr_or_ud : evexVerdict form pre p0 p1 p2 modrm rm = .ud ∨
    ∃ i, evexVerdict form pre p0 p1 p2 modrm rm = .instr i := by
  rcases evexVerdict_cases form pre p0 p1 p2 modrm rm with hud | hselect
  · exact .inl hud
  · rw [hselect]
    exact selectEvex_cases form _ _ _ rm _

end Verdict

/-! ## The decoder answers the verdict -/

theorem decodeEvex_row (form : FmaForm) (pre : Prefixes) (p0 p1 p2 op modrm : Byte) (rest : List Byte) (rm : RmField)
    (hrow : EvexRow form p0 p1 op)
    (hrm : takeRm (~~~p0.extractLsb' 6 1) (~~~p0.extractLsb' 5 1) modrm rest = some rm) :
    decodeEvex .long64 ⟨pre, false, false⟩ (p0 :: p1 :: p2 :: op :: modrm :: rest) =
      evexVerdict form pre p0 p1 p2 modrm rm := by
  have hlong : isAddressing16 .long64 pre modrm = false := Bool.and_false _
  have hselect := selectEvex_cases form (p2.extractLsb' 4 1 == 1#1) (p2.extractLsb' 5 2) (~~~p0.extractLsb' 5 2) rm
    (evexFields pre p0 p1 p2 modrm)
  unfold evexFields at hselect
  rw [decodeEvex_long64]
  simp only [decodeEvexTail, hrow.opcode, hrow.map, hrow.pp, hrow.w, hrm, hlong, refusalOf_long64, evexVerdict, evexFields]
  rcases hselect with hud | ⟨i, hi⟩
  · simp [hud]
  · simp [hi]

/-- The decoder on bytes that begin with a row of the group and five bytes after ModRM, which complete any operand. -/
theorem decode_evexRow (form : FmaForm) (pre : Prefixes) (p0 p1 p2 op modrm : Byte) (rest bytes : List Byte) (rm : RmField)
    (hrow : EvexRow form p0 p1 op) (hrest : rest.length = 5)
    (hbytes : encodePrefixes pre ++ 0x62#8 :: p0 :: p1 :: p2 :: op :: modrm :: rest <+: bytes)
    (hrm : takeRm (~~~p0.extractLsb' 6 1) (~~~p0.extractLsb' 5 1) modrm rest = some rm) :
    decode .long64 bytes = evexVerdict form pre p0 p1 p2 modrm rm := by
  have hlen : (encodePrefixes pre ++ 0x62#8 :: p0 :: p1 :: p2 :: op :: modrm :: rest).length ≤ maxLength := by
    have hpre := prefixLength_le pre
    simp only [List.length_append, length_encodePrefixes, List.length_cons, hrest, maxLength]
    omega
  obtain ⟨hshort, hincomplete⟩ : evexVerdict form pre p0 p1 p2 modrm rm ≠ .tooShort ∧
      evexVerdict form pre p0 p1 p2 modrm rm ≠ .incomplete := by
    rcases evexVerdict_instr_or_ud form pre p0 p1 p2 modrm rm with h | ⟨i, h⟩ <;> rw [h] <;> exact ⟨nofun, nofun⟩
  refine decode_eq_of_prefix .long64 _ bytes _ hbytes hlen (fun tail => ?_) hshort hincomplete
  rw [List.append_assoc, List.cons_append, decodeBody_evex]
  exact decodeEvex_row form pre p0 p1 p2 op modrm (rest ++ tail) rm hrow (takeRm_append _ _ modrm rest tail rm hrm)

end Sys2Proof

namespace Sys2Proof.Machine

/-! ## The step -/

theorem step_of_decode_ud (s : State) (h : decode s.decodeMode s.fetch = .ud) : step s = .fault (.invalidOpcode s) := by
  rw [step, h]
  rfl

/-- Where the verdict is #UD for whatever `SRC3` the bytes after ModRM give, the step raises it. -/
theorem step_evexRow_ud (s : State) (pre : Prefixes) (p0 p1 p2 op modrm : Byte) (rest : List Byte)
    (hmode : s.decodeMode = .long64) (hrest : rest.length = 5)
    (hfetch : encodePrefixes pre ++ 0x62#8 :: p0 :: p1 :: p2 :: op :: modrm :: rest <+: s.fetch)
    (hop : op ∈ [0x97#8, 0xA7#8, 0xB7#8]) (hp0 : p0 &&& 0x03#8 = 0x02#8) (hp1 : p1 &&& 0x83#8 = 0x81#8)
    (hud : ∀ form rm, takeRm (~~~p0.extractLsb' 6 1) (~~~p0.extractLsb' 5 1) modrm rest = some rm →
      evexVerdict form pre p0 p1 p2 modrm rm = .ud) : step s = .fault (.invalidOpcode s) := by
  obtain ⟨form, hrow⟩ := exists_evexRow p0 p1 op hop hp0 hp1
  obtain ⟨rm, hrm⟩ := takeRm_total (~~~p0.extractLsb' 6 1) (~~~p0.extractLsb' 5 1) modrm rest hrest.ge
  apply step_of_decode_ud
  rw [hmode, decode_evexRow form pre p0 p1 p2 op modrm rest s.fetch rm hrow hrest hfetch hrm, hud form rm hrm]

/-- Settles O7: the verdict on a row looks at the reserved bits first. -/
theorem reservedEvexBitsRaiseUd : Obligations.ReservedEvexBitsRaiseUd := by
  intro s pre p0 p1 p2 op modrm rest hmode hrest hfetch hop hp0 hp1 hreserved
  refine step_evexRow_ud s pre p0 p1 p2 op modrm rest hmode hrest hfetch hop hp0 hp1 fun form rm _ => ?_
  refine evexVerdict_reserved form pre p0 p1 p2 modrm rm ?_
  rcases hreserved with h3 | h2 | h2
  · exact .inl (extractLsb'_ne_zero_of_getLsbD p0 2 2 1 (by decide) h3)
  · exact .inl (extractLsb'_ne_zero_of_getLsbD p0 2 2 0 (by decide) h2)
  · exact .inr fun h => Bool.false_ne_true (h2.symm.trans ((getLsbD_eq_true_iff p1 2).mpr h))

/-- Settles O8: zeroing-masking with no writemask is #UD, be it as rule R62 or as rule R63 has it. -/
theorem zeroingWithoutMaskRaisesUd : Obligations.ZeroingWithoutMaskRaisesUd := by
  intro s pre p0 p1 p2 op modrm rest hmode hrest hfetch hop hp0 hp1 hz haaa
  refine step_evexRow_ud s pre p0 p1 p2 op modrm rest hmode hrest hfetch hop hp0 hp1 fun form rm _ => ?_
  exact evexVerdict_zeroing form pre p0 p1 p2 modrm rm ⟨(getLsbD_eq_true_iff p2 7).mp hz, (aaa_eq_zero_iff p2).mp haaa⟩

/-- Settles O9: `L'L = 11` selects no row in a memory form or with `b = 0`; in a register form with `b = 1` it is the rounding
mode. -/
theorem reservedVectorLengthRaisesUd : Obligations.ReservedVectorLengthRaisesUd := by
  intro s pre p0 p1 p2 op modrm rest hmode hrest hfetch hop hp0 hp1 hp2
  have hll : p2.extractLsb' 5 2 = 3#2 := extractLsb'_of_and hp2 (by decide)
  refine ⟨fun hform => ?noRow, fun hreg hb hp0' hp1' hz => ?rounding⟩
  case noRow =>
    refine step_evexRow_ud s pre p0 p1 p2 op modrm rest hmode hrest hfetch hop hp0 hp1 fun form rm hrm => ?_
    refine evexVerdict_three form pre p0 p1 p2 modrm rm hll ?_
    rcases hform with hmem | hb
    · obtain ⟨a, ha⟩ := takeRm_mem _ _ modrm rest (mt (mod_eq_three_iff modrm).mpr hmem) hrest.ge
      exact .inr ⟨a, Option.some.inj (hrm.symm.trans ha)⟩
    · exact .inl ((getLsbD_eq_false_iff p2 4).mp hb)
  case rounding =>
    obtain ⟨form, hrow⟩ := exists_evexRow p0 p1 op hop hp0 hp1
    have hrm := takeRm_reg (~~~p0.extractLsb' 6 1) (~~~p0.extractLsb' 5 1) modrm rest ((mod_eq_three_iff modrm).mp hreg)
    have hreserved : p0.extractLsb' 2 2 = 0#2 ∧ p1.extractLsb' 2 1 = 1#1 :=
      ⟨extractLsb'_of_and hp0' (by decide), (getLsbD_eq_true_iff p1 2).mp hp1'⟩
    have hzeroing : p2.extractLsb' 7 1 = 1#1 → p2.extractLsb' 0 3 ≠ 0#3 := fun h7 =>
      mt (aaa_eq_zero_iff p2).mpr (hz ((getLsbD_eq_true_iff p2 7).mpr h7))
    have hround : (p2.extractLsb' 4 1 == 1#1) = true := beq_iff_eq.mpr ((getLsbD_eq_true_iff p2 4).mp hb)
    rw [hmode, decode_evexRow form pre p0 p1 p2 op modrm rest s.fetch _ hrow hrest hfetch hrm,
      evexVerdict_legal form pre p0 p1 p2 modrm _ hreserved hzeroing, hround, hll]
    exact selectEvex_rounded form 3#2 _ _ _

end Sys2Proof.Machine
end

section
/-! Proofs/IgnoredBits.lean: the payload bits that reach no operand (30_encoding.md rule R66). Which extension bits `SRC3`
reads is said of `takeRm`; the rest of a verdict reads other fields of the first payload byte. -/

namespace Sys2Proof

open Machine

/-! ## The extension bits that `SRC3` does not read -/

/-- `X` is read only with a SIB byte. -/
theorem takeRm_ignores_x (x x' b : BitVec 1) (modrm : Byte) (rest : List Byte)
    (h : modrm.extractLsb' 6 2 = 3#2 ∨ modrm.extractLsb' 0 3 ≠ 4#3) : takeRm x b modrm rest = takeRm x' b modrm rest := by
  rcases modrm_cases modrm with hmod | ⟨hmod, hrm⟩ | ⟨hmod, hrm⟩ | ⟨hmod, hrm, hbase⟩
  · rw [takeRm_reg x b modrm rest hmod, takeRm_reg x' b modrm rest hmod]
  · exact absurd hrm (h.resolve_left hmod)
  · rw [takeRm_disp32 x b modrm rest hmod hrm, takeRm_disp32 x' b modrm rest hmod hrm]
  · rw [takeRm_base x b modrm rest hmod hrm hbase, takeRm_base x' b modrm rest hmod hrm hbase]

/-- The rows of rule R54 without a base register: RIP-relative, and a SIB byte with `base = 101` under `mod = 00`. -/
def noBaseForm (modrm : Byte) (rest : List Byte) : Prop :=
  modrm.extractLsb' 6 2 = 0#2 ∧ (modrm.extractLsb' 0 3 = 5#3 ∨
    (modrm.extractLsb' 0 3 = 4#3 ∧ ∃ sib tail, rest = sib :: tail ∧ sib.extractLsb' 0 3 = 5#3))

theorem noBaseForm_of_masks (modrm : Byte) (rest : List Byte)
    (h : modrm &&& 0xC7#8 = 0x05#8 ∨
      (modrm &&& 0xC7#8 = 0x04#8 ∧ ∃ sib tail, rest = sib :: tail ∧ sib &&& 0x07#8 = 0x05#8)) : noBaseForm modrm rest := by
  rcases h with h5 | ⟨h4, sib, tail, hrest, hsib⟩
  · exact ⟨extractLsb'_of_and h5 (by decide), .inl (extractLsb'_of_and h5 (by decide))⟩
  · exact ⟨extractLsb'_of_and h4 (by decide), .inr ⟨extractLsb'_of_and h4 (by decide), sib, tail, hrest,
      extractLsb'_of_and hsib (by decide)⟩⟩

theorem noBaseForm_mod (modrm : Byte) (rest : List Byte) (h : noBaseForm modrm rest) : modrm.extractLsb' 6 2 ≠ 3#2 := by
  rw [h.1]
  decide

/-- The form is told from ModRM and one byte more. -/
theorem noBaseForm_take (modrm : Byte) (rest : List Byte) (n : Nat) (hn : 0 < n) (h : noBaseForm modrm rest) :
    noBaseForm modrm (rest.take n) := by
  obtain ⟨hmod, hrm | ⟨hrm, sib, tail, rfl, hsib⟩⟩ := h
  · exact ⟨hmod, .inl hrm⟩
  · exact ⟨hmod, .inr ⟨hrm, sib, tail.take (n - 1), List.take_cons hn, hsib⟩⟩

/-- `B` is not read where there is no base register. -/
theorem takeRm_ignores_b (x b b' : BitVec 1) (modrm : Byte) (rest : List Byte) (h : noBaseForm modrm rest) :
    takeRm x b modrm rest = takeRm x b' modrm rest := by
  have hmem := noBaseForm_mod modrm rest h
  obtain ⟨hmod, hrm | ⟨hrm, sib, tail, rfl, hsib⟩⟩ := h
  · rw [takeRm_disp32 x b modrm rest hmod hrm, takeRm_disp32 x b' modrm rest hmod hrm]
  · rw [takeRm_sib x b modrm _ hmem hrm, takeRm_sib x b' modrm _ hmem hrm,
      takeSib_noBase x b _ sib tail ⟨hmod, hsib⟩, takeSib_noBase x b' _ sib tail ⟨hmod, hsib⟩]

/-! ## What else a verdict reads of the first payload byte -/

/-- Of the first payload byte a VEX form reads the map, `R`, what `SRC3` reads, and `B` in a register form. -/
theorem decodeVex_congr (p : PrefixScan) (b1 b1' b2 op modrm : Byte) (rest : List Byte)
    (hmap : b1'.extractLsb' 0 5 = b1.extractLsb' 0 5) (hr : b1'.extractLsb' 7 1 = b1.extractLsb' 7 1)
    (hrm : takeRm (~~~b1'.extractLsb' 6 1) (~~~b1'.extractLsb' 5 1) modrm rest =
      takeRm (~~~b1.extractLsb' 6 1) (~~~b1.extractLsb' 5 1) modrm rest)
    (hb : modrm.extractLsb' 6 2 = 3#2 → b1'.extractLsb' 5 1 = b1.extractLsb' 5 1) :
    decodeVex .long64 p (b1' :: b2 :: op :: modrm :: rest) = decodeVex .long64 p (b1 :: b2 :: op :: modrm :: rest) := by
  rw [decodeVex_long64, decodeVex_long64]
  simp only [decodeVexTail, hmap, hr, hrm, refusalOf_long64]
  by_cases hmod : modrm.extractLsb' 6 2 = 3#2
  · rw [hb hmod]
  · cases hsrc : takeRm (~~~b1.extractLsb' 6 1) (~~~b1.extractLsb' 5 1) modrm rest with
    | none => rfl
    | some rm =>
      cases rm with
      | reg r => exact absurd hsrc (takeRm_ne_reg _ _ modrm rest r hmod)
      | mem a => rfl

/-- In a memory form the selection does not read `X` and `B`. -/
theorem selectEvex_mem_congr (form : FmaForm) (b : Bool) (ll xb xb' : BitVec 2) (a : AddrForm) (o : EvexOperands Unit) :
    selectEvex form b ll xb (.mem a) o = selectEvex form b ll xb' (.mem a) o := by
  cases b <;> rfl

/-- Of the first payload byte an EVEX memory form reads the map, the reserved bits, `R'`, `R` and what `SRC3` reads. -/
theorem decodeEvex_congr (p : PrefixScan) (p0 p0' p1 p2 op modrm : Byte) (rest : List Byte)
    (hmod : modrm.extractLsb' 6 2 ≠ 3#2)
    (hmap : p0'.extractLsb' 0 2 = p0.extractLsb' 0 2) (hreserved : p0'.extractLsb' 2 2 = p0.extractLsb' 2 2)
    (hr' : p0'.extractLsb' 4 1 = p0.extractLsb' 4 1) (hr : p0'.extractLsb' 7 1 = p0.extractLsb' 7 1)
    (hrm : takeRm (~~~p0'.extractLsb' 6 1) (~~~p0'.extractLsb' 5 1) modrm rest =
      takeRm (~~~p0.extractLsb' 6 1) (~~~p0.extractLsb' 5 1) modrm rest) :
    decodeEvex .long64 p (p0' :: p1 :: p2 :: op :: modrm :: rest) =
      decodeEvex .long64 p (p0 :: p1 :: p2 :: op :: modrm :: rest) := by
  rw [decodeEvex_long64, decodeEvex_long64]
  simp only [decodeEvexTail, hmap, hreserved, hr', hr, hrm, refusalOf_long64]
  cases hsrc : takeRm (~~~p0.extractLsb' 6 1) (~~~p0.extractLsb' 5 1) modrm rest with
  | none => rfl
  | some rm =>
    cases rm with
    | reg r => exact absurd hsrc (takeRm_ne_reg _ _ modrm rest r hmod)
    | mem a => simp only [selectEvex_mem_congr _ _ _ (~~~p0'.extractLsb' 5 2) (~~~p0.extractLsb' 5 2) a]

/-! ## The decoder under a flipped bit -/

/-- Two encodings with the same prefixes and the same end decode alike, where they do so however short they are cut after the
first byte of that end. -/
theorem decode_congr_of_head (m : DecodeMode) (pre : Prefixes) (head head' rest : List Byte)
    (hlen : head'.length = head.length)
    (hbody : ∀ n, 0 < n → decodeBody m (encodePrefixes pre ++ (head' ++ rest.take n)) =
      decodeBody m (encodePrefixes pre ++ (head ++ rest.take n)))
    (hshort : head.length ≤ 12) :
    decode m (encodePrefixes pre ++ (head' ++ rest)) = decode m (encodePrefixes pre ++ (head ++ rest)) := by
  have hpre := prefixLength_le pre
  have htake : ∀ h : List Byte, h.length = head.length → (encodePrefixes pre ++ (h ++ rest)).take maxLength =
      encodePrefixes pre ++ (h ++ rest.take (maxLength - prefixLength pre - head.length)) := by
    intro h hh
    rw [List.take_append, List.take_append, length_encodePrefixes, hh,
      List.take_of_length_le (by rw [length_encodePrefixes]; exact hpre.trans (by decide)),
      List.take_of_length_le (by rw [hh]; unfold maxLength; omega)]
  apply decode_congr
  · simp [hlen]
  · simpa [List.take_of_length_le] using hbody (rest.length + 1) (Nat.succ_pos _)
  · rw [htake head' hlen, htake head rfl]
    exact hbody _ (by unfold maxLength; omega)

theorem decode_vex_congr (pre : Prefixes) (b1 b1' b2 op modrm : Byte) (rest : List Byte)
    (h : ∀ n, 0 < n → decodeVex .long64 ⟨pre, false, false⟩ (b1' :: b2 :: op :: modrm :: rest.take n) =
      decodeVex .long64 ⟨pre, false, false⟩ (b1 :: b2 :: op :: modrm :: rest.take n)) :
    decode .long64 (encodePrefixes pre ++ 0xC4#8 :: b1' :: b2 :: op :: modrm :: rest) =
      decode .long64 (encodePrefixes pre ++ 0xC4#8 :: b1 :: b2 :: op :: modrm :: rest) := by
  refine decode_congr_of_head .long64 pre [0xC4#8, b1, b2, op, modrm] [0xC4#8, b1', b2, op, modrm] rest rfl
    (fun n hn => ?_) (by simp)
  simpa only [List.cons_append, List.nil_append, decodeBody_vex] using h n hn

theorem decode_evex_congr (pre : Prefixes) (p0 p0' p1 p2 op modrm : Byte) (rest : List Byte)
    (h : ∀ n, 0 < n → decodeEvex .long64 ⟨pre, false, false⟩ (p0' :: p1 :: p2 :: op :: modrm :: rest.take n) =
      decodeEvex .long64 ⟨pre, false, false⟩ (p0 :: p1 :: p2 :: op :: modrm :: rest.take n)) :
    decode .long64 (encodePrefixes pre ++ 0x62#8 :: p0' :: p1 :: p2 :: op :: modrm :: rest) =
      decode .long64 (encodePrefixes pre ++ 0x62#8 :: p0 :: p1 :: p2 :: op :: modrm :: rest) := by
  refine decode_congr_of_head .long64 pre [0x62#8, p0, p1, p2, op, modrm] [0x62#8, p0', p1, p2, op, modrm] rest rfl
    (fun n hn => ?_) (by simp)
  simpa only [List.cons_append, List.nil_append, decodeBody_evex] using h n hn

/-- Settles O10: a flip of `X` or `B` leaves the other fields of its byte, and `SRC3` by `takeRm_ignores_x` or
`takeRm_ignores_b`. -/
theorem ignoredBitsDecodeAlike : Obligations.IgnoredBitsDecodeAlike := by
  intro pre b1 b2 p2 op modrm rest
  have keep : ∀ (flip : Byte) (s n : Nat), flip.extractLsb' s n = 0#n → (b1 ^^^ flip).extractLsb' s n = b1.extractLsb' s n :=
    fun flip s n h => extractLsb'_xor_of_zero b1 flip h
  refine ⟨fun h => ?vexX, fun hmod hrm => ?evexX, fun h => ⟨?vexB, ?evexB⟩⟩
  case vexX =>
    have hsib := h.imp (mod_eq_three_iff modrm).mp (mt (rm_eq_four_iff modrm).mpr)
    refine decode_vex_congr pre b1 _ b2 op modrm rest fun n _ => ?_
    refine decodeVex_congr _ b1 _ b2 op modrm _ (keep _ 0 5 (by decide)) (keep _ 7 1 (by decide)) ?_
      fun _ => keep _ 5 1 (by decide)
    rw [keep _ 5 1 (by decide)]
    exact takeRm_ignores_x _ _ _ modrm _ hsib
  case evexX =>
    have hmem := mt (mod_eq_three_iff modrm).mpr hmod
    refine decode_evex_congr pre b1 _ b2 p2 op modrm rest fun n _ => ?_
    refine decodeEvex_congr _ b1 _ b2 p2 op modrm _ hmem (keep _ 0 2 (by decide)) (keep _ 2 2 (by decide))
      (keep _ 4 1 (by decide)) (keep _ 7 1 (by decide)) ?_
    rw [keep _ 5 1 (by decide)]
    exact takeRm_ignores_x _ _ _ modrm _ (.inr (mt (rm_eq_four_iff modrm).mpr hrm))
  case vexB =>
    have hform := noBaseForm_of_masks modrm rest h
    refine decode_vex_congr pre b1 _ b2 op modrm rest fun n hn => ?_
    refine decodeVex_congr _ b1 _ b2 op modrm _ (keep _ 0 5 (by decide)) (keep _ 7 1 (by decide)) ?_
      fun hreg => absurd hreg (noBaseForm_mod modrm rest hform)
    rw [keep _ 6 1 (by decide)]
    exact takeRm_ignores_b _ _ _ modrm _ (noBaseForm_take modrm rest n hn hform)
  case evexB =>
    have hform := noBaseForm_of_masks modrm rest h
    refine decode_evex_congr pre b1 _ b2 p2 op modrm rest fun n hn => ?_
    refine decodeEvex_congr _ b1 _ b2 p2 op modrm _ (noBaseForm_mod modrm rest hform) (keep _ 0 2 (by decide))
      (keep _ 2 2 (by decide)) (keep _ 4 1 (by decide)) (keep _ 7 1 (by decide)) ?_
    rw [keep _ 6 1 (by decide)]
    exact takeRm_ignores_b _ _ _ modrm _ (noBaseForm_take modrm rest n hn hform)

end Sys2Proof
end

section
/-! Proofs/Features.lean: the CPUID flags of a form (30_encoding.md rule R67, 60_exceptions.md rule R135) are among the first
conditions of its kind of form. -/

namespace Sys2Proof.Machine

theorem executeVex_ud (form : FmaForm) (vl : VecLen) (o : VexOperands) (s : State)
    (h : (s.vexDisabled || !s.params.features.fma) = true) : executeVex form vl o s = .fault (.invalidOpcode s) := if_pos h

theorem executeEvex_ud (form : FmaForm) (vl : VecLen) (o : EvexOperands EvexRm512) (s : State)
    (h : (s.evexDisabled || !s.evexFeatures vl || !maskWellFormed o.aaa o.z) = true) :
    executeEvex form vl o s = .fault (.invalidOpcode s) := if_pos h

/-- The flags that an EVEX row needs (30_encoding.md rule R67). -/
theorem evexFeatures_eq_true_iff (s : State) (vl : VecLen) :
    s.evexFeatures vl = true ↔ s.params.features.avx512f = true ∧ (vl ≠ .v512 → s.params.features.avx512vl = true) := by
  cases vl <;> simp [State.evexFeatures]

/-- Settles O18: each missing flag is among the #UD conditions of its kind of form. -/
theorem missingFeatureRaisesUd : Obligations.MissingFeatureRaisesUd := by
  intro i s hmissing
  rcases exec_view i with ⟨o, ho, hexec, _⟩ | ⟨o, ho, hexec, _⟩
  · have hvex : instrIsEvex i = false := by rw [instrIsEvex, ho]; rfl
    have hfma : s.params.features.fma = false := by simpa [hvex] using hmissing
    rw [hexec]
    exact executeVex_ud _ _ o s (by simp [hfma])
  · have hevex : instrIsEvex i = true := by rw [instrIsEvex, ho]; rfl
    have hfeatures : s.evexFeatures (instrVecLen i) = false := by
      rw [← Bool.not_eq_true, evexFeatures_eq_true_iff]
      rintro ⟨hf, hvl⟩
      rcases hmissing with ⟨hvex, _⟩ | ⟨_, hnof⟩ | ⟨_, hlen, hnovl⟩
      · exact Bool.false_ne_true (hvex.symm.trans hevex)
      · exact Bool.false_ne_true (hnof.symm.trans hf)
      · exact Bool.false_ne_true (hnovl.symm.trans (hvl hlen))
    rw [hexec]
    exact executeEvex_ud _ _ o s (by simp [hfeatures])

end Sys2Proof.Machine
end

section
/-! Proofs/FmaElem.lean: `FmaElem` case by case (40_fma_element.md rule R80): what inverting a sign, rule R83 and rule R85 keep
of an operand, one equation for each way that a step can end it, and the flags that each step adds. -/

namespace Sys2Proof.Machine

/-! ## The fields of a value (rule R81) -/

/-- The sign bit. -/
abbrev signBit : Quad := 0x8000000000000000#64

theorem dblSign_xor (x y : Quad) : dblSign (x ^^^ y) = (dblSign x ^^ dblSign y) := BitVec.getLsbD_xor

theorem dblExponent_xor_signBit (x : Quad) : dblExponent (x ^^^ signBit) = dblExponent x := by
  rw [dblExponent, BitVec.extractLsb'_xor, show signBit.extractLsb' 52 11 = 0#11 by decide, BitVec.xor_zero, dblExponent]

theorem dblFraction_xor_signBit (x : Quad) : dblFraction (x ^^^ signBit) = dblFraction x := by
  rw [dblFraction, BitVec.extractLsb'_xor, show signBit.extractLsb' 0 52 = 0#52 by decide, BitVec.xor_zero, dblFraction]

theorem isNaN_xor_signBit (x : Quad) : isNaN (x ^^^ signBit) = isNaN x := by
  rw [isNaN, dblExponent_xor_signBit, dblFraction_xor_signBit, isNaN]

theorem isDenormal_xor_signBit (x : Quad) : isDenormal (x ^^^ signBit) = isDenormal x := by
  rw [isDenormal, dblExponent_xor_signBit, dblFraction_xor_signBit, isDenormal]

theorem isSNaN_of_not_isNaN (x : Quad) (h : isNaN x = false) : isSNaN x = false := by rw [isSNaN, h, Bool.false_and]

/-- A finite value is no NaN. -/
theorem isNaN_of_finite (x : Quad) (h : dblExponent x ≠ 2047) : isNaN x = false := by simp [isNaN, h]

theorem isInfinite_of_finite (x : Quad) (h : dblExponent x ≠ 2047) : isInfinite x = false := by simp [isInfinite, h]

theorem isZero_of_isInfinite (x : Quad) (h : isInfinite x = true) : isZero x = false := by
  simp only [isInfinite, Bool.and_eq_true, beq_iff_eq] at h
  simp [isZero, h.1]

/-- A zero is its sign bit. -/
theorem signedZero_dblSign (x : Quad) (h : isZero x = true) : signedZero (dblSign x) = x := by
  simp only [isZero, dblExponent, dblFraction, Bool.and_eq_true, beq_iff_eq, BitVec.extractLsb'_toNat,
    Nat.shiftRight_eq_div_pow] at h
  have hsign : dblSign x = decide (2 ^ 63 ≤ x.toNat) := BitVec.msb_eq_decide x
  have hlt := x.isLt
  apply BitVec.eq_of_toNat_eq
  rw [hsign, signedZero]
  by_cases hx : 2 ^ 63 ≤ x.toNat
  · rw [if_pos (decide_eq_true hx), BitVec.toNat_ofNat]
    omega
  · rw [if_neg (by simpa using hx), BitVec.toNat_ofNat]
    omega

/-! ## Conditioned operands (rules R83, R85) -/

/-- Rule R83 keeps an operand, or a denormal one is read as a zero. -/
theorem conditionInput_cases (daz : Bool) (x : Quad) :
    conditionInput daz x = x ∨ (isDenormal x = true ∧ conditionInput daz x = signedZero (dblSign x)) := by
  unfold conditionInput
  split
  · rename_i h
    exact .inr ⟨(Bool.and_eq_true_iff.mp h).2, rfl⟩
  · exact .inl rfl

theorem dblExponent_conditionInput (daz : Bool) (x : Quad) : dblExponent (conditionInput daz x) = dblExponent x := by
  rcases conditionInput_cases daz x with h | ⟨hden, h⟩
  · rw [h]
  · have hx : dblExponent x = 0 := by simpa using (Bool.and_eq_true_iff.mp hden).1
    have hzero : ∀ negative, dblExponent (signedZero negative) = 0 := by decide
    rw [h, hx, hzero]

theorem isSNaN_conditionInput (daz : Bool) (x : Quad) : isSNaN (conditionInput daz x) = isSNaN x := by
  cases h : isNaN x
  · rw [isSNaN_of_not_isNaN x h, isSNaN_of_not_isNaN _ ((isNaN_conditionInput daz x).trans h)]
  · rw [conditionInput_of_isNaN daz x h]

/-- Rule R83 reads a denormal as the zero of its sign, so it commutes with inverting the sign. -/
theorem conditionInput_xor_signBit (daz : Bool) (x : Quad) :
    conditionInput daz (x ^^^ signBit) = conditionInput daz x ^^^ signBit := by
  have hzero : ∀ negative, signedZero (negative ^^ dblSign signBit) = signedZero negative ^^^ signBit := by decide
  unfold conditionInput
  rw [isDenormal_xor_signBit, dblSign_xor, hzero]
  split <;> rfl

@[simp] theorem negateIf_false (c : Quad) : negateIf false c = c := rfl

theorem dblExponent_negateIf (neg : Bool) (c : Quad) : dblExponent (negateIf neg c) = dblExponent c := by
  cases neg
  · rfl
  · exact dblExponent_xor_signBit c

/-! ## The ends of rule R80 -/

theorem signedInfinity_of_xor (a b : Quad) :
    signedInfinity (dblSign a ^^ dblSign b) = if dblSign (a ^^^ b) then 0xFFF0000000000000#64 else 0x7FF0000000000000#64 := by
  rw [dblSign_xor, signedInfinity]

/-- Rule R88: the flag of a denormal operand. -/
def denormalFlag (a b c : Quad) : BitVec 6 := flagIf (isDenormal a || isDenormal b || isDenormal c) flagDE

/-- Step 2, with the operands as they are given. -/
theorem fmaElem_of_nan (rc : RoundingMode) (daz ftz neg : Bool) (a b c : Quad) (h : (isNaN a || isNaN b || isNaN c) = true) :
    fmaElem rc daz ftz neg a b c = propagateNaN a b c := by
  have hfirst : (if isNaN a then conditionInput daz a else if isNaN b then conditionInput daz b else conditionInput daz c) =
      if isNaN a then a else if isNaN b then b else c := by
    split
    · exact conditionInput_of_isNaN daz a ‹_›
    · split
      · exact conditionInput_of_isNaN daz b ‹_›
      · exact conditionInput_of_isNaN daz c (by simpa [*] using h)
  simp only [fmaElem, fmaConditioned, propagateNaN, isNaN_conditionInput, isSNaN_conditionInput, if_pos h, hfirst]

/-- Step 3. -/
theorem fmaElem_of_numbers (rc : RoundingMode) (daz ftz neg : Bool) (a b c : Quad)
    (h : (isNaN a || isNaN b || isNaN c) = false) :
    fmaElem rc daz ftz neg a b c =
      fmaNumbers rc ftz (conditionInput daz a) (conditionInput daz b) (negateIf neg (conditionInput daz c)) := by
  simp only [fmaElem, fmaConditioned, isNaN_conditionInput, h, Bool.false_eq_true, if_false]

/-- Steps 4 and 5. -/
theorem fmaNumbers_of_invalid (rc : RoundingMode) (ftz : Bool) (a b c : Quad) (h : invalidOperation a b c = true) :
    fmaNumbers rc ftz a b c = ⟨qNaNIndefinite, flagIE, false⟩ := if_pos h

/-- Step 7, for an infinite factor. -/
theorem fmaNumbers_of_infinite_factor (rc : RoundingMode) (ftz : Bool) (a b c : Quad) (h : invalidOperation a b c = false)
    (hinf : (isInfinite a || isInfinite b) = true) :
    fmaNumbers rc ftz a b c = ⟨signedInfinity (dblSign a ^^ dblSign b), denormalFlag a b c, false⟩ := by
  simp only [fmaNumbers, h, hinf, denormalFlag, Bool.false_eq_true, if_false, if_true]

/-- Step 7, for an infinite addend. -/
theorem fmaNumbers_of_infinite_addend (rc : RoundingMode) (ftz : Bool) (a b c : Quad)
    (hfin : (isInfinite a || isInfinite b) = false) (hc : isInfinite c = true) :
    fmaNumbers rc ftz a b c = ⟨c, denormalFlag a b c, false⟩ := by
  obtain ⟨ha, hb⟩ := Bool.or_eq_false_iff.mp hfin
  simp [fmaNumbers, invalidOperation, ha, hb, hc, denormalFlag]

/-- Step 8. -/
theorem fmaNumbers_of_finite (rc : RoundingMode) (ftz : Bool) (a b c : Quad)
    (hfin : (isInfinite a || isInfinite b) = false) (hc : isInfinite c = false) :
    fmaNumbers rc ftz a b c = finiteSum rc ftz (denormalFlag a b c) a b c := by
  obtain ⟨ha, hb⟩ := Bool.or_eq_false_iff.mp hfin
  simp [fmaNumbers, invalidOperation, ha, hb, hc, denormalFlag]

theorem fmaElem_of_finite (rc : RoundingMode) (daz ftz neg : Bool) (a b c : Quad)
    (ha : dblExponent a ≠ 2047) (hb : dblExponent b ≠ 2047) (hc : dblExponent c ≠ 2047) :
    fmaElem rc daz ftz neg a b c =
      finiteSum rc ftz
        (denormalFlag (conditionInput daz a) (conditionInput daz b) (negateIf neg (conditionInput daz c)))
        (conditionInput daz a) (conditionInput daz b) (negateIf neg (conditionInput daz c)) := by
  rw [fmaElem_of_numbers rc daz ftz neg a b c (by rw [isNaN_of_finite a ha, isNaN_of_finite b hb, isNaN_of_finite c hc]; rfl)]
  apply fmaNumbers_of_finite
  · rw [isInfinite_of_finite _ (by rwa [dblExponent_conditionInput]),
      isInfinite_of_finite _ (by rwa [dblExponent_conditionInput]), Bool.or_false]
  · exact isInfinite_of_finite _ (by rwa [dblExponent_negateIf, dblExponent_conditionInput])

/-- Step 9. -/
theorem finiteSum_of_zero (rc : RoundingMode) (ftz : Bool) (f : BitVec 6) (a b c : Quad) (h : exactSum a b c = 0) :
    finiteSum rc ftz f a b c = ⟨signedZero (zeroSign rc a b c), f, false⟩ := if_pos h

theorem round53_zero (rc : RoundingMode) (negative : Bool) : round53 rc negative 0 = 0 :=
  roundTo_multiple rc negative 0 _ (Nat.zero_mod _)

/-- Step 11. -/
theorem roundSum_of_overflow (rc : RoundingMode) (ftz : Bool) (f : BitVec 6) (x : Int)
    (h : maxMagnitude < round53 rc (decide (x < 0)) x.natAbs) :
    roundSum rc ftz f x = ⟨overflowResult rc (decide (x < 0)), f ||| (flagOE ||| flagPE), false⟩ := by
  simp only [roundSum, if_pos h, BitVec.or_assoc]

/-- Step 11; a sum of zero does not get there. -/
theorem finiteSum_of_overflow (rc : RoundingMode) (ftz : Bool) (f : BitVec 6) (a b c : Quad)
    (h : maxMagnitude < round53 rc (decide (exactSum a b c < 0)) (exactSum a b c).natAbs) :
    finiteSum rc ftz f a b c =
      ⟨overflowResult rc (decide (exactSum a b c < 0)), f ||| (flagOE ||| flagPE), false⟩ := by
  have hx : exactSum a b c ≠ 0 := by
    intro hx
    rw [hx, Int.natAbs_zero, round53_zero] at h
    exact Nat.not_lt_zero _ h
  exact (if_neg hx).trans (roundSum_of_overflow rc ftz f _ h)

/-! ## The flags -/

/-- What rounding without overflow can add to the flags: rules R92, R94 and R95. -/
def inexactFlags : List (BitVec 6) := [0#6, flagPE, flagUE ||| flagPE]

theorem flagIf_mem_inexactFlags (p : Bool) (f : BitVec 6) (h : f ∈ inexactFlags) : flagIf p f ∈ inexactFlags := by
  cases p
  · exact List.mem_cons_self
  · exact h

theorem roundSum_flags_of_no_overflow (rc : RoundingMode) (ftz : Bool) (f : BitVec 6) (x : Int)
    (h : ¬ maxMagnitude < round53 rc (decide (x < 0)) x.natAbs) :
    ∃ g ∈ inexactFlags, (roundSum rc ftz f x).flags = f ||| g := by
  simp only [roundSum, if_neg h]
  split
  · split
    · exact ⟨flagUE ||| flagPE, by decide, BitVec.or_assoc _ _ _⟩
    · exact ⟨_, flagIf_mem_inexactFlags _ (flagUE ||| flagPE) (by decide), rfl⟩
  · exact ⟨_, flagIf_mem_inexactFlags _ flagPE (by decide), rfl⟩

/-- Steps 9, 12 and 13. -/
theorem finiteSum_flags_of_no_overflow (rc : RoundingMode) (ftz : Bool) (f : BitVec 6) (a b c : Quad)
    (h : ¬ maxMagnitude < round53 rc (decide (exactSum a b c < 0)) (exactSum a b c).natAbs) :
    ∃ g ∈ inexactFlags, (finiteSum rc ftz f a b c).flags = f ||| g := by
  by_cases hx : exactSum a b c = 0
  · rw [finiteSum_of_zero rc ftz f a b c hx]
    exact ⟨0#6, by decide, BitVec.or_zero.symm⟩
  · rw [finiteSum, if_neg hx]
    exact roundSum_flags_of_no_overflow rc ftz f _ h

/-- What rounding can add to the flags. -/
def roundingFlags : List (BitVec 6) := (flagOE ||| flagPE) :: inexactFlags

/-- Steps 6 to 13: an operation that is valid raises `DE` for its operands, and what rounding adds. -/
theorem fmaNumbers_flags_of_valid (rc : RoundingMode) (ftz : Bool) (a b c : Quad) (h : invalidOperation a b c = false) :
    ∃ g ∈ roundingFlags, (fmaNumbers rc ftz a b c).flags = denormalFlag a b c ||| g := by
  cases hfactor : isInfinite a || isInfinite b with
  | true =>
    rw [fmaNumbers_of_infinite_factor rc ftz a b c h hfactor]
    exact ⟨0#6, by decide, BitVec.or_zero.symm⟩
  | false =>
    cases haddend : isInfinite c with
    | true =>
      rw [fmaNumbers_of_infinite_addend rc ftz a b c hfactor haddend]
      exact ⟨0#6, by decide, BitVec.or_zero.symm⟩
    | false =>
      rw [fmaNumbers_of_finite rc ftz a b c hfactor haddend]
      by_cases hover : maxMagnitude < round53 rc (decide (exactSum a b c < 0)) (exactSum a b c).natAbs
      · rw [finiteSum_of_overflow rc ftz _ a b c hover]
        exact ⟨_, List.mem_cons_self, rfl⟩
      · obtain ⟨g, hg, hflags⟩ := finiteSum_flags_of_no_overflow rc ftz (denormalFlag a b c) a b c hover
        exact ⟨g, List.mem_cons_of_mem _ hg, hflags⟩

/-- What the operands alone raise, before any arithmetic: rules R86 to R88. -/
def operandFlags (daz neg : Bool) (a b c : Quad) : BitVec 6 :=
  let a' := conditionInput daz a
  let b' := conditionInput daz b
  let c' := negateIf neg (conditionInput daz c)
  if isNaN a || isNaN b || isNaN c then flagIf (isSNaN a || isSNaN b || isSNaN c) flagIE
  else if invalidOperation a' b' c' then flagIE
  else denormalFlag a' b' c'

theorem operandFlags_mem (daz neg : Bool) (a b c : Quad) : operandFlags daz neg a b c ∈ [0#6, flagIE, flagDE] := by
  have hflag : ∀ p, flagIf p flagIE ∈ [0#6, flagIE, flagDE] ∧ flagIf p flagDE ∈ [0#6, flagIE, flagDE] := by decide
  unfold operandFlags
  dsimp only
  split
  · exact (hflag _).1
  · split
    · decide
    · exact (hflag _).2

/-- The flags of the operands are raised, and what rounding adds to them; with `IE` nothing is added. -/
theorem fmaElem_flags (rc : RoundingMode) (daz ftz neg : Bool) (a b c : Quad) :
    ∃ g ∈ roundingFlags, (operandFlags daz neg a b c = flagIE → g = 0#6) ∧
      (fmaElem rc daz ftz neg a b c).flags = operandFlags daz neg a b c ||| g := by
  cases hnan : isNaN a || isNaN b || isNaN c with
  | true =>
    refine ⟨0#6, by decide, fun _ => rfl, ?_⟩
    rw [fmaElem_of_nan rc daz ftz neg a b c hnan, operandFlags, if_pos hnan, BitVec.or_zero, propagateNaN]
  | false =>
    rw [fmaElem_of_numbers rc daz ftz neg a b c hnan, operandFlags, hnan]
    generalize conditionInput daz a = a', conditionInput daz b = b', negateIf neg (conditionInput daz c) = c'
    cases hinvalid : invalidOperation a' b' c' with
    | true =>
      rw [fmaNumbers_of_invalid rc ftz a' b' c' hinvalid]
      exact ⟨0#6, by decide, fun _ => rfl, BitVec.or_zero.symm⟩
    | false =>
      obtain ⟨g, hg, hflags⟩ := fmaNumbers_flags_of_valid rc ftz a' b' c' hinvalid
      have hde : ∀ p, flagIf p flagDE ≠ flagIE := by decide
      exact ⟨g, hg, fun h => absurd h (hde _), hflags⟩

/-- Settles O43: each set is what the operands raise (`operandFlags`, in which neither the rounding mode nor `ftz` occurs)
joined with what rounding adds. -/
theorem possibleFlagSets : Obligations.PossibleFlagSets := by
  intro rc daz ftz neg a b c
  have joined : ∀ f ∈ [0#6, flagIE, flagDE], ∀ g ∈ roundingFlags, (f = flagIE → g = 0#6) →
      f ||| g ∈ [0#6, flagIE, flagDE, flagPE, flagDE ||| flagPE, flagOE ||| flagPE, flagDE ||| flagOE ||| flagPE,
        flagUE ||| flagPE, flagDE ||| flagUE ||| flagPE] ∧ (f ||| g) &&& (flagIE ||| flagDE) = f := by decide
  have hmem := operandFlags_mem daz neg a b c
  obtain ⟨g, hg, hie, hflags⟩ := fmaElem_flags rc daz ftz neg a b c
  obtain ⟨hset, hkept⟩ := joined _ hmem g hg hie
  refine ⟨hflags ▸ hset, fun rc' ftz' => ?_⟩
  obtain ⟨g', hg', hie', hflags'⟩ := fmaElem_flags rc' daz ftz' neg a b c
  rw [hflags, hflags', hkept, (joined _ hmem g' hg' hie').2]

theorem maxMagnitude_eq : maxMagnitude = (2 ^ 53 - 1) * 2 ^ 3119 := by
  rw [maxMagnitude, show 971 + 2148 = 3119 from rfl]

/-- Rule R93's table. -/
theorem overflowResult_of_sum (rc : RoundingMode) (x : Int) :
    overflowResult rc (decide (x < 0)) =
      match rc with
      | .nearest => if x < 0 then 0xFFF0000000000000#64 else 0x7FF0000000000000#64
      | .down    => if x < 0 then 0xFFF0000000000000#64 else 0x7FEFFFFFFFFFFFFF#64
      | .up      => if x < 0 then 0xFFEFFFFFFFFFFFFF#64 else 0x7FF0000000000000#64
      | .zero    => if x < 0 then 0xFFEFFFFFFFFFFFFF#64 else 0x7FEFFFFFFFFFFFFF#64 := by
  by_cases hx : x < 0 <;> cases rc <;> simp [overflowResult, signedInfinity, signedMax, hx]

end Sys2Proof.Machine
end

section
/-! Proofs/SpecialOperands.lean: NaN, infinite and zero operands of `FmaElem`, and its subtraction (40_fma_element.md rules R85
to R91), each from the equation of its step. -/

namespace Sys2Proof.Machine

/-- Rule R86, for the operands of one element. -/
theorem fma_result_of_nan (s : State) (rc : RoundingMode) (a b c : Nat → Quad) (j : Nat)
    (h : (isNaN (a j) || isNaN (b j) || isNaN (c j)) = true) :
    (s.fma rc a b c j).result = quiet (if isNaN (a j) then a j else if isNaN (b j) then b j else c j) :=
  congrArg FmaResult.result (fmaElem_of_nan rc _ _ _ (a j) (b j) (c j) h)

/-- Settles O44: `fmaElem_of_nan`, and for a form the same with the operands in its order. -/
theorem nanOperandPropagates : Obligations.NanOperandPropagates := by
  refine ⟨fmaElem_of_nan, fun s rc d s2 s3 j h =>
    ⟨fma_result_of_nan s rc d s3 s2 j ?_, fma_result_of_nan s rc s2 d s3 j ?_, fma_result_of_nan s rc s2 s3 d j ?_⟩⟩
  all_goals
    rw [← h]
    ac_rfl

/-- Rule R86 does not look at an addend that is no NaN. -/
theorem propagateNaN_of_number_addend (a b c c' : Quad) (h : (isNaN a || isNaN b) = true) (hc : isNaN c = false)
    (hc' : isNaN c' = false) : propagateNaN a b c = propagateNaN a b c' := by
  simp only [propagateNaN, isSNaN_of_not_isNaN c hc, isSNaN_of_not_isNaN c' hc']
  cases ha : isNaN a with
  | true => rfl
  | false =>
    rw [ha, Bool.false_or] at h
    simp only [h, if_true]

/-- Settles O45: a NaN ends both at rule R86; else the sign is inverted before rule R83 or after it. -/
theorem subtractionNegatesAddend : Obligations.SubtractionNegatesAddend := by
  intro rc daz ftz a b c
  refine ⟨fun hc => ?number, fun hc => ?nan⟩
  case number =>
    have hc' : isNaN (c ^^^ signBit) = false := (isNaN_xor_signBit c).trans hc
    cases hnan : isNaN a || isNaN b with
    | true =>
      rw [fmaElem_of_nan rc daz ftz true a b c (by rw [hnan, Bool.true_or]),
        fmaElem_of_nan rc daz ftz false a b (c ^^^ signBit) (by rw [hnan, Bool.true_or])]
      exact propagateNaN_of_number_addend a b c _ hnan hc hc'
    | false =>
      rw [fmaElem_of_numbers rc daz ftz true a b c (by rw [hnan, hc, Bool.or_false]),
        fmaElem_of_numbers rc daz ftz false a b (c ^^^ signBit) (by rw [hnan, hc', Bool.or_false]),
        conditionInput_xor_signBit]
      rfl
  case nan =>
    have hnan : (isNaN a || isNaN b || isNaN c) = true := by rw [hc, Bool.or_true]
    rw [fmaElem_of_nan rc daz ftz true a b c hnan, fmaElem_of_nan rc daz ftz false a b c hnan]

/-- The condition of rule R87. -/
theorem invalidOperation_iff (a b c : Quad) :
    invalidOperation a b c = true ↔
      (isInfinite a = true ∧ isZero b = true) ∨ (isZero a = true ∧ isInfinite b = true) ∨
        ((isInfinite a = true ∨ isInfinite b = true) ∧ isInfinite c = true ∧ dblSign (a ^^^ b) ≠ dblSign c) := by
  simp only [invalidOperation, dblSign_xor, Bool.or_eq_true, Bool.and_eq_true, bne_iff_ne, or_assoc, and_assoc]

/-- Settles O48: rule R87's condition is `invalidOperation`, and no other flag of numbers is `IE`. -/
theorem invalidOperationResult : Obligations.InvalidOperationResult := by
  intro rc daz ftz neg a b c ha hb hc a' b' c' invalid
  have hinvalid : invalidOperation a' b' c' = true ↔ invalid := invalidOperation_iff a' b' c'
  rw [fmaElem_of_numbers rc daz ftz neg a b c (by rw [ha, hb, hc]; rfl)]
  refine ⟨fun h => fmaNumbers_of_invalid rc ftz a' b' c' (hinvalid.mpr h), fun h => ?valid⟩
  case valid =>
    have noIe : ∀ p, ∀ g ∈ roundingFlags, (flagIf p flagDE ||| g) &&& flagIE = 0#6 := by decide
    obtain ⟨g, hg, hflags⟩ := fmaNumbers_flags_of_valid rc ftz a' b' c' (Bool.eq_false_iff.mpr (mt hinvalid.mp h))
    rw [hflags]
    exact noIe _ g hg

/-- Settles O49: an infinite factor of a valid operation, else an infinite addend. -/
theorem infiniteOperandResult : Obligations.InfiniteOperandResult := by
  intro rc daz ftz neg a b c ha hb hc a' b' c' de
  rw [fmaElem_of_numbers rc daz ftz neg a b c (by rw [ha, hb, hc]; rfl)]
  refine ⟨fun hfactor hsigns => ?factor, fun ha' hb' hc' => ?addend⟩
  case factor =>
    have hinf : isInfinite a' = true ∨ isInfinite b' = true := hfactor.imp And.left And.right
    have hvalid : invalidOperation a' b' c' = false := by
      rw [Bool.eq_false_iff, ne_eq, invalidOperation_iff]
      rintro (⟨hia, hzb⟩ | ⟨hza, hib⟩ | ⟨_, hic, hne⟩)
      · rcases hfactor with ⟨_, hnz⟩ | ⟨_, hib⟩
        · exact Bool.false_ne_true (hnz.symm.trans hzb)
        · exact Bool.false_ne_true ((isZero_of_isInfinite b' hib).symm.trans hzb)
      · rcases hfactor with ⟨hia, _⟩ | ⟨hnz, _⟩
        · exact Bool.false_ne_true ((isZero_of_isInfinite a' hia).symm.trans hza)
        · exact Bool.false_ne_true (hnz.symm.trans hza)
      · exact hne (hsigns hic)
    rw [fmaNumbers_of_infinite_factor rc ftz a' b' c' hvalid (by simpa using hinf), signedInfinity_of_xor]
    rfl
  case addend => exact fmaNumbers_of_infinite_addend rc ftz a' b' c' (by rw [ha', hb']; rfl) hc'

/-- Rule R91's first case. -/
theorem zeroSign_of_same (rc : RoundingMode) (a b c : Quad) (hab : (isZero a || isZero b) = true) (hc : isZero c = true)
    (hsign : dblSign (a ^^^ b) = dblSign c) : zeroSign rc a b c = dblSign c :=
  if_pos (by rw [hab, hc, ← dblSign_xor, hsign]; simp)

/-- Rule R91's second case. -/
theorem zeroSign_of_not_same (rc : RoundingMode) (a b c : Quad)
    (h : ¬ ((isZero a || isZero b) = true ∧ isZero c = true ∧ dblSign (a ^^^ b) = dblSign c)) :
    zeroSign rc a b c = (rc == .down) :=
  if_neg (by simpa only [dblSign_xor, Bool.and_eq_true, beq_iff_eq, and_assoc] using h)

/-- Settles O50: step 9, with the two cases of `zeroSign`. -/
theorem exactZeroSign : Obligations.ExactZeroSign := by
  intro rc daz ftz neg a b c ha hb hc a' b' c' sameZero hx
  rw [(fmaElem_of_finite rc daz ftz neg a b c ha hb hc).trans (finiteSum_of_zero rc ftz _ a' b' c' hx)]
  refine ⟨?flags, fun ⟨hab, hzero, hsign⟩ => ?same, fun h => ?other⟩
  case flags =>
    have hde : ∀ p, flagIf p flagDE &&& ~~~flagDE = 0#6 := by decide
    exact hde _
  case same => exact (congrArg signedZero (zeroSign_of_same rc a' b' c' hab hzero hsign)).trans (signedZero_dblSign c' hzero)
  case other =>
    refine (congrArg signedZero (zeroSign_of_not_same rc a' b' c' h)).trans ?_
    cases rc <;> rfl

end Sys2Proof.Machine
end

section
/-! Proofs/Overflow.lean: overflow of `FmaElem` (40_fma_element.md rule R93), decided on the rounded sum. -/

namespace Sys2Proof.Overflow

open Machine

/-- Settles O54: `finiteSum_of_overflow` on one side of the bound, `finiteSum_flags_of_no_overflow` on the other. -/
theorem overflowResult : Obligations.OverflowResult := by
  intro rc ftz a b c ha hb hc x e
  have he : e = finiteSum rc ftz (denormalFlag a b c) a b c := by
    have h := fmaElem_of_finite rc false ftz false a b c ha hb hc
    simpa only [conditionInput_false, negateIf_false] using h
  have raised : ∀ p, (flagIf p flagDE ||| (flagOE ||| flagPE)) &&& flagOE ≠ 0#6 ∧
      (flagIf p flagDE ||| (flagOE ||| flagPE)) &&& flagPE ≠ 0#6 ∧
      (flagIf p flagDE ||| (flagOE ||| flagPE)) &&& flagUE = 0#6 := by decide
  have noOe : ∀ p, ∀ g ∈ inexactFlags, (flagIf p flagDE ||| g) &&& flagOE = 0#6 := by decide
  rw [← maxMagnitude_eq]
  by_cases hbound : maxMagnitude < round53 rc (decide (x < 0)) x.natAbs
  · have hval := he.trans (finiteSum_of_overflow rc ftz (denormalFlag a b c) a b c hbound)
    obtain ⟨hoe, hpe, hue⟩ := raised (isDenormal a || isDenormal b || isDenormal c)
    rw [hval]
    refine ⟨⟨fun _ => hbound, fun _ => hoe⟩, fun _ => ⟨hpe, hue, rfl, overflowResult_of_sum rc x⟩⟩
  · obtain ⟨g, hg, hflags⟩ := finiteSum_flags_of_no_overflow rc ftz (denormalFlag a b c) a b c hbound
    have hnone : e.flags &&& flagOE = 0#6 := by
      rw [he, hflags]
      exact noOe _ g hg
    exact ⟨⟨fun h => absurd hnone h, fun h => absurd h hbound⟩, fun h => absurd hnone h⟩

end Sys2Proof.Overflow
end

section
/-! Proofs/UpperBits.lean: the destination above the vector length (41_vfmsubadd_vex.md rule R108, 42_vfmsubadd_evex.md rule
R113). Every form writes a packed vector of exactly its own elements (`exec_cases`), and packing leaves zeros above them. -/

namespace Sys2Proof.Machine

/-- The bits above the last element of a packed list. -/
theorem getLsbD_packElements_of_ge (l : List Quad) (b : Nat) (h : 64 * l.length ≤ b) :
    (packElements l).getLsbD b = false := by
  induction l generalizing b with
  | nil => exact BitVec.getLsbD_zero
  | cons e rest ih =>
    rw [List.length_cons] at h
    have hrest : (packElements rest).getLsbD (b - 64) = false := ih (b - 64) (by omega)
    have he : e.getLsbD b = false := BitVec.getLsbD_of_ge e b (by omega)
    simp only [packElements, BitVec.getLsbD_or, BitVec.getLsbD_shiftLeft, BitVec.getLsbD_setWidth, hrest, he, Bool.and_false,
      Bool.or_false]

/-- The destination of an instruction that completes, whatever its writemask: its elements packed, and nothing beside them. -/
theorem exec_next_dest (i : Instr) (s t : State) (h : exec i s = .next t) :
    ∃ f : Nat → Quad, t.vec (instrDest i) = packElements ((List.range (instrVecLen i).elements).map f) := by
  rcases exec_cases i s _ h with ⟨x, hraise⟩ | hrefused | ⟨f, g, hnext⟩
  · exact absurd hraise.symm (raise_ne_next x s t)
  · exact nomatch hrefused
  · obtain rfl := Host.Outcome.next.inj hnext
    exact ⟨f, State.vec_setVec_same s (instrDest i) _⟩

/-- Settles O28: the packed list of `exec_next_dest` has as many elements as the vector length holds. -/
theorem upperBitsZeroed : Obligations.UpperBitsZeroed := by
  intro i s t h b hb
  obtain ⟨f, hdest⟩ := exec_next_dest i s t h
  rw [hdest]
  refine getLsbD_packElements_of_ge _ b ?_
  rwa [List.length_map, List.length_range]

end Sys2Proof.Machine
end

section
/-! Proofs/WithoutMask.lean: an EVEX.128 or EVEX.256 form with no writemask beside the VEX form (42_vfmsubadd_evex.md rule
R125). Where both are available they read the same `SRC3` (`readEvexSource_eq_readVexSource`), and their last steps have the
same parameters but for the length (`complete_eq_moveRip`). -/

namespace Sys2Proof.Machine

/-! ## An outcome with another program counter after completion -/

/-- An outcome in which completion, and nothing else, leaves another program counter. -/
def moveRip (rip : Quad) : Result → Result
  | .next t    => .next { t with rip := rip }
  | .fault x   => .fault x
  | .refused q => .refused q

theorem moveRip_raise (rip : Quad) (x : Exception) (s : State) : moveRip rip (raise x s) = raise x s := by
  obtain ⟨f, hf, _⟩ := raise_after x s
  rw [hf, moveRip]

/-- An outcome that ends a step while `SRC3` is read is no completion. -/
theorem moveRip_of_readVexSource_stops (rip : Quad) (s : State) (vl : VecLen) (o : VexOperands) (r : Result)
    (h : s.readVexSource vl o = .stops r) : moveRip rip r = r := by
  rcases readVexSource_stops s vl o r h with ⟨x, rfl⟩ | rfl
  · exact moveRip_raise rip x s
  · rfl

/-- The length of the instruction decides nothing of the last steps but the program counter. -/
theorem complete_eq_moveRip (vl : VecLen) (c : Controls) (active : Nat → Bool) (dest : EvexReg) (d : Vec)
    (elem : Nat → FmaResult) (len len' : Nat) (s : State) :
    complete vl c active dest d elem len' s = moveRip (s.nextRip len') (complete vl c active dest d elem len s) := by
  unfold complete
  dsimp only
  split
  · rw [moveRip_raise]
  · rfl

/-! ## A form that is available reads its source and completes -/

/-- The conditions of 41_vfmsubadd_vex.md rule R100 step 1, all passed. -/
theorem vexAvailable_gates (s : State) (h : s.vexAvailable = true) :
    (s.vexDisabled || !s.params.features.fma) = false ∧ s.cr0TS = false := by
  simp only [State.vexAvailable, Bool.and_eq_true, Bool.not_eq_true'] at h
  obtain ⟨⟨⟨⟨⟨hpe, hvm⟩, hts⟩, hxsave⟩, havx⟩, hfma⟩ := h
  exact ⟨by simp [State.vexDisabled, State.inRealMode, hpe, hvm, hxsave, havx, hfma], hts⟩

/-- The conditions of 42_vfmsubadd_evex.md rule R110 step 1, all passed where the writemask is well formed. -/
theorem evexAvailable_gates (s : State) (vl : VecLen) (aaa : BitVec 3) (z : Bool) (h : s.evexAvailable vl = true)
    (hmask : maskWellFormed aaa z = true) :
    (s.evexDisabled || !s.evexFeatures vl || !maskWellFormed aaa z) = false ∧ s.cr0TS = false := by
  simp only [State.evexAvailable, Bool.and_eq_true, Bool.not_eq_true'] at h
  obtain ⟨⟨⟨⟨⟨⟨hpe, hvm⟩, hts⟩, hxsave⟩, havx⟩, h512⟩, hfeatures⟩ := h
  exact ⟨by simp [State.evexDisabled, State.vexDisabled, State.inRealMode, hpe, hvm, hxsave, havx, h512, hfeatures, hmask],
    hts⟩

theorem executeVex_of_available (form : FmaForm) (vl : VecLen) (o : VexOperands) (s : State) (h : s.vexAvailable = true) :
    s.readVexSource vl o = .stops (executeVex form vl o s) ∨
    ∃ s3, s.readVexSource vl o = .value s3 ∧
      executeVex form vl o s =
        complete vl ⟨mxcsrRounding s.mxcsr, false, false⟩ (fun _ => true) (vexNumber o.dest) (s.vec (vexNumber o.dest))
          (fmaElement form (mxcsrRounding s.mxcsr) (mxcsrDAZ s.mxcsr) (mxcsrFTZ s.mxcsr)
            (s.vec (vexNumber o.dest)) (s.vec (vexNumber o.src2)) s3)
          (vexLength o) s := by
  obtain ⟨hud, hnm⟩ := vexAvailable_gates s h
  rcases executeVex_cases form vl o s _ rfl with ⟨hud', _⟩ | ⟨_, hnm', _⟩ | ⟨_, _, hread⟩
  · exact absurd hud' (by simp [hud])
  · exact absurd hnm' (by simp [hnm])
  · exact hread

theorem executeEvex_of_available (form : FmaForm) (vl : VecLen) (o : EvexOperands EvexRm512) (s : State)
    (h : s.evexAvailable vl = true) (hmask : maskWellFormed o.aaa o.z = true) :
    s.readEvexSource vl o = .stops (executeEvex form vl o s) ∨
    ∃ s3, s.readEvexSource vl o = .value s3 ∧
      executeEvex form vl o s =
        complete vl ⟨s.evexRounding o.src3, (embeddedRounding o.src3).isSome, o.z⟩ (s.active o.aaa) o.dest (s.vec o.dest)
          (fmaElement form (s.evexRounding o.src3) (mxcsrDAZ s.mxcsr) (mxcsrFTZ s.mxcsr)
            (s.vec o.dest) (s.vec o.src2) s3)
          (evexLength o) s := by
  obtain ⟨hud, hnm⟩ := evexAvailable_gates s vl o.aaa o.z h hmask
  rcases executeEvex_cases form vl o s _ rfl with ⟨hud', _⟩ | ⟨_, hnm', _⟩ | ⟨_, _, hread⟩
  · exact absurd hud' (by simp [hud])
  · exact absurd hnm' (by simp [hnm])
  · exact hread

/-! ## The parameters of an EVEX form without a writemask -/

/-- Rule R111: `aaa = 000` makes every element active. -/
theorem active_of_no_mask (s : State) : s.active 0#3 = fun _ => true := rfl

/-- No form of 128 or 256 bits has embedded rounding (30_encoding.md rule R51). -/
theorem embeddedRounding_widenRm (rm : EvexRm) : embeddedRounding (widenRm rm) = none := by cases rm <;> rfl

/-- `SRC3` of the two forms is one register, or one location in memory with one segment exception. -/
def SameSource (s : State) (vl : VecLen) (o : VexOperands) (p : EvexOperands EvexRm) : Prop :=
  (∃ n, o.src3 = .reg n ∧ p.src3 = .reg (vexNumber n)) ∨
  ∃ a b, o.src3 = .mem a ∧ p.src3 = .mem b ∧ s.vexLocation o a = s.evexLocation vl.bytes (widen p) b ∧
    s.segmentFault o.pre a = s.segmentFault p.pre b

theorem readVexSource_mem (s : State) (vl : VecLen) (o : VexOperands) (a : AddrForm) (h : o.src3 = .mem a) :
    s.readVexSource vl o = s.readWhole (s.vexLocation o a) (s.segmentFault o.pre a) vl fun _ => true := by
  rw [State.readVexSource, h, State.vexLocation]

theorem readEvexSource_mem (s : State) (vl : VecLen) (o : EvexOperands EvexRm512) (b : AddrForm) (h : o.src3 = .mem b) :
    s.readEvexSource vl o = s.readWhole (s.evexLocation vl.bytes o b) (s.segmentFault o.pre b) vl (s.active o.aaa) := by
  rw [State.readEvexSource, h, State.evexLocation]

/-- The two forms read the same `SRC3`, or are stopped by the same outcome. -/
theorem readEvexSource_eq_readVexSource (s : State) (vl : VecLen) (o : VexOperands) (p : EvexOperands EvexRm)
    (haaa : p.aaa = 0#3) (hsource : SameSource s vl o p) : s.readEvexSource vl (widen p) = s.readVexSource vl o := by
  rcases hsource with ⟨n, ho, hp⟩ | ⟨a, b, ho, hp, hlocation, hfault⟩
  · rw [State.readVexSource, State.readEvexSource, widen, hp, ho, widenRm]
  · have hwide : (widen p).src3 = .mem b := by rw [widen, hp, widenRm]
    have hactive : s.active (widen p).aaa = fun _ => true := by rw [← active_of_no_mask s, ← haaa, widen]
    rw [readVexSource_mem s vl o a ho, readEvexSource_mem s vl (widen p) b hwide, hactive, hlocation, hfault, widen]

/-! ## The two forms -/

theorem executeEvex_eq_moveRip_executeVex (form : FmaForm) (vl : VecLen) (o : VexOperands) (p : EvexOperands EvexRm)
    (s : State) (hvex : s.vexAvailable = true) (hevex : s.evexAvailable vl = true) (hdest : p.dest = vexNumber o.dest)
    (hsrc2 : p.src2 = vexNumber o.src2) (haaa : p.aaa = 0#3) (hz : p.z = false) (hsource : SameSource s vl o p) :
    executeEvex form vl (widen p) s = moveRip (s.nextRip (evexLength (widen p))) (executeVex form vl o s) := by
  have hmask : maskWellFormed (widen p).aaa (widen p).z = true := by simp [widen, maskWellFormed, hz]
  have hread := readEvexSource_eq_readVexSource s vl o p haaa hsource
  rcases executeVex_of_available form vl o s hvex with hv | ⟨s3, hv, hvalue⟩ <;>
    rcases executeEvex_of_available form vl (widen p) s hevex hmask with he | ⟨s3', he, hevalue⟩ <;>
    rw [hread, hv] at he
  case inl.inl =>
    rw [moveRip_of_readVexSource_stops _ s vl o _ hv]
    exact (SourceRead.stops.inj he).symm
  case inl.inr => exact nomatch he
  case inr.inl => exact nomatch he
  case inr.inr =>
    obtain rfl := SourceRead.value.inj he
    rw [hvalue, hevalue, ← complete_eq_moveRip]
    simp only [widen, State.evexRounding, embeddedRounding_widenRm, Option.getD_none, Option.isSome_none, hdest, hsrc2, haaa,
      hz, active_of_no_mask]

/-- The VEX row of a length that both prefixes have. -/
theorem exec_vexInstr (form : FmaForm) (vl : VecLen) (o : VexOperands) (s : State) (hvl : vl = .v128 ∨ vl = .v256) :
    exec (vexInstr form (if vl = .v128 then 0#1 else 1#1) o) s = executeVex form vl o s := by
  rcases hvl with rfl | rfl <;> cases form <;> rfl

/-- The EVEX row of a length that both prefixes have. -/
theorem exec_evexInstr (form : FmaForm) (vl : VecLen) (p : EvexOperands EvexRm) (s : State)
    (hvl : vl = .v128 ∨ vl = .v256) :
    exec (if vl = .v128 then evex128Instr form p else evex256Instr form p) s = executeEvex form vl (widen p) s := by
  rcases hvl with rfl | rfl <;> cases form <;> rfl

/-- Settles O36: `exec` is the operation that each kind of form shares, and the two differ by the program counter alone. -/
theorem evexEqualsVex : Obligations.EvexEqualsVex := by
  intro form vl o p s hvl hvex hevex hdest hsrc2 haaa hz hsource
  rw [exec_vexInstr form vl o s hvl, exec_evexInstr form vl p s hvl]
  exact executeEvex_eq_moveRip_executeVex form vl o p s hvex hevex hdest hsrc2 haaa hz hsource

end Sys2Proof.Machine
end

section
/-! Proofs/Exec.lean: `exec` as one operation on the parts of an instruction that Safety.lean names: the #UD conditions, #NM,
reading `SRC3`, and the last steps on the elements that `State.instrElement` gives (60_exceptions.md rule R140). -/

namespace Sys2Proof.Machine

/-! ## The parts of the operation -/

/-- The #UD conditions of the meaning (60_exceptions.md rules R133 to R135, 30_encoding.md rule R63). -/
def State.instrDisabled (s : State) (i : Instr) : Bool :=
  match instrOperands i with
  | .inl _ => s.vexDisabled || !s.params.features.fma
  | .inr o => s.evexDisabled || !s.evexFeatures (instrVecLen i) || !maskWellFormed o.aaa o.z

/-- What reading `SRC3` gives. -/
def State.instrSource (s : State) (i : Instr) : SourceRead :=
  match instrOperands i with
  | .inl o => s.readVexSource (instrVecLen i) o
  | .inr o => s.readEvexSource (instrVecLen i) o

/-- The register of `SRC2`. -/
def instrSrc2 (i : Instr) : EvexReg :=
  match instrOperands i with
  | .inl o => vexNumber o.src2
  | .inr o => o.src2

/-- Rounding, suppression of exceptions and the kind of masking. -/
def State.instrControls (s : State) (i : Instr) : Controls :=
  match instrOperands i with
  | .inl _ => ⟨mxcsrRounding s.mxcsr, false, false⟩
  | .inr o => ⟨s.evexRounding o.src3, (embeddedRounding o.src3).isSome, o.z⟩

/-- The elements that the instruction computes once `SRC3` has the value `s3`. -/
def State.elementFrom (s : State) (i : Instr) (s3 : Vec) : Nat → FmaResult :=
  fmaElement (instrForm i) (s.instrControls i).rc (mxcsrDAZ s.mxcsr) (mxcsrFTZ s.mxcsr) (s.vec (instrDest i))
    (s.vec (instrSrc2 i)) s3

/-- The last steps of the instruction, on these elements. -/
def State.lastSteps (s : State) (i : Instr) (e : Nat → FmaResult) : Result :=
  complete (instrVecLen i) (s.instrControls i) (s.instrActive i) (instrDest i) (s.vec (instrDest i)) e (instrLength i) s

/-- The rest of the instruction, after reading `SRC3`. -/
def State.afterRead (s : State) (i : Instr) : SourceRead → Result
  | .stops r  => r
  | .value s3 => s.lastSteps i (s.elementFrom i s3)

@[simp] theorem State.afterRead_stops (s : State) (i : Instr) (r : Result) : s.afterRead i (.stops r) = r := rfl

@[simp] theorem State.afterRead_value (s : State) (i : Instr) (s3 : Vec) :
    s.afterRead i (.value s3) = s.lastSteps i (s.elementFrom i s3) := rfl

theorem instrActive_vex (s : State) (i : Instr) (o : VexOperands) (ho : instrOperands i = .inl o) :
    s.instrActive i = fun _ => true := funext fun j => by simp only [State.instrActive, ho]

theorem instrActive_evex (s : State) (i : Instr) (o : EvexOperands EvexRm512) (ho : instrOperands i = .inr o) :
    s.instrActive i = s.active o.aaa := funext fun j => by simp only [State.instrActive, ho]

theorem lastSteps_vex (s : State) (i : Instr) (o : VexOperands) (s3 : Vec) (ho : instrOperands i = .inl o)
    (hlen : instrLength i = vexLength o) :
    s.lastSteps i (s.elementFrom i s3) =
      complete (instrVecLen i) ⟨mxcsrRounding s.mxcsr, false, false⟩ (fun _ => true) (vexNumber o.dest)
        (s.vec (vexNumber o.dest))
        (fmaElement (instrForm i) (mxcsrRounding s.mxcsr) (mxcsrDAZ s.mxcsr) (mxcsrFTZ s.mxcsr)
          (s.vec (vexNumber o.dest)) (s.vec (vexNumber o.src2)) s3)
        (vexLength o) s := by
  simp only [State.lastSteps, State.elementFrom, State.instrControls, instrDest, instrSrc2, instrActive_vex s i o ho, ho,
    hlen]

theorem lastSteps_evex (s : State) (i : Instr) (o : EvexOperands EvexRm512) (s3 : Vec) (ho : instrOperands i = .inr o)
    (hlen : instrLength i = evexLength o) :
    s.lastSteps i (s.elementFrom i s3) =
      complete (instrVecLen i) ⟨s.evexRounding o.src3, (embeddedRounding o.src3).isSome, o.z⟩ (s.active o.aaa) o.dest
        (s.vec o.dest)
        (fmaElement (instrForm i) (s.evexRounding o.src3) (mxcsrDAZ s.mxcsr) (mxcsrFTZ s.mxcsr)
          (s.vec o.dest) (s.vec o.src2) s3)
        (evexLength o) s := by
  simp only [State.lastSteps, State.elementFrom, State.instrControls, instrDest, instrSrc2, instrActive_evex s i o ho, ho,
    hlen]

/-! ## The order of the conditions (60_exceptions.md rule R140) -/

/-- Every instruction in one equation: #UD, then #NM, then the operand, then the last steps. -/
theorem exec_eq (i : Instr) (s : State) :
    exec i s = if s.instrDisabled i then raise .ud s else if s.cr0TS then raise .nm s
      else s.afterRead i (s.instrSource i) := by
  rcases exec_view i with ⟨o, ho, hexec, hlen, _⟩ | ⟨o, ho, hexec, hlen⟩
  · have hdisabled : s.instrDisabled i = (s.vexDisabled || !s.params.features.fma) := by simp only [State.instrDisabled, ho]
    have hsource : s.instrSource i = s.readVexSource (instrVecLen i) o := by simp only [State.instrSource, ho]
    rw [hdisabled, hsource, hexec]
    rcases executeVex_cases (instrForm i) (instrVecLen i) o s _ rfl with
      ⟨hud, h⟩ | ⟨hud, hts, h⟩ | ⟨hud, hts, h | ⟨s3, hs3, h⟩⟩
    · rw [h, if_pos hud]
    · simp [h, hud, hts]
    · simp [h, hud, hts]
    · simp [h, hud, hts, hs3, lastSteps_vex s i o s3 ho hlen]
  · have hdisabled : s.instrDisabled i =
        (s.evexDisabled || !s.evexFeatures (instrVecLen i) || !maskWellFormed o.aaa o.z) := by
      simp only [State.instrDisabled, ho]
    have hsource : s.instrSource i = s.readEvexSource (instrVecLen i) o := by simp only [State.instrSource, ho]
    rw [hdisabled, hsource, hexec]
    rcases executeEvex_cases (instrForm i) (instrVecLen i) o s _ rfl with
      ⟨hud, h⟩ | ⟨hud, hts, h⟩ | ⟨hud, hts, h | ⟨s3, hs3, h⟩⟩
    · rw [h, if_pos hud]
    · simp [h, hud, hts]
    · simp [h, hud, hts]
    · simp [h, hud, hts, hs3, lastSteps_evex s i o s3 ho hlen]

theorem exec_of_disabled (i : Instr) (s : State) (h : s.instrDisabled i = true) :
    exec i s = .fault (.invalidOpcode s) := by rw [exec_eq, if_pos h, raise]

theorem exec_of_taskSwitched (i : Instr) (s : State) (h : s.instrDisabled i = false) (hts : s.cr0TS = true) :
    exec i s = .fault (.deviceNotAvailable s) := by rw [exec_eq, h, if_neg Bool.false_ne_true, if_pos hts, raise]

/-! ## Availability -/

/-- 30_encoding.md rule R63: no well-formed instruction has zeroing-masking without a writemask. -/
theorem maskWellFormed_of_wellFormed (i : Instr) (o : EvexOperands EvexRm512) (hwf : i.wellFormed = true)
    (ho : instrOperands i = .inr o) : maskWellFormed o.aaa o.z = true := by
  cases i <;> cases ho <;> exact (Bool.and_eq_true_iff.mp hwf).1

/-- A well-formed instruction is available where neither #UD nor #NM comes first (rules R133 to R137). -/
theorem instrAvailable_iff (s : State) (i : Instr) (hwf : i.wellFormed = true) :
    s.instrAvailable i = true ↔ s.instrDisabled i = false ∧ s.cr0TS = false := by
  cases ho : instrOperands i with
  | inl o =>
    simp only [State.instrAvailable, State.instrDisabled, instrIsEvex, ho, Sum.isRight, State.vexAvailable, State.vexDisabled,
      State.inRealMode, Bool.false_eq_true, if_false, Bool.and_eq_true, Bool.or_eq_false_iff, Bool.not_eq_true',
      Bool.not_eq_false']
    tauto
  | inr o =>
    have hmask := maskWellFormed_of_wellFormed i o hwf ho
    simp only [State.instrAvailable, State.instrDisabled, instrIsEvex, ho, Sum.isRight, State.evexAvailable,
      State.evexDisabled, State.vexDisabled, State.inRealMode, hmask, if_true, Bool.and_eq_true, Bool.or_eq_false_iff,
      Bool.not_eq_true', Bool.not_eq_false']
    tauto

/-! ## The last steps on equal elements -/

/-- The last steps use the active elements alone. -/
theorem complete_congr (vl : VecLen) (c : Controls) (active : Nat → Bool) (dest : EvexReg) (d : Vec)
    (e e' : Nat → FmaResult) (len : Nat) (s : State) (h : ∀ j, j < vl.elements → active j = true → e j = e' j) :
    complete vl c active dest d e len s = complete vl c active dest d e' len s := by
  have helems : (activeElements vl active).map e = (activeElements vl active).map e' :=
    List.map_congr_left fun j hj =>
      have ⟨hlt, ha⟩ := (mem_activeElements vl active j).mp hj
      h j hlt ha
  have hnew : (List.range vl.elements).map (newElement c active d e) =
      (List.range vl.elements).map (newElement c active d e') :=
    List.map_congr_left fun j hj => by
      unfold newElement
      split
      · rename_i ha
        rw [h j (List.mem_range.mp hj) ha]
      · rfl
  unfold complete
  rw [helems, hnew]

/-! ## The value of `SRC3` -/

/-- `SRC3` has a value exactly where every byte that is read can be read. -/
theorem instrReadable_iff (s : State) (i : Instr) : s.instrReadable i = true ↔ ∃ s3, s.instrSource i = .value s3 := by
  cases ho : instrOperands i with
  | inl o =>
    simp only [State.instrReadable, State.instrSource, ho]
    exact ⟨fun h => (readVexSource_value s _ o h).imp fun _ hv => hv.1, fun ⟨s3, h⟩ => vexReadable_of_value s _ o s3 h⟩
  | inr o =>
    simp only [State.instrReadable, State.instrSource, ho]
    exact ⟨fun h => (readEvexSource_value s _ o h).imp fun _ hv => hv.1, fun ⟨s3, h⟩ => evexReadable_of_value s _ o s3 h⟩

/-- The elements computed from the value that is read are those Safety.lean names, where they are active. -/
theorem elementFrom_source (s : State) (i : Instr) (s3 : Vec) (hs3 : s.instrSource i = .value s3) (j : Nat)
    (hj : j < (instrVecLen i).elements) (ha : s.instrActive i j = true) : s.elementFrom i s3 j = s.instrElement i j := by
  cases ho : instrOperands i with
  | inl o =>
    simp only [State.instrSource, ho] at hs3
    obtain ⟨v, hv, hval⟩ := readVexSource_value s _ o (vexReadable_of_value s _ o s3 hs3)
    obtain rfl : s3 = v := SourceRead.value.inj (hs3.symm.trans hv)
    simp only [State.elementFrom, State.instrElement, State.instrControls, instrDest, instrSrc2, ho,
      fmaElement_eq_formFma s _ _ _ _ s3 _ j (hval j hj)]
  | inr o =>
    simp only [State.instrSource, ho] at hs3
    rw [instrActive_evex s i o ho] at ha
    obtain ⟨v, hv, hval⟩ := readEvexSource_value s _ o (evexReadable_of_value s _ o s3 hs3)
    obtain rfl : s3 = v := SourceRead.value.inj (hs3.symm.trans hv)
    simp only [State.elementFrom, State.instrElement, State.instrControls, instrDest, instrSrc2, ho,
      fmaElement_eq_formFma s _ _ _ _ s3 _ j (hval j hj ha)]

/-- An instruction that no earlier condition stops ends with the last steps on its elements. -/
theorem exec_of_source (i : Instr) (s : State) (s3 : Vec) (hud : s.instrDisabled i = false) (hts : s.cr0TS = false)
    (hs3 : s.instrSource i = .value s3) : exec i s = s.lastSteps i (s.instrElement i) := by
  rw [exec_eq, hud, hts, if_neg Bool.false_ne_true, if_neg Bool.false_ne_true, hs3, State.afterRead_value]
  exact complete_congr _ _ _ _ _ _ _ _ s (elementFrom_source s i s3 hs3)

theorem exec_of_available (i : Instr) (s : State) (hwf : i.wellFormed = true) (havailable : s.instrAvailable i = true)
    (hreadable : s.instrReadable i = true) : exec i s = s.lastSteps i (s.instrElement i) := by
  obtain ⟨hud, hts⟩ := (instrAvailable_iff s i hwf).mp havailable
  obtain ⟨s3, hs3⟩ := (instrReadable_iff s i).mp hreadable
  exact exec_of_source i s s3 hud hts hs3

/-! ## The last steps (60_exceptions.md rule R131) -/

/-- The set `Raised` of 60_exceptions.md rule R142. -/
def State.instrRaised (s : State) (i : Instr) : BitVec 6 :=
  raisedFlags s.mxcsr ((activeElements (instrVecLen i) (s.instrActive i)).map (s.instrElement i))

theorem instrControls_sae (s : State) (i : Instr) : (s.instrControls i).sae = (instrRounding i).isSome := by
  cases ho : instrOperands i <;> simp [State.instrControls, instrRounding, ho]

/-- The condition that the last steps test is that of rule R131. -/
theorem instrTraps_eq (s : State) (i : Instr) :
    s.instrTraps i = (!(s.instrControls i).sae &&
      anyTraps s.mxcsr ((activeElements (instrVecLen i) (s.instrActive i)).map (s.instrElement i))) := by
  simp only [State.instrTraps, State.traps, anyTraps, activeElements, instrControls_sae, List.any_map, List.any_filter,
    Option.not_isSome, Function.comp_apply]

theorem lastSteps_of_traps (s : State) (i : Instr) (h : s.instrTraps i = true) :
    s.lastSteps i (s.instrElement i) = raise (.simd (s.instrRaised i)) s := by
  rw [instrTraps_eq] at h
  exact if_pos h

theorem lastSteps_of_not_traps (s : State) (i : Instr) (h : s.instrTraps i = false) :
    s.lastSteps i (s.instrElement i) =
      .next { s.setVec (instrDest i) (packElements ((List.range (instrVecLen i).elements).map
          (newElement (s.instrControls i) (s.instrActive i) (s.vec (instrDest i)) (s.instrElement i)))) with
        mxcsr := if (instrRounding i).isSome then s.mxcsr
          else orFlags s.mxcsr (flagsBelow (instrVecLen i).elements (s.instrActive i) (s.instrElement i))
        rip   := s.nextRip (instrLength i) } := by
  rw [instrTraps_eq] at h
  rw [← instrControls_sae s i,
    ← unionFlags_eq_flagsBelow (instrVecLen i) (s.instrActive i) (s.instrElement i) _ fun _ _ _ => rfl]
  exact if_neg (Bool.eq_false_iff.mp h)

end Sys2Proof.Machine
end

section
/-! Proofs/Unavailable.lean: #UD where the state that a form uses is not enabled, and #NM after it (60_exceptions.md rules
R134, R137). Both are the first conditions of `exec_eq`; of `CR0` nothing else is read (`exec_setCr0`). -/

namespace Sys2Proof.Machine

/-! ## #UD (rule R134) -/

theorem avxEnabled_iff (s : State) : s.avxEnabled = true ↔ s.xcr0.extractLsb' 1 2 = 3#2 := by
  rw [State.avxEnabled, Bool.and_eq_true, BitVec.eq_of_getLsbD_eq_iff]
  simp only [Nat.forall_lt_succ_left, BitVec.getLsbD_extractLsb']
  simp

theorem avx512Enabled_iff (s : State) : s.avx512Enabled = true ↔ s.xcr0.extractLsb' 5 3 = 7#3 := by
  rw [State.avx512Enabled, Bool.and_eq_true, Bool.and_eq_true, BitVec.eq_of_getLsbD_eq_iff]
  simp only [Nat.forall_lt_succ_left, BitVec.getLsbD_extractLsb']
  simp [and_assoc]

/-- What disables VEX disables both kinds of form. -/
theorem instrDisabled_of_vexDisabled (s : State) (i : Instr) (h : s.vexDisabled = true) : s.instrDisabled i = true := by
  cases ho : instrOperands i <;> simp [State.instrDisabled, State.evexDisabled, ho, h]

theorem instrDisabled_of_evexDisabled (s : State) (i : Instr) (hevex : instrIsEvex i = true) (h : s.evexDisabled = true) :
    s.instrDisabled i = true := by
  cases ho : instrOperands i with
  | inl o => simp [instrIsEvex, ho] at hevex
  | inr o => simp [State.instrDisabled, ho, h]

/-- Settles O17: each missing enable is among the #UD conditions of its kind of form. -/
theorem disabledStateRaisesUd : Obligations.DisabledStateRaisesUd := by
  intro i s h
  refine exec_of_disabled i s ?_
  rcases h with hxsave | havx | ⟨hevex, h512⟩
  · have hxsave : s.cr4OSXSAVE = false := hxsave
    exact instrDisabled_of_vexDisabled s i (by simp [State.vexDisabled, hxsave])
  · rw [ne_eq, ← avxEnabled_iff, Bool.not_eq_true] at havx
    exact instrDisabled_of_vexDisabled s i (by simp [State.vexDisabled, havx])
  · rw [ne_eq, ← avx512Enabled_iff, Bool.not_eq_true] at h512
    exact instrDisabled_of_evexDisabled s i hevex (by simp [State.evexDisabled, h512])

/-! ## #NM (rule R137) -/

/-- The state with another `CR0`. -/
def State.setCr0 (s : State) (c : Quad) : State := { s with cr0 := c }

section SetCr0

variable (s : State) (c : Quad)

theorem raise_setCr0 (x : Exception) : raise x (s.setCr0 c) = mapResult (·.setCr0 c) (raise x s) := by
  cases x with
  | simd raised =>
    have hxm : (s.setCr0 c).cr4OSXMMEXCPT = s.cr4OSXMMEXCPT := rfl
    simp only [raise, hxm]
    split <;> rfl
  | ud => rfl
  | nm => rfl
  | ss => rfl
  | gp => rfl
  | pf code a => rfl

/-- `CR0.PE` is the one bit of `CR0` among the #UD conditions. -/
theorem instrDisabled_setCr0 (i : Instr) (hpe : c.getLsbD 0 = s.cr0.getLsbD 0) :
    (s.setCr0 c).instrDisabled i = s.instrDisabled i := by
  have hvex : (s.setCr0 c).vexDisabled = s.vexDisabled := by
    simp only [State.vexDisabled, State.inRealMode, State.cr0PE, State.setCr0, hpe]
    rfl
  have hevex : (s.setCr0 c).evexDisabled = s.evexDisabled := by rw [State.evexDisabled, hvex]; rfl
  simp only [State.instrDisabled, hvex, hevex]
  rfl

theorem readStop_setCr0 (l : Location) (x : Exception) (bytes : List Nat) :
    (s.setCr0 c).readStop l x bytes = (s.readStop l x bytes).map (mapResult (·.setCr0 c)) := by
  have hlegal : (s.setCr0 c).byteLegal l = s.byteLegal l := rfl
  have hpage : (s.setCr0 c).bytePageFault l = s.bytePageFault l := rfl
  have hdevice : (s.setCr0 c).byteDevice l = s.byteDevice l := rfl
  simp only [State.readStop, hlegal, hpage, hdevice, raise_setCr0]
  split
  · rfl
  · split
    · rfl
    · split <;> rfl

/-- What reading `SRC3` gives, with the state of an outcome that ends the step changed by `f`. -/
def SourceRead.mapStop (f : State → State) : SourceRead → SourceRead
  | .value v => .value v
  | .stops r => .stops (mapResult f r)

theorem readWhole_setCr0 (l : Location) (x : Exception) (vl : VecLen) (active : Nat → Bool) :
    (s.setCr0 c).readWhole l x vl active = (s.readWhole l x vl active).mapStop (·.setCr0 c) := by
  rw [State.readWhole, State.readWhole, readStop_setCr0]
  cases s.readStop l x _ <;> rfl

theorem readBroadcast_setCr0 (l : Location) (x : Exception) (vl : VecLen) (active : Nat → Bool) :
    (s.setCr0 c).readBroadcast l x vl active = (s.readBroadcast l x vl active).mapStop (·.setCr0 c) := by
  rw [State.readBroadcast, State.readBroadcast, readStop_setCr0]
  cases s.readStop l x _ <;> rfl

theorem instrSource_setCr0 (i : Instr) : (s.setCr0 c).instrSource i = (s.instrSource i).mapStop (·.setCr0 c) := by
  cases ho : instrOperands i with
  | inl o =>
    simp only [State.instrSource, State.readVexSource, ho]
    cases o.src3 with
    | reg n => rfl
    | mem a => exact readWhole_setCr0 s c _ _ _ _
  | inr o =>
    simp only [State.instrSource, State.readEvexSource, ho]
    cases o.src3 with
    | reg n => rfl
    | regRounded n rc => rfl
    | mem a => exact readWhole_setCr0 s c _ _ _ _
    | bcast a => exact readBroadcast_setCr0 s c _ _ _ _

theorem complete_setCr0 (vl : VecLen) (k : Controls) (active : Nat → Bool) (dest : EvexReg) (d : Vec)
    (e : Nat → FmaResult) (len : Nat) :
    complete vl k active dest d e len (s.setCr0 c) = mapResult (·.setCr0 c) (complete vl k active dest d e len s) := by
  have hmxcsr : (s.setCr0 c).mxcsr = s.mxcsr := rfl
  simp only [complete, hmxcsr, raise_setCr0]
  split <;> rfl

theorem afterRead_setCr0 (i : Instr) (r : SourceRead) :
    (s.setCr0 c).afterRead i (r.mapStop (·.setCr0 c)) = mapResult (·.setCr0 c) (s.afterRead i r) := by
  cases r with
  | stops r => rfl
  | value s3 => exact complete_setCr0 s c _ _ _ _ _ _ _

/-- Of `CR0`, `PE` and `TS` alone are read, and nothing of it is written. -/
theorem exec_setCr0 (i : Instr) (hpe : c.getLsbD 0 = s.cr0.getLsbD 0) (hts : c.getLsbD 3 = s.cr0.getLsbD 3) :
    exec i (s.setCr0 c) = mapResult (·.setCr0 c) (exec i s) := by
  have hnm : (s.setCr0 c).cr0TS = s.cr0TS := hts
  rw [exec_eq, exec_eq, instrDisabled_setCr0 s c i hpe, hnm, raise_setCr0, raise_setCr0, instrSource_setCr0, afterRead_setCr0]
  split
  · rfl
  · split <;> rfl

end SetCr0

/-- Settles O19: with `CR0.TS` cleared, an instruction is available exactly where no #UD condition holds. -/
theorem taskSwitchedRaisesNm : Obligations.TaskSwitchedRaisesNm := by
  intro i s hwf
  have havailable : (s.setCr0 (s.cr0 &&& ~~~0x8#64)).instrAvailable i = true ↔ s.instrDisabled i = false := by
    have hts : (s.setCr0 (s.cr0 &&& ~~~0x8#64)).cr0TS = false := by simp [State.cr0TS, State.setCr0]
    rw [instrAvailable_iff _ i hwf, instrDisabled_setCr0 s _ i (by simp), and_iff_left hts]
  refine ⟨fun hts h => ?nm, fun h => ?ud, ?em⟩
  case nm => exact exec_of_taskSwitched i s (havailable.mp h) hts
  case ud =>
    refine exec_of_disabled i s (Bool.of_not_eq_false fun hud => ?_)
    exact Bool.false_ne_true (h.symm.trans (havailable.mpr hud))
  case em => exact exec_setCr0 s _ i (by simp) (by simp)

end Sys2Proof.Machine
end

section
/-! Proofs/SimdFault.lean: where a SIMD floating-point exception is raised, and what #XM leaves (60_exceptions.md rules R131,
R132, R142). The last steps of `exec_of_available` raise it, and nothing before them does (`exec_eq_simdFault`). -/

namespace Sys2Proof.Machine

/-! ## #UD or #XM (rules R131, R132) -/

/-- Settles O21: the last steps raise the exception, and `CR4.OSXMMEXCPT` decides which it is. -/
theorem unmaskedSimdExceptionIsXmOrUd : Obligations.UnmaskedSimdExceptionIsXmOrUd := by
  intro i s hwf havailable hreadable htraps
  rw [exec_of_available i s hwf havailable hreadable, lastSteps_of_traps s i htraps]
  exact ⟨fun hxm => ⟨_, if_pos hxm⟩, fun hud => if_neg (Bool.eq_false_iff.mp hud)⟩

theorem raise_after_zmm (x : Exception) (s : State) : ∃ f, raise x s = .fault f ∧ f.after.zmm = s.zmm := by
  obtain ⟨f, hf, c, g, d, hafter⟩ := raise_after x s
  exact ⟨f, hf, by rw [hafter]⟩

/-- Settles O22: the last steps raise an exception, or complete, by the condition of rule R131. -/
theorem completesUnlessUnmasked : Obligations.CompletesUnlessUnmasked := by
  intro i s hwf havailable hreadable
  rw [exec_of_available i s hwf havailable hreadable]
  refine ⟨fun htraps => ?fault, fun hcompletes => ⟨_, lastSteps_of_not_traps s i hcompletes, fun j hj ha => ?result, rfl⟩⟩
  case fault =>
    rw [lastSteps_of_traps s i htraps]
    exact raise_after_zmm _ s
  case result =>
    have hdest := (element_newElement (instrVecLen i) (s.instrControls i) (s.instrActive i) (s.vec (instrDest i))
      (s.instrElement i) j).1 hj
    rw [if_pos ha] at hdest
    rw [← hdest]
    exact congrArg (element · j) (State.vec_setVec_same s (instrDest i) _)

/-! ## What #XM leaves (rule R142) -/

theorem exists_getLsbD_of_and_ne_zero (x y : BitVec 6) (h : x &&& y ≠ 0#6) :
    ∃ n, n < 6 ∧ x.getLsbD n = true ∧ y.getLsbD n = true := by
  by_contra hnone
  push Not at hnone
  refine h (BitVec.eq_of_getLsbD_eq fun n hn => ?_)
  rw [BitVec.getLsbD_and, BitVec.getLsbD_zero]
  cases hx : x.getLsbD n
  · rfl
  · exact Bool.eq_false_iff.mpr (hnone n hn hx)

/-- Rule R131: the kinds `U` are those whose mask bit is 0, but for `ZE`. -/
theorem getLsbD_unmasked (m : BitVec 32) (n : Nat) (hn : n < 6) :
    (unmasked m).getLsbD n = true ↔ m.getLsbD (7 + n) = false ∧ n ≠ 2 := by
  have hkinds : (flagIE ||| flagDE ||| flagOE ||| flagUE ||| flagPE).getLsbD n = decide (n ≠ 2) := by
    interval_cases n <;> decide
  rw [unmasked, BitVec.getLsbD_and, hkinds]
  simp [mxcsrMasks, hn]

theorem eq_four_of_getLsbD_flagUE (n : Nat) (h : flagUE.getLsbD n = true) : n = 4 := by
  have hbit : flagUE = BitVec.twoPow 6 4 := by decide
  rw [hbit, BitVec.getLsbD_twoPow, Bool.and_eq_true, decide_eq_true_eq, decide_eq_true_eq] at h
  exact h.2.symm

/-- A flag that one element adds to `Raised`: one that it raises, or `UE` of a tiny result while underflow is unmasked. -/
theorem getLsbD_elementRaised (m : BitVec 32) (flags : BitVec 6) (tiny : Bool) (n : Nat)
    (h : (elementRaised m flags tiny).getLsbD n = true) :
    flags.getLsbD n = true ∨ (n = 4 ∧ m.getLsbD 11 = false ∧ tiny = true) := by
  rw [elementRaised, BitVec.getLsbD_or, Bool.or_eq_true] at h
  refine h.imp_right fun hue => ?_
  rw [flagIf] at hue
  split at hue
  case isFalse => exact absurd hue (by simp)
  case isTrue hcond =>
    simp only [Bool.and_eq_true, bne_iff_ne] at hcond
    obtain ⟨htiny, hmeets⟩ := hcond
    obtain ⟨k, hk, hkue, hkun⟩ := exists_getLsbD_of_and_ne_zero _ _ hmeets
    obtain rfl := eq_four_of_getLsbD_flagUE k hkue
    exact ⟨eq_four_of_getLsbD_flagUE n hue, ((getLsbD_unmasked m 4 hk).mp hkun).1, htiny⟩

/-- An element that meets the condition of rule R131 adds an unmasked flag to `Raised`. -/
theorem elementRaised_meets (m : BitVec 32) (flags : BitVec 6) (tiny : Bool) (h : elementTraps m flags tiny = true) :
    ∃ n, n < 6 ∧ (elementRaised m flags tiny).getLsbD n = true ∧ (unmasked m).getLsbD n = true := by
  simp only [elementTraps, Bool.or_eq_true, Bool.and_eq_true, bne_iff_ne] at h
  rcases h with hflags | ⟨htiny, hue⟩
  · obtain ⟨n, hn, hf, hu⟩ := exists_getLsbD_of_and_ne_zero _ _ hflags
    exact ⟨n, hn, by rw [elementRaised, BitVec.getLsbD_or, hf, Bool.true_or], hu⟩
  · obtain ⟨n, hn, hf, hu⟩ := exists_getLsbD_of_and_ne_zero _ _ hue
    exact ⟨n, hn, by simp [elementRaised, flagIf, htiny, hue, hf], hu⟩

theorem getLsbD_raisedFlags (m : BitVec 32) (elems : List FmaResult) (n : Nat) :
    (raisedFlags m elems).getLsbD n = elems.any fun r => (elementRaised m r.flags r.tiny).getLsbD n := by
  have hfold : ∀ f : BitVec 6, (elems.foldl (fun f r => f ||| elementRaised m r.flags r.tiny) f).getLsbD n =
      (f.getLsbD n || elems.any fun r => (elementRaised m r.flags r.tiny).getLsbD n) := by
    induction elems with
    | nil => simp
    | cons r rest ih => intro f; rw [List.foldl_cons, ih, BitVec.getLsbD_or, List.any_cons, Bool.or_assoc]
  rw [raisedFlags, hfold, BitVec.getLsbD_zero, Bool.false_or]

theorem getLsbD_instrRaised (s : State) (i : Instr) (n : Nat) :
    (s.instrRaised i).getLsbD n = true ↔ ∃ j, j < (instrVecLen i).elements ∧ s.instrActive i j = true ∧
      (elementRaised s.mxcsr (s.instrElement i j).flags (s.instrElement i j).tiny).getLsbD n = true := by
  simp [State.instrRaised, getLsbD_raisedFlags, List.any_eq_true, mem_activeElements, and_assoc]

/-- An instruction that meets the condition of rule R131 has an unmasked flag in `Raised`. -/
theorem instrRaised_meets (s : State) (i : Instr) (h : s.instrTraps i = true) :
    s.instrRaised i &&& unmasked s.mxcsr ≠ 0#6 := by
  simp only [State.instrTraps, State.traps, Bool.and_eq_true, List.any_eq_true, List.mem_range] at h
  obtain ⟨_, j, hj, ha, htraps⟩ := h
  obtain ⟨n, _, hraised, hunmasked⟩ := elementRaised_meets _ _ _ htraps
  intro hzero
  have hbit := congrArg (·.getLsbD n) hzero
  simp [(getLsbD_instrRaised s i n).mpr ⟨j, hj, ha, hraised⟩, hunmasked] at hbit

/-- #XM is raised for a SIMD floating-point exception alone. -/
theorem raise_eq_simdFault (x : Exception) (s t : State) (h : raise x s = .fault (.simdFloatingPoint t)) :
    ∃ raised, x = .simd raised ∧ t = { s with mxcsr := s.simdFaultMxcsr raised, draws := s.draws + 1 } := by
  cases x with
  | simd raised =>
    rw [raise] at h
    split at h
    · cases h
      exact ⟨raised, rfl, rfl⟩
    · cases h
  | ud => cases h
  | nm => cases h
  | ss => cases h
  | gp => cases h
  | pf code a => cases h

/-- A segment exception is #SS(0) or #GP(0) (20_memory.md rule R45). -/
theorem segmentFault_cases (s : State) (pre : Prefixes) (a : AddrForm) :
    s.segmentFault pre a = .ss ∨ s.segmentFault pre a = .gp := by
  unfold State.segmentFault
  split <;> split <;> simp

theorem readStop_ne_simdFault (s t : State) (l : Location) (pre : Prefixes) (a : AddrForm) (bytes : List Nat) :
    s.readStop l (s.segmentFault pre a) bytes ≠ some (.fault (.simdFloatingPoint t)) := by
  intro h
  rcases readStop_some _ _ _ _ _ h with hseg | ⟨code, b, hpf⟩ | hrefused
  · obtain ⟨raised, hx, _⟩ := raise_eq_simdFault _ _ _ hseg.symm
    rcases segmentFault_cases s pre a with hss | hgp
    · exact nomatch hss.symm.trans hx
    · exact nomatch hgp.symm.trans hx
  · cases hpf
  · cases hrefused

theorem readWhole_stops (s : State) (l : Location) (x : Exception) (vl : VecLen) (active : Nat → Bool) (r : Result)
    (h : s.readWhole l x vl active = .stops r) : ∃ bytes, s.readStop l x bytes = some r := by
  rw [State.readWhole] at h
  split at h
  · rename_i hr
    cases h
    exact ⟨_, hr⟩
  · cases h

theorem readBroadcast_stops (s : State) (l : Location) (x : Exception) (vl : VecLen) (active : Nat → Bool) (r : Result)
    (h : s.readBroadcast l x vl active = .stops r) : ∃ bytes, s.readStop l x bytes = some r := by
  rw [State.readBroadcast] at h
  split at h
  · rename_i hr
    cases h
    exact ⟨_, hr⟩
  · cases h

/-- What ends a step while `SRC3` is read is what stops the read of a memory operand. -/
theorem instrSource_stops (s : State) (i : Instr) (r : Result) (h : s.instrSource i = .stops r) :
    ∃ l pre a bytes, s.readStop l (s.segmentFault pre a) bytes = some r := by
  cases ho : instrOperands i with
  | inl o =>
    simp only [State.instrSource, State.readVexSource, ho] at h
    cases hsrc : o.src3 with
    | reg n => simp [hsrc] at h
    | mem a =>
      rw [hsrc] at h
      exact ⟨_, o.pre, a, readWhole_stops _ _ _ _ _ _ h⟩
  | inr o =>
    simp only [State.instrSource, State.readEvexSource, ho] at h
    cases hsrc : o.src3 with
    | reg n => simp [hsrc] at h
    | regRounded n rc => simp [hsrc] at h
    | mem a =>
      rw [hsrc] at h
      exact ⟨_, o.pre, a, readWhole_stops _ _ _ _ _ _ h⟩
    | bcast a =>
      rw [hsrc] at h
      exact ⟨_, o.pre, a, readBroadcast_stops _ _ _ _ _ _ h⟩

/-- #XM comes of the last steps alone. -/
theorem exec_eq_simdFault (i : Instr) (s t : State) (h : exec i s = .fault (.simdFloatingPoint t)) :
    s.instrTraps i = true ∧ t = { s with mxcsr := s.simdFaultMxcsr (s.instrRaised i), draws := s.draws + 1 } := by
  cases hud : s.instrDisabled i
  case true => exact nomatch (exec_of_disabled i s hud).symm.trans h
  cases hts : s.cr0TS
  case true => exact nomatch (exec_of_taskSwitched i s hud hts).symm.trans h
  cases hsource : s.instrSource i with
  | stops r =>
    obtain ⟨l, pre, a, bytes, hstop⟩ := instrSource_stops s i r hsource
    have hr : r = .fault (.simdFloatingPoint t) := by simpa [exec_eq, hud, hts, hsource] using h
    exact absurd (hr ▸ hstop) (readStop_ne_simdFault s t l pre a bytes)
  | value s3 =>
    rw [exec_of_source i s s3 hud hts hsource] at h
    cases htraps : s.instrTraps i
    case false => exact nomatch (lastSteps_of_not_traps s i htraps).symm.trans h
    rw [lastSteps_of_traps s i htraps] at h
    obtain ⟨raised, hraised, ht⟩ := raise_eq_simdFault _ s t h
    cases hraised
    exact ⟨rfl, ht⟩

/-- The set `G` that #XM leaves in `MXCSR` (rule R142). -/
def State.faultFlags (s : State) (i : Instr) : BitVec 6 :=
  drawFlags s.mxcsr (s.instrRaised i) (Config.simdFaultFlags s.draws)

theorem faultFlags_subset (s : State) (i : Instr) (n : Nat) (h : (s.faultFlags i).getLsbD n = true) :
    (s.instrRaised i).getLsbD n = true := by
  have hsubset : s.faultFlags i &&& s.instrRaised i = s.faultFlags i := drawFlags_subset _ _ _
  rw [← hsubset, BitVec.getLsbD_and, Bool.and_eq_true] at h
  exact h.2

theorem faultFlags_meets (s : State) (i : Instr) (h : s.instrTraps i = true) : s.faultFlags i &&& unmasked s.mxcsr ≠ 0#6 :=
  drawFlags_meets _ _ _ (instrRaised_meets s i h)

/-- Settles O23: the set drawn lies inside `Raised` and meets the unmasked kinds. -/
theorem flagsAtSimdFault : Obligations.FlagsAtSimdFault := by
  intro i s t h
  obtain ⟨htraps, rfl⟩ := exec_eq_simdFault i s t h
  refine ⟨s.faultFlags i, rfl, mxcsrFlags_orFlags s.mxcsr (s.faultFlags i), upper_orFlags s.mxcsr (s.faultFlags i),
    fun n hn => ?raised, ?unmasked⟩
  case raised =>
    obtain ⟨j, hj, ha, hraised⟩ := (getLsbD_instrRaised s i n).mp (faultFlags_subset s i n hn)
    exact ⟨j, hj, ha, getLsbD_elementRaised _ _ _ n hraised⟩
  case unmasked =>
    obtain ⟨n, hn, hg, hunmasked⟩ := exists_getLsbD_of_and_ne_zero _ _ (faultFlags_meets s i htraps)
    obtain ⟨hmask, hze⟩ := (getLsbD_unmasked s.mxcsr n hn).mp hunmasked
    exact ⟨n, hn, hze, hg, hmask⟩

end Sys2Proof.Machine
end

section
/-! Proofs/Reset.lean: the registers at reset (10_state.md rule R25), and the #UD of every form there (70_reset_and_hazards.md
rule R156), for which real-address mode is enough (60_exceptions.md rule R133). -/

namespace Sys2Proof.Machine

@[simp] theorem State.reset_vec (n : EvexReg) : State.reset.vec n = 0 := Vector.getElem_replicate _

@[simp] theorem State.reset_opmask (n : BitVec 3) : State.reset.opmask n = 0 := Vector.getElem_replicate _

@[simp] theorem State.reset_inRealMode : State.reset.inRealMode = true := rfl

theorem State.reset_vexDisabled : State.reset.vexDisabled = true := by
  rw [State.vexDisabled, State.reset_inRealMode, Bool.true_or, Bool.true_or]

/-- Settles O56: the registers are read off the reset state; real-address mode is the first #UD condition of every form. -/
theorem everyFormRaisesUdAtReset : Obligations.EveryFormRaisesUdAtReset := by
  have hud (i : Instr) : exec i State.reset = .fault (.invalidOpcode State.reset) :=
    exec_of_disabled i State.reset (instrDisabled_of_vexDisabled State.reset i State.reset_vexDisabled)
  exact ⟨rfl, State.reset_vec, State.reset_opmask, rfl, rfl, rfl, rfl, rfl, hud⟩

end Sys2Proof.Machine
end

section
/-! Proofs/EncodedBytes.lean: the bytes that the encoder writes (30_encoding.md rules R46 to R57), field by field, and `SRC3`
as the decoder reads it back from them. -/

namespace Sys2Proof

open Machine

/-! ## The payload bytes -/

/-- The payload byte of VEX with the map, from the bits that it holds inverted. -/
def vexByte1 (r x b : BitVec 1) : Byte := ~~~r ++ (~~~x ++ (~~~b ++ 2#5))

/-- The payload byte of VEX with `W`, `vvvv`, `L` and `pp`. -/
def vexByte2 (vvvv : BitVec 4) (l : BitVec 1) : Byte := 1#1 ++ (~~~vvvv ++ (l ++ 1#2))

/-- Payload byte 0 of EVEX, from the bits that it holds inverted. -/
def evexByte0 (r x b r' : BitVec 1) : Byte := ~~~r ++ (~~~x ++ (~~~b ++ (~~~r' ++ 2#4)))

/-- Payload byte 1 of EVEX. -/
def evexByte1 (vvvv : BitVec 4) : Byte := 1#1 ++ (~~~vvvv ++ (1#1 ++ 1#2))

/-- Payload byte 2 of EVEX. -/
def evexByte2 (z : BitVec 1) (ll : BitVec 2) (b v' : BitVec 1) (aaa : BitVec 3) : Byte := z ++ (ll ++ (b ++ (~~~v' ++ aaa)))

def modrmByte (mod : BitVec 2) (reg rm : BitVec 3) : Byte := mod ++ (reg ++ rm)

def sibByte (scale : BitVec 2) (index base : BitVec 3) : Byte := scale ++ (index ++ base)

theorem vexByte1_fields : ∀ r x b : BitVec 1,
    (vexByte1 r x b).extractLsb' 0 5 = 2#5 ∧ (vexByte1 r x b).extractLsb' 5 1 = ~~~b ∧
    (vexByte1 r x b).extractLsb' 6 1 = ~~~x ∧ (vexByte1 r x b).extractLsb' 7 1 = ~~~r ∧
    ((vexByte1 r x b).extractLsb' 6 2 = 3#2 ↔ r = 0#1 ∧ x = 0#1) := by
  decide

theorem vexByte2_fields : ∀ (vvvv : BitVec 4) (l : BitVec 1),
    (vexByte2 vvvv l).extractLsb' 0 2 = 1#2 ∧ (vexByte2 vvvv l).extractLsb' 2 1 = l ∧
    (vexByte2 vvvv l).extractLsb' 3 4 = ~~~vvvv ∧ (vexByte2 vvvv l).extractLsb' 7 1 = 1#1 ∧
    ((vexByte2 vvvv l).extractLsb' 6 1 = 0#1 ↔ 8 ≤ vvvv.toNat) := by
  decide

theorem evexByte0_fields : ∀ r x b r' : BitVec 1,
    (evexByte0 r x b r').extractLsb' 0 2 = 2#2 ∧ (evexByte0 r x b r').extractLsb' 2 2 = 0#2 ∧
    (evexByte0 r x b r').extractLsb' 4 1 = ~~~r' ∧ (evexByte0 r x b r').extractLsb' 5 1 = ~~~b ∧
    (evexByte0 r x b r').extractLsb' 6 1 = ~~~x ∧ (evexByte0 r x b r').extractLsb' 7 1 = ~~~r ∧
    ~~~(evexByte0 r x b r').extractLsb' 5 2 = x ++ b ∧
    ((evexByte0 r x b r').extractLsb' 6 2 = 3#2 ↔ r = 0#1 ∧ x = 0#1) ∧
    ((evexByte0 r x b r').extractLsb' 4 2 = 3#2 ↔ r' = 0#1 ∧ b = 0#1) := by
  decide

theorem evexByte1_fields : ∀ vvvv : BitVec 4,
    (evexByte1 vvvv).extractLsb' 0 2 = 1#2 ∧ (evexByte1 vvvv).extractLsb' 2 1 = 1#1 ∧
    (evexByte1 vvvv).extractLsb' 3 4 = ~~~vvvv ∧ (evexByte1 vvvv).extractLsb' 7 1 = 1#1 ∧
    ((evexByte1 vvvv).extractLsb' 6 1 = 0#1 ↔ 8 ≤ vvvv.toNat) := by
  decide

theorem evexByte2_fields : ∀ (z : BitVec 1) (ll : BitVec 2) (b v' : BitVec 1) (aaa : BitVec 3),
    (evexByte2 z ll b v' aaa).extractLsb' 0 3 = aaa ∧ (evexByte2 z ll b v' aaa).extractLsb' 3 1 = ~~~v' ∧
    (evexByte2 z ll b v' aaa).extractLsb' 4 1 = b ∧ (evexByte2 z ll b v' aaa).extractLsb' 5 2 = ll ∧
    (evexByte2 z ll b v' aaa).extractLsb' 7 1 = z := by
  decide

@[simp] theorem modrmByte_fields : ∀ (mod : BitVec 2) (reg rm : BitVec 3),
    (modrmByte mod reg rm).extractLsb' 0 3 = rm ∧ (modrmByte mod reg rm).extractLsb' 3 3 = reg ∧
    (modrmByte mod reg rm).extractLsb' 6 2 = mod := by
  decide

theorem sibByte_fields : ∀ (scale : BitVec 2) (index base : BitVec 3),
    (sibByte scale index base).extractLsb' 0 3 = base ∧ (sibByte scale index base).extractLsb' 3 3 = index ∧
    (sibByte scale index base).extractLsb' 6 2 = scale := modrmByte_fields

/-! ## Registers from their bits -/

theorem gpr_of_bits (n : BitVec 4) : n.extractLsb' 3 1 ++ n.extractLsb' 0 3 = n :=
  (BitVec.extractLsb'_append_extractLsb'_eq_extractLsb' rfl).trans BitVec.extractLsb'_eq_self

theorem evexReg_of_bits (n : EvexReg) : n.extractLsb' 4 1 ++ (n.extractLsb' 3 1 ++ n.extractLsb' 0 3) = n := by
  revert n
  decide

theorem evexReg_of_v_bits (n : EvexReg) : n.extractLsb' 4 1 ++ n.extractLsb' 0 4 = n :=
  (BitVec.extractLsb'_append_extractLsb'_eq_extractLsb' rfl).trans BitVec.extractLsb'_eq_self

theorem low_of_append (b : BitVec 1) (rm : BitVec 3) : (b ++ rm).extractLsb' 0 3 = rm :=
  BitVec.extractLsb'_append_eq_right

/-! ## `SRC3`, read back from the bytes of the encoder -/

theorem takeDisp32_encodeDisp32 (d : BitVec 32) (tail : List Byte) : takeDisp32 (encodeDisp32 d ++ tail) = some d := by
  have h8 : d.extractLsb' 24 8 ++ d.extractLsb' 16 8 = d.extractLsb' 16 16 :=
    BitVec.extractLsb'_append_extractLsb'_eq_extractLsb' rfl
  have h16 : d.extractLsb' 16 16 ++ d.extractLsb' 8 8 = d.extractLsb' 8 24 :=
    BitVec.extractLsb'_append_extractLsb'_eq_extractLsb' rfl
  have h24 : d.extractLsb' 8 24 ++ d.extractLsb' 0 8 = d :=
    (BitVec.extractLsb'_append_extractLsb'_eq_extractLsb' rfl).trans BitVec.extractLsb'_eq_self
  refine congrArg some ?_
  rw [h8, h16, h24]

theorem takeDisp_encodeDisp (d : Disp) (tail : List Byte) : takeDisp (dispMod d) (encodeDisp d ++ tail) = some d := by
  cases d with
  | none => rfl
  | disp8 d => rfl
  | disp32 d =>
    refine (takeDisp_four 2#2 _ (by decide) (by decide)).trans ?_
    rw [encodeDisp, takeDisp32_encodeDisp32, Option.map_some]

/-- `mod = 11` is no displacement. -/
theorem dispMod_ne_three (d : Disp) : dispMod d ≠ 3#2 := by cases d <;> simp [dispMod]

theorem dispMod_eq_zero (d : Disp) (h : dispMod d = 0#2) : d = .none := by
  cases d <;> simp_all [dispMod]

theorem takeSib_encodeSib (s : BitVec 2) (i b : GprNum) (d : Disp) (tail : List Byte)
    (h : d = .none → b.extractLsb' 0 3 ≠ 5#3) :
    takeSib (i.extractLsb' 3 1) (b.extractLsb' 3 1) (dispMod d)
      (sibByte s (i.extractLsb' 0 3) (b.extractLsb' 0 3) :: (encodeDisp d ++ tail)) = some (.sib s i b d) := by
  obtain ⟨hbase, hindex, hscale⟩ := sibByte_fields s (i.extractLsb' 0 3) (b.extractLsb' 0 3)
  rw [takeSib_base _ _ _ _ _ fun ⟨hmod, h5⟩ => h (dispMod_eq_zero d hmod) (hbase ▸ h5), takeDisp_encodeDisp, hbase, hindex,
    hscale, gpr_of_bits, gpr_of_bits, Option.map_some]

theorem takeSib_encodeSibNoBase (s : BitVec 2) (i : GprNum) (d : BitVec 32) (x : BitVec 1) (tail : List Byte) :
    takeSib (i.extractLsb' 3 1) x 0#2 (sibByte s (i.extractLsb' 0 3) 5#3 :: (encodeDisp32 d ++ tail)) =
      some (.sibNoBase s i d) := by
  obtain ⟨hbase, hindex, hscale⟩ := sibByte_fields s (i.extractLsb' 0 3) 5#3
  rw [takeSib_noBase _ _ _ _ _ ⟨rfl, hbase⟩, takeDisp32_encodeDisp32, hindex, hscale, gpr_of_bits, Option.map_some]

/-- What well-formedness says of a base without a SIB byte (rule R54). -/
theorem base_wellFormed (b : GprNum) (d : Disp) (h : (AddrForm.base b d).wellFormed = true) :
    b.extractLsb' 0 3 ≠ 4#3 ∧ (d = .none → b.extractLsb' 0 3 ≠ 5#3) := by
  cases d <;> simp_all [AddrForm.wellFormed]

/-- Every well-formed memory operand is read back from its bytes, whatever follows them. -/
theorem takeRm_encodeAddr (a : AddrForm) (reg : BitVec 3) (tail : List Byte) (h : a.wellFormed = true) :
    takeRm (encodeAddr a).x (encodeAddr a).b (modrmByte (encodeAddr a).mod reg (encodeAddr a).rm)
      ((encodeAddr a).tail ++ tail) = some (.mem a) := by
  obtain ⟨hrm, _, hmod⟩ := modrmByte_fields (encodeAddr a).mod reg (encodeAddr a).rm
  cases a with
  | base b d =>
    obtain ⟨h4, h5⟩ := base_wellFormed b d h
    simp only [encodeAddr] at hrm hmod ⊢
    rw [takeRm_base _ _ _ _ (by rw [hmod]; exact dispMod_ne_three d) (by rw [hrm]; exact h4)
      (by rw [hmod, hrm]; exact fun hd => h5 (dispMod_eq_zero d hd.1) hd.2), hmod, hrm, takeDisp_encodeDisp, gpr_of_bits,
      Option.map_some]
  | disp32 d =>
    simp only [encodeAddr] at hrm hmod ⊢
    rw [takeRm_disp32 _ _ _ _ hmod hrm, takeDisp32_encodeDisp32, Option.map_some]
  | sib s i b d =>
    have h5 : d = .none → b.extractLsb' 0 3 ≠ 5#3 := by
      rintro rfl
      simpa [AddrForm.wellFormed] using h
    simp only [encodeAddr] at hrm hmod ⊢
    rw [takeRm_sib _ _ _ _ (by rw [hmod]; exact dispMod_ne_three d) hrm, hmod]
    exact congrArg (Option.map RmField.mem) (takeSib_encodeSib s i b d tail h5)
  | sibNoBase s i d =>
    simp only [encodeAddr] at hrm hmod ⊢
    rw [takeRm_sib _ _ _ _ (by rw [hmod]; decide) hrm, hmod]
    exact congrArg (Option.map RmField.mem) (takeSib_encodeSibNoBase s i d 0#1 tail)

/-- A register form has no bytes after ModRM. -/
theorem takeRm_modrm_reg (x b : BitVec 1) (reg rm : BitVec 3) (tail : List Byte) :
    takeRm x b (modrmByte 3#2 reg rm) tail = some (.reg rm) := by
  obtain ⟨hrm, _, hmod⟩ := modrmByte_fields 3#2 reg rm
  rw [takeRm_reg _ _ _ _ hmod, hrm]

end Sys2Proof
end

section
/-! Proofs/BytesRead.lean: how many bytes `SRC3` takes (30_encoding.md rule R57): those alone decide it, and fewer do not tell
it. -/

namespace Sys2Proof

open Machine

/-- A reader `f` takes `a` from the first `n` of these bytes, whatever follows them, and takes nothing from fewer. -/
structure Reads {α : Type} (f : List Byte → Option α) (bytes : List Byte) (a : α) (n : Nat) : Prop where
  enough : n ≤ bytes.length
  value  : ∀ tail, f (bytes.take n ++ tail) = some a
  short  : ∀ k, k < n → f (bytes.take k) = none

/-- A reader that takes no byte. -/
theorem Reads.const {α : Type} (bytes : List Byte) (a : α) : Reads (fun _ => some a) bytes a 0 :=
  ⟨Nat.zero_le _, fun _ => rfl, fun _ hk => absurd hk (Nat.not_lt_zero _)⟩

theorem Reads.map {α β : Type} {f : List Byte → Option α} {bytes : List Byte} {a : α} {n : Nat} (h : Reads f bytes a n)
    (g : α → β) : Reads (fun l => (f l).map g) bytes (g a) n where
  enough := h.enough
  value tail := by rw [h.value, Option.map_some]
  short k hk := by rw [h.short k hk, Option.map_none]

/-- A reader that looks at one byte and goes on after it. -/
theorem Reads.cons {α : Type} {f g : List Byte → Option α} {b : Byte} {rest : List Byte} {a : α} {n : Nat}
    (h : Reads g rest a n) (hcons : ∀ l, f (b :: l) = g l) (hnil : f [] = none) : Reads f (b :: rest) a (n + 1) where
  enough := Nat.succ_le_succ h.enough
  value tail := (hcons _).trans (h.value tail)
  short k hk := by
    cases k with
    | zero => exact hnil
    | succ k => exact (hcons _).trans (h.short k (Nat.lt_of_succ_lt_succ hk))

theorem reads_takeDisp32 (rest : List Byte) (d : BitVec 32) (h : takeDisp32 rest = some d) : Reads takeDisp32 rest d 4 := by
  match rest, h with
  | b0 :: b1 :: b2 :: b3 :: rest, h =>
    refine ⟨by simp, fun _ => h, fun k hk => ?_⟩
    match k, hk with
    | 0, _ => rfl
    | 1, _ => rfl
    | 2, _ => rfl
    | 3, _ => rfl

theorem reads_takeDisp (mod : BitVec 2) (rest : List Byte) (d : Disp) (h : takeDisp mod rest = some d) :
    Reads (takeDisp mod) rest d (dispLength d) := by
  rcases disp_cases mod with rfl | rfl | ⟨hzero, hone⟩
  · obtain rfl : Disp.none = d := Option.some.inj h
    exact Reads.const rest Disp.none
  · match rest, h with
    | b :: rest, h =>
      obtain rfl : Disp.disp8 b = d := Option.some.inj h
      exact (Reads.const rest (Disp.disp8 b)).cons (fun _ => rfl) rfl
  · have heq : takeDisp mod = fun l => (takeDisp32 l).map .disp32 := funext fun l => takeDisp_four mod l hzero hone
    rw [takeDisp_four mod rest hzero hone] at h
    obtain ⟨e, he, rfl⟩ := Option.map_eq_some_iff.mp h
    rw [heq]
    exact (reads_takeDisp32 rest e he).map Disp.disp32

theorem reads_takeSib (x b : BitVec 1) (mod : BitVec 2) (rest : List Byte) (a : AddrForm)
    (h : takeSib x b mod rest = some a) : Reads (takeSib x b mod) rest a (addrLength a) := by
  match rest, h with
  | sib :: rest, h =>
    by_cases hbase : mod = 0#2 ∧ sib.extractLsb' 0 3 = 5#3
    · rw [takeSib_noBase x b mod sib _ hbase] at h
      obtain ⟨d, hd, rfl⟩ := Option.map_eq_some_iff.mp h
      exact ((reads_takeDisp32 rest d hd).map _).cons (fun l => takeSib_noBase x b mod sib l hbase) rfl
    · rw [takeSib_base x b mod sib _ hbase] at h
      obtain ⟨d, hd, rfl⟩ := Option.map_eq_some_iff.mp h
      rw [addrLength, Nat.add_comm 1 (dispLength d)]
      exact ((reads_takeDisp mod rest d hd).map _).cons (fun l => takeSib_base x b mod sib l hbase) rfl

/-- The bytes of `SRC3` after ModRM. -/
def rmLength : RmField → Nat
  | .reg _ => 0
  | .mem a => addrLength a

theorem reads_takeRm (x b : BitVec 1) (modrm : Byte) (rest : List Byte) (rm : RmField)
    (h : takeRm x b modrm rest = some rm) : Reads (takeRm x b modrm) rest rm (rmLength rm) := by
  rcases modrm_cases modrm with hmod | ⟨hmod, hrm⟩ | ⟨hmod, hrm⟩ | ⟨hmod, hrm, hbase⟩
  · have heq : takeRm x b modrm = fun _ => some (.reg (modrm.extractLsb' 0 3)) :=
      funext fun l => takeRm_reg x b modrm l hmod
    rw [heq] at h ⊢
    obtain rfl := Option.some.inj h
    exact Reads.const rest _
  · have heq : takeRm x b modrm = fun l => (takeSib x b (modrm.extractLsb' 6 2) l).map .mem :=
      funext fun l => takeRm_sib x b modrm l hmod hrm
    rw [heq] at h ⊢
    obtain ⟨a, ha, rfl⟩ := Option.map_eq_some_iff.mp h
    exact (reads_takeSib x b _ rest a ha).map RmField.mem
  · have heq : takeRm x b modrm = fun l => (takeDisp32 l).map fun d => .mem (.disp32 d) :=
      funext fun l => takeRm_disp32 x b modrm l hmod hrm
    rw [heq] at h ⊢
    obtain ⟨d, hd, rfl⟩ := Option.map_eq_some_iff.mp h
    exact (reads_takeDisp32 rest d hd).map _
  · have heq : takeRm x b modrm =
        fun l => (takeDisp (modrm.extractLsb' 6 2) l).map fun d => .mem (.base (b ++ modrm.extractLsb' 0 3) d) :=
      funext fun l => takeRm_base x b modrm l hmod hrm hbase
    rw [heq] at h ⊢
    obtain ⟨d, hd, rfl⟩ := Option.map_eq_some_iff.mp h
    exact (reads_takeDisp _ rest d hd).map _

/-! ## What is read is well formed (rule R54) -/

/-- A missing displacement is `mod = 00`. -/
theorem takeDisp_eq_none (mod : BitVec 2) (rest : List Byte) (h : takeDisp mod rest = some .none) : mod = 0#2 := by
  rcases disp_cases mod with rfl | rfl | ⟨hzero, hone⟩
  · rfl
  · cases rest with
    | nil => cases h
    | cons d rest => cases h
  · rw [takeDisp_four mod rest hzero hone] at h
    obtain ⟨e, _, he⟩ := Option.map_eq_some_iff.mp h
    cases he

theorem takeSib_wellFormed (x b : BitVec 1) (mod : BitVec 2) (rest : List Byte) (a : AddrForm)
    (h : takeSib x b mod rest = some a) : a.wellFormed = true := by
  match rest, h with
  | sib :: rest, h =>
    by_cases hbase : mod = 0#2 ∧ sib.extractLsb' 0 3 = 5#3
    · rw [takeSib_noBase x b mod sib _ hbase] at h
      obtain ⟨d, hd, rfl⟩ := Option.map_eq_some_iff.mp h
      rfl
    · rw [takeSib_base x b mod sib _ hbase] at h
      obtain ⟨d, hd, rfl⟩ := Option.map_eq_some_iff.mp h
      cases d with
      | none =>
        rw [AddrForm.wellFormed, low_of_append, bne_iff_ne]
        exact fun h5 => hbase ⟨takeDisp_eq_none mod rest hd, h5⟩
      | disp8 d => rfl
      | disp32 d => rfl

/-- `SRC3` is a register, or memory in a well-formed address form. -/
def RmField.wellFormed : RmField → Bool
  | .reg _ => true
  | .mem a => a.wellFormed

theorem takeRm_wellFormed (x b : BitVec 1) (modrm : Byte) (rest : List Byte) (rm : RmField)
    (h : takeRm x b modrm rest = some rm) : rm.wellFormed = true := by
  rcases modrm_cases modrm with hmod | ⟨hmod, hrm⟩ | ⟨hmod, hrm⟩ | ⟨hmod, hrm, hbase⟩
  · rw [takeRm_reg x b modrm rest hmod] at h
    obtain rfl := Option.some.inj h
    rfl
  · rw [takeRm_sib x b modrm rest hmod hrm] at h
    obtain ⟨a, ha, rfl⟩ := Option.map_eq_some_iff.mp h
    exact takeSib_wellFormed x b _ rest a ha
  · rw [takeRm_disp32 x b modrm rest hmod hrm] at h
    obtain ⟨d, hd, rfl⟩ := Option.map_eq_some_iff.mp h
    rfl
  · rw [takeRm_base x b modrm rest hmod hrm hbase] at h
    obtain ⟨d, hd, rfl⟩ := Option.map_eq_some_iff.mp h
    cases d with
    | none =>
      simp only [RmField.wellFormed, AddrForm.wellFormed, low_of_append, Bool.and_eq_true, bne_iff_ne]
      exact ⟨hrm, fun h5 => hbase ⟨takeDisp_eq_none _ rest hd, h5⟩⟩
    | disp8 d => simpa only [RmField.wellFormed, AddrForm.wellFormed, low_of_append, bne_iff_ne] using hrm
    | disp32 d => simpa only [RmField.wellFormed, AddrForm.wellFormed, low_of_append, bne_iff_ne] using hrm

end Sys2Proof
end

section
/-! Proofs/Rows.lean: the decoder on any legacy prefixes before the VEX or EVEX byte, in every mode (30_encoding.md rule R70):
what step (1) remembers of the prefixes, one verdict for the bytes of a row of the group (`rowVerdict`), and what fewer bytes
or the bytes of another instruction answer. -/

namespace Sys2Proof

open Machine

/-! ## Step (1) -/

/-- All of the bytes are legacy prefixes. -/
def AllPrefixes (m : DecodeMode) (ps : List Byte) : Prop := ∀ b ∈ ps, isPrefix m b = true

/-- What step (1) remembers of these prefixes. -/
def scanned (m : DecodeMode) (ps : List Byte) : PrefixScan := (scanPrefixes m ps ⟨noPrefix, false, false⟩).1

/-- What step (1) remembers after one more of the prefixes. -/
def scanOne (m : DecodeMode) (p : PrefixScan) (b : Byte) : PrefixScan := (scanPrefixes m [b] p).1

/-- The three kinds of prefixes. -/
theorem scanPrefixes_cons (m : DecodeMode) (b : Byte) (rest : List Byte) (p : PrefixScan) (h : isPrefix m b = true) :
    scanPrefixes m (b :: rest) p = scanPrefixes m rest (scanOne m p b) := by
  simp only [isPrefix, Bool.or_eq_true, beq_iff_eq, or_assoc] at h
  unfold scanOne
  cases hseg : segPrefix b with
  | some g => simp only [scanPrefixes, hseg]
  | none =>
    by_cases h67 : b = 0x67#8
    · subst h67
      rfl
    · have hforbidden : forbiddenPrefix m b = true := by simpa [hseg, h67] using h
      simp only [scanPrefixes, hseg, h67, hforbidden, if_true, if_false]

theorem scanPrefixes_prefixes (m : DecodeMode) (ps rest : List Byte) (p : PrefixScan) (h : AllPrefixes m ps) :
    scanPrefixes m (ps ++ rest) p = scanPrefixes m rest (ps.foldl (scanOne m) p) := by
  induction ps generalizing p with
  | nil => rfl
  | cons b ps ih =>
    rw [List.cons_append, scanPrefixes_cons m b _ p (h b List.mem_cons_self), List.foldl_cons]
    exact ih _ fun c hc => h c (List.mem_cons_of_mem b hc)

theorem scanned_eq_foldl (m : DecodeMode) (ps : List Byte) (h : AllPrefixes m ps) :
    scanned m ps = ps.foldl (scanOne m) ⟨noPrefix, false, false⟩ := by
  have hscan := scanPrefixes_prefixes m ps [] ⟨noPrefix, false, false⟩ h
  rw [List.append_nil] at hscan
  rw [scanned, hscan, scanPrefixes]

/-- The scan of prefixes alone ends with no byte left. -/
theorem scanPrefixes_only (m : DecodeMode) (ps : List Byte) (h : AllPrefixes m ps) :
    scanPrefixes m ps ⟨noPrefix, false, false⟩ = (scanned m ps, []) := by
  have hscan := scanPrefixes_prefixes m ps [] ⟨noPrefix, false, false⟩ h
  rw [List.append_nil] at hscan
  rw [hscan, scanned_eq_foldl m ps h, scanPrefixes]

/-- The scan stops at the byte after the prefixes. -/
theorem scanPrefixes_before (m : DecodeMode) (ps : List Byte) (b : Byte) (rest : List Byte) (h : AllPrefixes m ps)
    (hb : isPrefix m b = false) :
    scanPrefixes m (ps ++ b :: rest) ⟨noPrefix, false, false⟩ = (scanned m ps, b :: rest) := by
  rw [scanPrefixes_prefixes m ps _ _ h, scanPrefixes_stop m b rest _ hb, scanned_eq_foldl m ps h]

/-- All bytes are prefixes, or there is a first that is none. -/
theorem allPrefixes_or_split (m : DecodeMode) (bytes : List Byte) :
    AllPrefixes m bytes ∨
      ∃ ps b rest, bytes = ps ++ b :: rest ∧ AllPrefixes m ps ∧ isPrefix m b = false := by
  induction bytes with
  | nil => exact .inl fun b hb => nomatch hb
  | cons b rest ih =>
    cases hb : isPrefix m b with
    | false => exact .inr ⟨[], b, rest, rfl, fun c hc => (nomatch hc), hb⟩
    | true =>
      have hcons : ∀ l, AllPrefixes m l → AllPrefixes m (b :: l) := fun l hl c hc => by
        rcases List.mem_cons.mp hc with rfl | hc
        · exact hb
        · exact hl c hc
      rcases ih with hall | ⟨ps, c, tail, rfl, hps, hc⟩
      · exact .inl (hcons rest hall)
      · exact .inr ⟨b :: ps, c, tail, rfl, hcons ps hps, hc⟩

theorem AllPrefixes.append {m : DecodeMode} {ps qs : List Byte} (hp : AllPrefixes m ps) (hq : AllPrefixes m qs) :
    AllPrefixes m (ps ++ qs) := fun b hb => (List.mem_append.mp hb).elim (hp b) (hq b)

/-! ### One more of the prefixes -/

/-- The forbidden prefixes are no segment overrides. -/
theorem segPrefix_of_forbidden (m : DecodeMode) (b : Byte) (h : forbiddenPrefix m b = true) :
    segPrefix b = none ∧ b ≠ 0x67#8 := by
  cases m <;> revert b <;> decide

/-- What each of the prefixes adds: a segment override, `67H`, or that a forbidden one was seen. -/
theorem scanOne_cases (m : DecodeMode) (p : PrefixScan) (b : Byte) (h : isPrefix m b = true) :
    (∃ g, segPrefix b = some g ∧ b ≠ 0x67#8 ∧ forbiddenPrefix m b = false ∧
      scanOne m p b = { p with pre := { p.pre with seg := some g }, repeated := p.repeated || p.pre.seg.isSome }) ∨
    (b = 0x67#8 ∧ forbiddenPrefix m b = false ∧
      scanOne m p b = { p with pre := { p.pre with addrSize := true }, repeated := p.repeated || p.pre.addrSize }) ∨
    (b ≠ 0x67#8 ∧ forbiddenPrefix m b = true ∧ scanOne m p b = { p with forbidden := true }) := by
  cases hforbidden : forbiddenPrefix m b with
  | true =>
    obtain ⟨hseg, h67⟩ := segPrefix_of_forbidden m b hforbidden
    exact .inr (.inr ⟨h67, rfl, by simp [scanOne, scanPrefixes, hseg, h67, hforbidden]⟩)
  | false =>
    cases hseg : segPrefix b with
    | some g =>
      have h67 : b ≠ 0x67#8 := by
        rintro rfl
        cases hseg
      exact .inl ⟨g, rfl, h67, rfl, by simp [scanOne, scanPrefixes, hseg]⟩
    | none =>
      obtain rfl : b = 0x67#8 := by simpa [isPrefix, hseg, hforbidden] using h
      exact .inr (.inl ⟨rfl, rfl, rfl⟩)

/-- A list of prefixes with a property that one of its bytes brings and no byte takes away. -/
theorem foldl_scanOne_eq_any (m : DecodeMode) (get : PrefixScan → Bool) (mark : Byte → Bool)
    (hone : ∀ p b, isPrefix m b = true → get (scanOne m p b) = (get p || mark b)) (ps : List Byte) (p : PrefixScan)
    (h : AllPrefixes m ps) : get (ps.foldl (scanOne m) p) = (get p || ps.any mark) := by
  induction ps generalizing p with
  | nil => simp
  | cons b ps ih =>
    rw [List.foldl_cons, ih _ fun c hc => h c (List.mem_cons_of_mem b hc), hone p b (h b List.mem_cons_self), List.any_cons,
      Bool.or_assoc]

theorem scanned_forbidden (m : DecodeMode) (ps : List Byte) (h : AllPrefixes m ps) :
    (scanned m ps).forbidden = ps.any (forbiddenPrefix m) := by
  rw [scanned_eq_foldl m ps h]
  refine foldl_scanOne_eq_any m PrefixScan.forbidden _ (fun p b hb => ?_) ps _ h
  rcases scanOne_cases m p b hb with ⟨g, _, _, hf, hone⟩ | ⟨_, hf, hone⟩ | ⟨_, hf, hone⟩ <;> simp [hone, hf]

theorem scanned_addrSize (m : DecodeMode) (ps : List Byte) (h : AllPrefixes m ps) :
    (scanned m ps).pre.addrSize = ps.any (· == 0x67#8) := by
  rw [scanned_eq_foldl m ps h]
  refine foldl_scanOne_eq_any m (fun p => p.pre.addrSize) _ (fun p b hb => ?_) ps _ h
  rcases scanOne_cases m p b hb with ⟨g, _, h67, _, hone⟩ | ⟨rfl, _, hone⟩ | ⟨h67, _, hone⟩
  · simp [hone, h67]
  · simp [hone]
  · simp [hone, h67]

/-- Prefixes of which none is forbidden or repeated are as many as are remembered. -/
theorem length_of_foldl_scanOne (m : DecodeMode) (ps : List Byte) (p : PrefixScan) (h : AllPrefixes m ps)
    (hforbidden : (ps.foldl (scanOne m) p).forbidden = false) (hrepeated : (ps.foldl (scanOne m) p).repeated = false) :
    prefixLength (ps.foldl (scanOne m) p).pre = prefixLength p.pre + ps.length ∧ p.forbidden = false ∧ p.repeated = false := by
  induction ps generalizing p with
  | nil => exact ⟨rfl, hforbidden, hrepeated⟩
  | cons b ps ih =>
    obtain ⟨hlen, hf, hr⟩ := ih (scanOne m p b) (fun c hc => h c (List.mem_cons_of_mem b hc)) hforbidden hrepeated
    rw [List.foldl_cons, hlen, List.length_cons]
    rcases scanOne_cases m p b (h b List.mem_cons_self) with ⟨g, _, _, _, hone⟩ | ⟨_, _, hone⟩ | ⟨_, _, hone⟩
    · simp only [hone, Bool.or_eq_false_iff] at hf hr
      simp only [hone, prefixLength, hr.2, Option.isSome_some, if_true, Bool.false_eq_true, if_false]
      exact ⟨by omega, hf, hr.1⟩
    · simp only [hone, Bool.or_eq_false_iff] at hf hr
      simp only [hone, prefixLength, hr.2, if_true, Bool.false_eq_true, if_false]
      exact ⟨by omega, hf, hr.1⟩
    · simp [hone] at hf

theorem length_of_scanned (m : DecodeMode) (ps : List Byte) (h : AllPrefixes m ps) (hforbidden : (scanned m ps).forbidden = false)
    (hrepeated : (scanned m ps).repeated = false) : prefixLength (scanned m ps).pre = ps.length := by
  rw [scanned_eq_foldl m ps h] at hforbidden hrepeated ⊢
  rw [(length_of_foldl_scanOne m ps _ h hforbidden hrepeated).1]
  simp [prefixLength, noPrefix]

/-- The prefixes that the encoder writes. -/
theorem allPrefixes_encodePrefixes (m : DecodeMode) (pre : Prefixes) : AllPrefixes m (encodePrefixes pre) := by
  have hseg : ∀ g, isPrefix m (segByte g) = true := fun g => by simp [isPrefix]
  obtain ⟨seg, addrSize⟩ := pre
  intro b hb
  simp only [encodePrefixes, List.mem_append] at hb
  rcases hb with hb | hb
  · cases seg with
    | none => cases hb
    | some g =>
      obtain rfl := List.mem_singleton.mp hb
      exact hseg g
  · cases addrSize with
    | false => cases hb
    | true =>
      obtain rfl := List.mem_singleton.mp hb
      rfl

theorem scanned_encodePrefixes (m : DecodeMode) (pre : Prefixes) : scanned m (encodePrefixes pre) = ⟨pre, false, false⟩ := by
  have hvex : isPrefix m 0xC4#8 = false := by cases m <;> decide
  have h := scanPrefixes_before m (encodePrefixes pre) 0xC4#8 [] (allPrefixes_encodePrefixes m pre) hvex
  rw [scanPrefixes_encodePrefixes m pre _ _ hvex] at h
  exact (congrArg Prod.fst h).symm

/-! ## Steps (2) and (3) -/

/-- What is decoded after the legacy prefixes, by the first byte that is none. -/
def decodeAfter (m : DecodeMode) (p : PrefixScan) (b : Byte) (rest : List Byte) : Verdict :=
  if b = 0xC4#8 then decodeVex m p rest else if b = 0x62#8 then decodeEvex m p rest else .notThisGroup

theorem decodeBody_before (m : DecodeMode) (ps : List Byte) (b : Byte) (rest : List Byte) (h : AllPrefixes m ps)
    (hb : isPrefix m b = false) : decodeBody m (ps ++ b :: rest) = decodeAfter m (scanned m ps) b rest := by
  rw [decodeBody, scanPrefixes_before m ps b rest h hb, decodeAfter]

theorem decodeBody_only (m : DecodeMode) (ps : List Byte) (h : AllPrefixes m ps) : decodeBody m ps = .tooShort := by
  rw [decodeBody, scanPrefixes_only m ps h]

/-- A cut among the prefixes, or right after them, leaves too little. -/
theorem decodeBody_take (m : DecodeMode) (ps : List Byte) (b : Byte) (rest : List Byte) (k : Nat) (h : AllPrefixes m ps)
    (hb : isPrefix m b = false) :
    decodeBody m ((ps ++ b :: rest).take k) = .tooShort ∨
      ∃ n, k = ps.length + 1 + n ∧ decodeBody m ((ps ++ b :: rest).take k) = decodeAfter m (scanned m ps) b (rest.take n) := by
  by_cases hk : k ≤ ps.length
  · refine .inl ?_
    rw [List.take_append_of_le_length hk]
    exact decodeBody_only m _ fun c hc => h c (List.mem_of_mem_take hc)
  · obtain ⟨n, rfl⟩ : ∃ n, k = ps.length + 1 + n := ⟨k - ps.length - 1, by omega⟩
    refine .inr ⟨n, rfl, ?_⟩
    have htake : (ps ++ b :: rest).take (ps.length + 1 + n) = ps ++ b :: rest.take n := by
      rw [List.take_append, List.take_of_length_le (by omega), show ps.length + 1 + n - ps.length = n + 1 by omega,
        List.take_succ_cons]
    rw [htake]
    exact decodeBody_before m ps b _ h hb

/-! ## The rows of the group -/

/-- The bytes select a VEX row of rule R58 with this operand order, by opcode, map, `pp` and `W`. -/
structure VexRow (form : FmaForm) (b1 b2 op : Byte) : Prop where
  opcode : opcodeForm op = some form
  map    : b1.extractLsb' 0 5 = 2#5
  pp     : b2.extractLsb' 0 2 = 1#2
  w      : b2.extractLsb' 7 1 = 1#1

/-- What the fields of the payload and of ModRM give with `SRC3` (rules R46, R47, R50). -/
def vexFields (pre : Prefixes) (b1 b2 modrm : Byte) (rm : RmField) : VexOperands where
  pre  := pre
  dest := ~~~b1.extractLsb' 7 1 ++ modrm.extractLsb' 3 3
  src2 := ~~~b2.extractLsb' 3 4
  src3 := match rm with
    | .reg r => .reg (~~~b1.extractLsb' 5 1 ++ r)
    | .mem a => .mem a

/-- The verdict on the bytes of a row, once `SRC3` is complete, from what the row is in its own encoding: `LES` or `BOUND`, the
#UD of real-address mode, a 16-bit address, forbidden prefixes, and the refusals of a form. -/
def rowVerdict (m : DecodeMode) (p : PrefixScan) (b1 modrm : Byte) (extension : Bool) (v : Verdict) : Verdict :=
  if isLesOrBound m b1 then .notThisGroup
  else if m = .real then .ud
  else if isAddressing16 m p.pre modrm then .addressing16
  else if p.forbidden then .ud
  else match v with
    | .instr i => (refusalOf m p extension).getD (.instr i)
    | v => v

/-- An extension bit of the VEX payload that a 32-bit mode refuses (rule R68 (c)). -/
def vexExtension (b1 b2 : Byte) : Bool := b1.extractLsb' 5 1 == 0#1 || b2.extractLsb' 6 1 == 0#1

/-- An extension bit of the EVEX payload that a 32-bit mode refuses. -/
def evexExtension (p0 p1 p2 : Byte) : Bool :=
  p0.extractLsb' 4 2 != 3#2 || p1.extractLsb' 6 1 == 0#1 || p2.extractLsb' 3 1 == 0#1

theorem decodeAfter_vexRow (m : DecodeMode) (p : PrefixScan) (form : FmaForm) (b1 b2 op modrm : Byte) (rest : List Byte)
    (rm : RmField) (hrow : VexRow form b1 b2 op)
    (hrm : takeRm (~~~b1.extractLsb' 6 1) (~~~b1.extractLsb' 5 1) modrm rest = some rm) :
    decodeAfter m p 0xC4#8 (b1 :: b2 :: op :: modrm :: rest) =
      rowVerdict m p b1 modrm (vexExtension b1 b2)
        (.instr (vexInstr form (b2.extractLsb' 2 1) (vexFields p.pre b1 b2 modrm rm))) := by
  rw [decodeAfter, if_pos rfl, decodeVex, rowVerdict]
  split
  · rfl
  · simp only [decodeVexTail, hrow.opcode, hrow.map, hrow.pp, hrow.w, hrm, ne_eq, not_true_eq_false, or_self, if_false]
    split
    · rfl
    · split
      · rfl
      · split
        · rfl
        · unfold vexExtension vexFields
          cases refusalOf m p (b1.extractLsb' 5 1 == 0#1 || b2.extractLsb' 6 1 == 0#1) <;> cases rm <;> rfl

theorem decodeAfter_evexRow (m : DecodeMode) (p : PrefixScan) (form : FmaForm) (p0 p1 p2 op modrm : Byte) (rest : List Byte)
    (rm : RmField) (hrow : EvexRow form p0 p1 op)
    (hrm : takeRm (~~~p0.extractLsb' 6 1) (~~~p0.extractLsb' 5 1) modrm rest = some rm) :
    decodeAfter m p 0x62#8 (p0 :: p1 :: p2 :: op :: modrm :: rest) =
      rowVerdict m p p0 modrm (evexExtension p0 p1 p2) (evexVerdict form p.pre p0 p1 p2 modrm rm) := by
  rw [decodeAfter, if_neg (by decide), if_pos rfl, decodeEvex]
  unfold rowVerdict
  split
  · rfl
  · simp only [decodeEvexTail, hrow.opcode, hrow.map, hrow.pp, hrow.w, hrm, not_true_eq_false, or_self, if_false, ne_eq]
    split
    · rfl
    · split
      · rfl
      · cases p.forbidden with
        | true => rfl
        | false =>
          unfold evexVerdict evexFields evexExtension
          simp only [Bool.false_eq_true, if_false, ne_eq]
          split
          · rfl
          · split
            · rfl
            · generalize selectEvex form _ _ _ rm _ = v
              cases v <;> rfl

end Sys2Proof
end

section
/-! Proofs/RowBytes.lean: the bytes of a row: fewer of them do not tell the instruction, bytes that are no row are another
instruction, and an instruction is told from the bytes of a row alone (30_encoding.md rules R57, R70, R71). -/

namespace Sys2Proof

open Machine

/-! ## Fewer bytes -/

/-- The answers of the decoder to bytes that end too early. -/
def TooFew (v : Verdict) : Prop := v = .tooShort ∨ v = .incomplete

theorem decodeAfter_vexRow_short (m : DecodeMode) (p : PrefixScan) (form : FmaForm) (b1 b2 op modrm : Byte)
    (rest : List Byte) (rm : RmField) (n k : Nat) (hrow : VexRow form b1 b2 op)
    (hreads : Reads (takeRm (~~~b1.extractLsb' 6 1) (~~~b1.extractLsb' 5 1) modrm) rest rm n)
    (hles : isLesOrBound m b1 = false) (hreal : m ≠ .real) (haddr : isAddressing16 m p.pre modrm = false) (hk : k < 4 + n) :
    TooFew (decodeAfter m p 0xC4#8 ((b1 :: b2 :: op :: modrm :: rest).take k)) := by
  rw [decodeAfter, if_pos rfl]
  match k, hk with
  | 0, _ => exact .inl rfl
  | 1, _ => simp [decodeVex, hles, decodeVexTail, TooFew]
  | 2, _ => simp [decodeVex, hles, decodeVexTail, TooFew]
  | 3, _ =>
    simp only [List.take_succ_cons, List.take_zero, decodeVex, hles, decodeVexTail, hrow.opcode, hrow.map, hrow.pp, hrow.w,
      hreal, Bool.false_eq_true, ne_eq, not_true_eq_false, or_self, if_false]
    split
    · exact .inl rfl
    · exact .inr rfl
  | k + 4, hk =>
    have hshort := hreads.short k (by omega)
    simp [decodeVex, hles, decodeVexTail, hrow.opcode, hrow.map, hrow.pp, hrow.w, hreal, haddr, hshort, TooFew]

theorem decodeAfter_evexRow_short (m : DecodeMode) (p : PrefixScan) (form : FmaForm) (p0 p1 p2 op modrm : Byte)
    (rest : List Byte) (rm : RmField) (n k : Nat) (hrow : EvexRow form p0 p1 op)
    (hreads : Reads (takeRm (~~~p0.extractLsb' 6 1) (~~~p0.extractLsb' 5 1) modrm) rest rm n)
    (hles : isLesOrBound m p0 = false) (hreal : m ≠ .real) (haddr : isAddressing16 m p.pre modrm = false) (hk : k < 5 + n) :
    TooFew (decodeAfter m p 0x62#8 ((p0 :: p1 :: p2 :: op :: modrm :: rest).take k)) := by
  rw [decodeAfter, if_neg (by decide), if_pos rfl]
  match k, hk with
  | 0, _ => exact .inl rfl
  | 1, _ => simp [decodeEvex, hles, decodeEvexTail, TooFew]
  | 2, _ => simp [decodeEvex, hles, decodeEvexTail, TooFew]
  | 3, _ => simp [decodeEvex, hles, decodeEvexTail, TooFew]
  | 4, _ =>
    simp only [List.take_succ_cons, List.take_zero, decodeEvex, hles, decodeEvexTail, hrow.opcode, hrow.map, hrow.pp, hrow.w,
      hreal, Bool.false_eq_true, ne_eq, not_true_eq_false, or_self, if_false]
    split
    · exact .inl rfl
    · exact .inr rfl
  | k + 5, hk =>
    have hshort := hreads.short k (by omega)
    simp [decodeEvex, hles, decodeEvexTail, hrow.opcode, hrow.map, hrow.pp, hrow.w, hreal, haddr, hshort, TooFew]

/-! ## Bytes of another instruction (rule R71) -/

theorem opcodeForm_eq_none (op : Byte) (h : op ∉ [0x97#8, 0xA7#8, 0xB7#8]) : opcodeForm op = none := by
  simp only [List.mem_cons, List.not_mem_nil, or_false, not_or] at h
  obtain ⟨h1, h2, h3⟩ := h
  rw [opcodeForm, if_neg h1, if_neg h2, if_neg h3]

theorem ppW_iff (b2 : Byte) : b2 &&& 0x83#8 = 0x81#8 ↔ b2.extractLsb' 0 2 = 1#2 ∧ b2.extractLsb' 7 1 = 1#1 := by
  revert b2
  decide

theorem decodeVex_of_no_row (p : PrefixScan) (b1 b2 op : Byte) (rest : List Byte)
    (h : op ∉ [0x97#8, 0xA7#8, 0xB7#8] ∨ b1 &&& 0x1F#8 ≠ 0x02#8 ∨ b2 &&& 0x83#8 ≠ 0x81#8) :
    decodeVex .long64 p (b1 :: b2 :: op :: rest) = .notThisGroup := by
  have hmap : b1 &&& 0x1F#8 = 0x02#8 ↔ b1.extractLsb' 0 5 = 2#5 := and_field_eq_iff b1 0 5 2#5 (by decide)
  rw [decodeVex_long64, decodeVexTail]
  cases hop : opcodeForm op with
  | none => rfl
  | some form =>
    have hmem : op ∈ [0x97#8, 0xA7#8, 0xB7#8] := by
      by_contra hmem
      exact nomatch (opcodeForm_eq_none op hmem).symm.trans hop
    have hbits := h.resolve_left (not_not.mpr hmem)
    simp only [hmap, ppW_iff, ne_eq, Decidable.not_and_iff_or_not] at hbits
    exact if_pos hbits

theorem decodeEvex_of_no_row (p : PrefixScan) (p0 p1 p2 op : Byte) (rest : List Byte)
    (h : op ∉ [0x97#8, 0xA7#8, 0xB7#8] ∨ p0 &&& 0x03#8 ≠ 0x02#8 ∨ p1 &&& 0x83#8 ≠ 0x81#8) :
    decodeEvex .long64 p (p0 :: p1 :: p2 :: op :: rest) = .notThisGroup := by
  have hmap : p0 &&& 0x03#8 = 0x02#8 ↔ p0.extractLsb' 0 2 = 2#2 := and_field_eq_iff p0 0 2 2#2 (by decide)
  rw [decodeEvex_long64, decodeEvexTail]
  cases hop : opcodeForm op with
  | none => rfl
  | some form =>
    have hmem : op ∈ [0x97#8, 0xA7#8, 0xB7#8] := by
      by_contra hmem
      exact nomatch (opcodeForm_eq_none op hmem).symm.trans hop
    have hbits := h.resolve_left (not_not.mpr hmem)
    simp only [hmap, ppW_iff, ne_eq, Decidable.not_and_iff_or_not] at hbits
    exact if_pos hbits

/-! ## The bytes that tell an instruction -/

theorem refusalOf_cases (m : DecodeMode) (p : PrefixScan) (extension : Bool) :
    refusalOf m p extension = none ∨ refusalOf m p extension = some .repeatedPrefix ∨
      refusalOf m p extension = some .extensionBit := by
  unfold refusalOf
  split
  · exact .inr (.inl rfl)
  · split
    · exact .inr (.inr rfl)
    · exact .inl rfl

/-- Where the verdict on a row is an instruction, nothing refuses it. -/
theorem rowVerdict_eq_instr (m : DecodeMode) (p : PrefixScan) (b1 modrm : Byte) (extension : Bool) (v : Verdict) (i : Instr)
    (h : rowVerdict m p b1 modrm extension v = .instr i) :
    isLesOrBound m b1 = false ∧ m ≠ .real ∧ isAddressing16 m p.pre modrm = false ∧ p.forbidden = false ∧
      p.repeated = false ∧ v = .instr i := by
  unfold rowVerdict at h
  split at h
  · cases h
  case isFalse hles =>
  split at h
  · cases h
  case isFalse hreal =>
  split at h
  · cases h
  case isFalse haddr =>
  split at h
  · cases h
  case isFalse hforbidden =>
  refine ⟨by simpa using hles, hreal, by simpa using haddr, by simpa using hforbidden, ?_⟩
  split at h
  · rename_i j
    rcases refusalOf_cases m p extension with hnone | hrep | hext
    · rw [hnone] at h
      refine ⟨?_, h⟩
      cases hrepeated : p.repeated with
      | false => rfl
      | true => simp [refusalOf, hrepeated] at hnone
    · rw [hrep] at h
      cases h
    · rw [hext] at h
      cases h
  · rename_i hv
    exact absurd h (hv i)

theorem decodeVexTail_instr (m : DecodeMode) (p : PrefixScan) (b1 : Byte) (bytes : List Byte) (i : Instr)
    (h : decodeVexTail m p b1 bytes = .instr i) :
    ∃ form b2 op modrm rest rm, bytes = b2 :: op :: modrm :: rest ∧ VexRow form b1 b2 op ∧
      takeRm (~~~b1.extractLsb' 6 1) (~~~b1.extractLsb' 5 1) modrm rest = some rm := by
  unfold decodeVexTail at h
  split at h
  case h_2 => cases h
  case h_1 b2 op rest =>
  split at h
  · cases h
  case h_2 form hop =>
  split at h
  · cases h
  case isFalse hrow =>
  simp only [ne_eq, not_or, not_not] at hrow
  obtain ⟨hmap, hpp, hw⟩ := hrow
  split at h
  · cases h
  split at h
  · split at h <;> cases h
  case h_2 modrm tail =>
  split at h
  · cases h
  split at h
  · cases h
  case h_2 rm hrm => exact ⟨form, b2, op, modrm, tail, rm, rfl, ⟨hop, hmap, hpp, hw⟩, hrm⟩

theorem decodeEvexTail_instr (m : DecodeMode) (p : PrefixScan) (p0 : Byte) (bytes : List Byte) (i : Instr)
    (h : decodeEvexTail m p p0 bytes = .instr i) :
    ∃ form p1 p2 op modrm rest rm, bytes = p1 :: p2 :: op :: modrm :: rest ∧ EvexRow form p0 p1 op ∧
      takeRm (~~~p0.extractLsb' 6 1) (~~~p0.extractLsb' 5 1) modrm rest = some rm := by
  unfold decodeEvexTail at h
  split at h
  case h_2 => cases h
  case h_1 p1 p2 op rest =>
  split at h
  · cases h
  case h_2 form hop =>
  split at h
  · cases h
  case isFalse hrow =>
  simp only [ne_eq, not_or, not_not] at hrow
  obtain ⟨hmap, hpp, hw⟩ := hrow
  split at h
  · cases h
  split at h
  · split at h <;> cases h
  case h_2 modrm tail =>
  split at h
  · cases h
  split at h
  · cases h
  case h_2 rm hrm => exact ⟨form, p1, p2, op, modrm, tail, rm, rfl, ⟨hop, hmap, hpp, hw⟩, hrm⟩

/-- The bytes after the legacy prefixes tell an instruction: they begin with those of a row. -/
theorem decodeAfter_instr (m : DecodeMode) (p : PrefixScan) (b : Byte) (bytes : List Byte) (i : Instr)
    (h : decodeAfter m p b bytes = .instr i) :
    (b = 0xC4#8 ∧ ∃ form b1 b2 op modrm rest rm, bytes = b1 :: b2 :: op :: modrm :: rest ∧ VexRow form b1 b2 op ∧
      takeRm (~~~b1.extractLsb' 6 1) (~~~b1.extractLsb' 5 1) modrm rest = some rm) ∨
    (b = 0x62#8 ∧ ∃ form p0 p1 p2 op modrm rest rm, bytes = p0 :: p1 :: p2 :: op :: modrm :: rest ∧ EvexRow form p0 p1 op ∧
      takeRm (~~~p0.extractLsb' 6 1) (~~~p0.extractLsb' 5 1) modrm rest = some rm) := by
  unfold decodeAfter at h
  split at h
  case isTrue hb =>
    cases bytes with
    | nil => cases h
    | cons b1 rest =>
      rw [decodeVex] at h
      split at h
      · cases h
      obtain ⟨form, b2, op, modrm, tail, rm, rfl, hrow, hrm⟩ := decodeVexTail_instr m p b1 rest i h
      exact .inl ⟨hb, form, b1, b2, op, modrm, tail, rm, rfl, hrow, hrm⟩
  case isFalse =>
    split at h
    case isFalse => cases h
    case isTrue hb =>
      cases bytes with
      | nil => cases h
      | cons p0 rest =>
        rw [decodeEvex] at h
        split at h
        · cases h
        obtain ⟨form, p1, p2, op, modrm, tail, rm, rfl, hrow, hrm⟩ := decodeEvexTail_instr m p p0 rest i h
        exact .inr ⟨hb, form, p0, p1, p2, op, modrm, tail, rm, rfl, hrow, hrm⟩

/-! ## The instruction of a row -/

theorem instrLength_vexRow (form : FmaForm) (l : BitVec 1) (pre : Prefixes) (b1 b2 modrm : Byte) (rm : RmField) :
    instrLength (vexInstr form l (vexFields pre b1 b2 modrm rm)) = prefixLength pre + 5 + rmLength rm := by
  have hlen : ∀ o, instrLength (vexInstr form l o) = vexLength o := fun o => by
    cases form <;> simp only [vexInstr] <;> split <;> rfl
  rw [hlen]
  cases rm <;> rfl

theorem wellFormed_vexRow (form : FmaForm) (l : BitVec 1) (pre : Prefixes) (b1 b2 modrm : Byte) (rm : RmField)
    (h : rm.wellFormed = true) : (vexInstr form l (vexFields pre b1 b2 modrm rm)).wellFormed = true := by
  have hwf : ∀ o, (vexInstr form l o).wellFormed = o.src3.wellFormed := fun o => by
    cases form <;> simp only [vexInstr] <;> split <;> rfl
  rw [hwf]
  cases rm with
  | reg r => rfl
  | mem a => exact h

/-- The row that EVEX bytes select has the length of its bytes, and is well formed where `SRC3` and the writemask are. -/
theorem selectEvex_instr (form : FmaForm) (b : Bool) (ll xb : BitVec 2) (rm : RmField) (o : EvexOperands Unit) (i : Instr)
    (h : selectEvex form b ll xb rm o = .instr i) :
    instrLength i = prefixLength o.pre + 6 + rmLength rm ∧
      (maskWellFormed o.aaa o.z = true → rm.wellFormed = true → i.wellFormed = true) := by
  have hw : ∀ src3, instrLength (evex512Instr form ⟨o.pre, o.dest, o.src2, o.aaa, o.z, src3⟩) =
      prefixLength o.pre + 6 + evexRmLength src3 ∧
      (evex512Instr form ⟨o.pre, o.dest, o.src2, o.aaa, o.z, src3⟩).wellFormed =
        (maskWellFormed o.aaa o.z && src3.wellFormed) := fun src3 => by cases form <;> exact ⟨rfl, rfl⟩
  have h1 : ∀ src3, instrLength (evex128Instr form ⟨o.pre, o.dest, o.src2, o.aaa, o.z, src3⟩) =
      prefixLength o.pre + 6 + evexRmLength (widenRm src3) ∧
      (evex128Instr form ⟨o.pre, o.dest, o.src2, o.aaa, o.z, src3⟩).wellFormed =
        (maskWellFormed o.aaa o.z && src3.wellFormed) := fun src3 => by cases form <;> exact ⟨rfl, rfl⟩
  have h2 : ∀ src3, instrLength (evex256Instr form ⟨o.pre, o.dest, o.src2, o.aaa, o.z, src3⟩) =
      prefixLength o.pre + 6 + evexRmLength (widenRm src3) ∧
      (evex256Instr form ⟨o.pre, o.dest, o.src2, o.aaa, o.z, src3⟩).wellFormed =
        (maskWellFormed o.aaa o.z && src3.wellFormed) := fun src3 => by cases form <;> exact ⟨rfl, rfl⟩
  cases rm with
  | reg r =>
    cases b with
    | true =>
      cases h
      exact ⟨(hw _).1, fun hm _ => by rw [(hw _).2, hm]; rfl⟩
    | false =>
      simp only [selectEvex] at h
      split_ifs at h
      · cases h
        exact ⟨(h1 _).1, fun hm _ => by rw [(h1 _).2, hm]; rfl⟩
      · cases h
        exact ⟨(h2 _).1, fun hm _ => by rw [(h2 _).2, hm]; rfl⟩
      · cases h
        exact ⟨(hw _).1, fun hm _ => by rw [(hw _).2, hm]; rfl⟩
  | mem a =>
    cases b <;> simp only [selectEvex] at h <;> split_ifs at h <;> cases h
    · exact ⟨(h1 _).1, fun hm ha => by rw [(h1 _).2, hm]; exact ha⟩
    · exact ⟨(h2 _).1, fun hm ha => by rw [(h2 _).2, hm]; exact ha⟩
    · exact ⟨(hw _).1, fun hm ha => by rw [(hw _).2, hm]; exact ha⟩
    · exact ⟨(h1 _).1, fun hm ha => by rw [(h1 _).2, hm]; exact ha⟩
    · exact ⟨(h2 _).1, fun hm ha => by rw [(h2 _).2, hm]; exact ha⟩
    · exact ⟨(hw _).1, fun hm ha => by rw [(hw _).2, hm]; exact ha⟩

/-- The verdict on an EVEX row is an instruction only past the #UD of rule R63. -/
theorem evexVerdict_instr (form : FmaForm) (pre : Prefixes) (p0 p1 p2 modrm : Byte) (rm : RmField) (i : Instr)
    (h : evexVerdict form pre p0 p1 p2 modrm rm = .instr i) :
    instrLength i = prefixLength pre + 6 + rmLength rm ∧ (rm.wellFormed = true → i.wellFormed = true) := by
  unfold evexVerdict at h
  split at h
  · cases h
  split at h
  · cases h
  case isFalse hzeroing =>
  obtain ⟨hlen, hwf⟩ := selectEvex_instr _ _ _ _ _ _ i h
  refine ⟨hlen, hwf ?_⟩
  simpa only [maskWellFormed, evexFields, Bool.not_eq_true', Bool.and_eq_false_iff, beq_eq_false_iff_ne, not_and_or,
    ne_eq] using hzeroing

end Sys2Proof
end

section
/-! Proofs/RowVerdict.lean: what the decoder answers to bytes that begin with a row of the group, by their number
(30_encoding.md rules R57, R70), and that an instruction is decoded from as many bytes as its length says. -/

namespace Sys2Proof

open Machine

/-- The first `n` of these bytes are a row of the group, on which the verdict is `rowVerdict m p b1 modrm extension v`; fewer
bytes do not tell it. -/
structure RowBytes (m : DecodeMode) (bytes : List Byte) (n : Nat) (p : PrefixScan) (b1 modrm : Byte) (extension : Bool)
    (v : Verdict) : Prop where
  enough  : n ≤ bytes.length
  verdict : ∀ tail, decodeBody m (bytes.take n ++ tail) = rowVerdict m p b1 modrm extension v
  short   : isLesOrBound m b1 = false → m ≠ .real → isAddressing16 m p.pre modrm = false →
    ∀ k, k < n → TooFew (decodeBody m (bytes.take k))

/-- The same bytes, cut after the operand, as the row's bytes and what is left of `rest`. -/
theorem take_row (ps head rest : List Byte) (n : Nat) :
    (ps ++ (head ++ rest)).take (ps.length + head.length + n) = ps ++ (head ++ rest.take n) := by
  rw [Nat.add_assoc, List.take_length_add_append, List.take_length_add_append]

theorem rowBytes_vex (m : DecodeMode) (ps : List Byte) (form : FmaForm) (b1 b2 op modrm : Byte) (rest : List Byte)
    (rm : RmField) (hps : AllPrefixes m ps) (hrow : VexRow form b1 b2 op)
    (hrm : takeRm (~~~b1.extractLsb' 6 1) (~~~b1.extractLsb' 5 1) modrm rest = some rm) :
    RowBytes m (ps ++ 0xC4#8 :: b1 :: b2 :: op :: modrm :: rest) (ps.length + 5 + rmLength rm) (scanned m ps) b1 modrm
      (vexExtension b1 b2)
      (.instr (vexInstr form (b2.extractLsb' 2 1) (vexFields (scanned m ps).pre b1 b2 modrm rm))) := by
  have hreads := reads_takeRm _ _ modrm rest rm hrm
  have hvex : isPrefix m 0xC4#8 = false := by cases m <;> decide
  refine ⟨?enough, fun tail => ?verdict, fun hles hreal haddr k hk => ?short⟩
  case enough =>
    have := hreads.enough
    simp only [List.length_append, List.length_cons]
    omega
  case verdict =>
    have htake := take_row ps [0xC4#8, b1, b2, op, modrm] rest (rmLength rm)
    simp only [List.cons_append, List.nil_append, List.length_cons, List.length_nil] at htake
    rw [htake, List.append_assoc, List.cons_append, decodeBody_before m ps _ _ hps hvex]
    exact decodeAfter_vexRow m _ form b1 b2 op modrm _ rm hrow (hreads.value tail)
  case short =>
    rcases decodeBody_take m ps 0xC4#8 (b1 :: b2 :: op :: modrm :: rest) k hps hvex with hshort | ⟨n, rfl, hafter⟩
    · exact .inl hshort
    · rw [hafter]
      exact decodeAfter_vexRow_short m _ form b1 b2 op modrm rest rm _ n hrow hreads hles hreal haddr (by omega)

theorem rowBytes_evex (m : DecodeMode) (ps : List Byte) (form : FmaForm) (p0 p1 p2 op modrm : Byte) (rest : List Byte)
    (rm : RmField) (hps : AllPrefixes m ps) (hrow : EvexRow form p0 p1 op)
    (hrm : takeRm (~~~p0.extractLsb' 6 1) (~~~p0.extractLsb' 5 1) modrm rest = some rm) :
    RowBytes m (ps ++ 0x62#8 :: p0 :: p1 :: p2 :: op :: modrm :: rest) (ps.length + 6 + rmLength rm) (scanned m ps) p0 modrm
      (evexExtension p0 p1 p2) (evexVerdict form (scanned m ps).pre p0 p1 p2 modrm rm) := by
  have hreads := reads_takeRm _ _ modrm rest rm hrm
  have hevex : isPrefix m 0x62#8 = false := by cases m <;> decide
  refine ⟨?enough, fun tail => ?verdict, fun hles hreal haddr k hk => ?short⟩
  case enough =>
    have := hreads.enough
    simp only [List.length_append, List.length_cons]
    omega
  case verdict =>
    have htake := take_row ps [0x62#8, p0, p1, p2, op, modrm] rest (rmLength rm)
    simp only [List.cons_append, List.nil_append, List.length_cons, List.length_nil] at htake
    rw [htake, List.append_assoc, List.cons_append, decodeBody_before m ps _ _ hps hevex]
    exact decodeAfter_evexRow m _ form p0 p1 p2 op modrm _ rm hrow (hreads.value tail)
  case short =>
    rcases decodeBody_take m ps 0x62#8 (p0 :: p1 :: p2 :: op :: modrm :: rest) k hps hevex with hshort | ⟨n, rfl, hafter⟩
    · exact .inl hshort
    · rw [hafter]
      exact decodeAfter_evexRow_short m _ form p0 p1 p2 op modrm rest rm _ n hrow hreads hles hreal haddr (by omega)

/-! ## The decoder on the bytes of a row -/

/-- The verdict on a row whose own encoding is an instruction is not that there are too few bytes. -/
theorem rowVerdict_told (m : DecodeMode) (p : PrefixScan) (b1 modrm : Byte) (extension : Bool) (i : Instr) :
    ¬ TooFew (rowVerdict m p b1 modrm extension (.instr i)) := by
  unfold rowVerdict TooFew
  split
  · simp
  · split
    · simp
    · split
      · simp
      · split
        · simp
        · rcases refusalOf_cases m p extension with h | h | h <;> simp [h]

section Decode

variable {m : DecodeMode} {bytes : List Byte} {n : Nat} {p : PrefixScan} {b1 modrm : Byte} {extension : Bool} {v : Verdict}

theorem RowBytes.body (h : RowBytes m bytes n p b1 modrm extension v) :
    decodeBody m bytes = rowVerdict m p b1 modrm extension v := by
  rw [← h.verdict (bytes.drop n), List.take_append_drop]

/-- A row of at most fifteen bytes, whatever follows it. -/
theorem RowBytes.decode_eq (h : RowBytes m bytes n p b1 modrm extension v) (hn : n ≤ maxLength)
    (htold : ¬ TooFew (rowVerdict m p b1 modrm extension v)) (tail : List Byte) :
    decode m (bytes.take n ++ tail) = rowVerdict m p b1 modrm extension v := by
  obtain ⟨hshort, hincomplete⟩ := not_or.mp htold
  refine decode_eq_of_prefix m (bytes.take n) _ _ (List.prefix_append _ _) ?_ h.verdict hshort hincomplete
  rw [List.length_take_of_le h.enough]
  exact hn

/-- A row that the first fifteen bytes do not complete (rule R57). -/
theorem RowBytes.decode_tooLong {i : Instr} (h : RowBytes m bytes n p b1 modrm extension (.instr i)) (hn : maxLength < n)
    (hles : isLesOrBound m b1 = false) (hreal : m ≠ .real) (haddr : isAddressing16 m p.pre modrm = false)
    (tail : List Byte) : decode m (bytes.take n ++ tail) = .tooLong := by
  have htake : (bytes.take n ++ tail).take maxLength = bytes.take maxLength := by
    rw [List.take_append_of_le_length (by rw [List.length_take_of_le h.enough]; exact hn.le), List.take_take,
      Nat.min_eq_left hn.le]
  have hfits : fitsLimit m (bytes.take n ++ tail) = false := by
    rw [fitsLimit, htake]
    rcases h.short hles hreal haddr maxLength hn with hshort | hincomplete
    · rw [hshort]
      rfl
    · rw [hincomplete]
      rfl
  have hbody : decodeBody m (bytes.take n ++ tail) =
      if p.forbidden then .ud else (refusalOf m p extension).getD (.instr i) := by
    simp [h.verdict, rowVerdict, hles, hreal, haddr]
  unfold decode
  rw [hbody, hfits]
  cases p.forbidden with
  | true => rfl
  | false => rcases refusalOf_cases m p extension with hr | hr | hr <;> simp [hr]

end Decode

/-! ## An instruction is decoded from its own bytes -/

/-- Bytes that tell an instruction begin with a row, which is as long as the instruction. -/
theorem rowBytes_of_decodeBody (m : DecodeMode) (bytes : List Byte) (i : Instr) (h : decodeBody m bytes = .instr i) :
    i.wellFormed = true ∧ ∃ p b1 modrm extension, RowBytes m bytes (instrLength i) p b1 modrm extension (.instr i) ∧
      rowVerdict m p b1 modrm extension (.instr i) = .instr i := by
  rcases allPrefixes_or_split m bytes with hall | ⟨ps, b, rest, rfl, hps, hb⟩
  · rw [decodeBody_only m bytes hall] at h
    cases h
  · have hafter := h
    rw [decodeBody_before m ps b rest hps hb] at hafter
    rcases decodeAfter_instr m _ b rest i hafter with
      ⟨rfl, form, b1, b2, op, modrm, tail, rm, rfl, hrow, hrm⟩ | ⟨rfl, form, p0, p1, p2, op, modrm, tail, rm, rfl, hrow, hrm⟩
    · have hbytes := rowBytes_vex m ps form b1 b2 op modrm tail rm hps hrow hrm
      have hverdict := h.symm.trans hbytes.body
      obtain ⟨_, _, _, hforbidden, hrepeated, hv⟩ := rowVerdict_eq_instr _ _ _ _ _ _ _ hverdict.symm
      obtain rfl := Verdict.instr.inj hv
      refine ⟨wellFormed_vexRow _ _ _ _ _ _ _ (takeRm_wellFormed _ _ _ _ _ hrm), _, _, _, _, ?_, hverdict.symm⟩
      rw [instrLength_vexRow, length_of_scanned m ps hps hforbidden hrepeated]
      exact hbytes
    · have hbytes := rowBytes_evex m ps form p0 p1 p2 op modrm tail rm hps hrow hrm
      have hverdict := h.symm.trans hbytes.body
      obtain ⟨_, _, _, hforbidden, hrepeated, hv⟩ := rowVerdict_eq_instr _ _ _ _ _ _ _ hverdict.symm
      obtain ⟨hlen, hwf⟩ := evexVerdict_instr _ _ _ _ _ _ _ _ hv
      rw [hv] at hbytes hverdict
      refine ⟨hwf (takeRm_wellFormed _ _ _ _ _ hrm), _, _, _, _, ?_, hverdict.symm⟩
      rw [hlen, length_of_scanned m ps hps hforbidden hrepeated]
      exact hbytes

/-- Settles O5: the bytes of the row are those that tell the instruction, and fifteen are enough for it. -/
theorem decodeReadsOnlyItsLength : Obligations.DecodeReadsOnlyItsLength := by
  intro m bytes i h
  obtain ⟨hbody, _⟩ := (decode_eq_instr m bytes i).mp h
  obtain ⟨hwf, p, b1, modrm, extension, hbytes, hverdict⟩ := rowBytes_of_decodeBody m bytes i hbody
  obtain ⟨hles, hreal, haddr, _⟩ := rowVerdict_eq_instr _ _ _ _ _ _ _ hverdict
  have hlen : instrLength i ≤ maxLength := by
    by_contra hlong
    have htooLong := hbytes.decode_tooLong (not_le.mp hlong) hles hreal haddr (bytes.drop (instrLength i))
    rw [List.take_append_drop, h] at htooLong
    cases htooLong
  refine ⟨hwf, hlen, hbytes.enough, fun tail => ?_⟩
  rw [hbytes.decode_eq hlen (rowVerdict_told m p b1 modrm extension i) tail, hverdict]

end Sys2Proof
end

section
/-! Proofs/EncodedRow.lean: the encoding of a well-formed instruction, after any legacy prefixes, is a row of the group: the
operand form, the registers and the instruction itself are those of its fields (`rowBytes_encode`). -/

namespace Sys2Proof

open Machine

/-! ## `SRC3` in the encoding -/

/-- What `SRC3` of a VEX form puts into the bytes. -/
def vexRmCode : VexRm → RmCode
  | .reg n => encodeVexReg n
  | .mem a => encodeAddr a

/-- What `SRC3` of an EVEX form puts into the bytes. -/
def evexRmCode : EvexRm512 → RmCode
  | .reg n          => encodeEvexReg n
  | .regRounded n _ => encodeEvexReg n
  | .mem a          => encodeAddr a
  | .bcast a        => encodeAddr a

/-- `SRC3` of a VEX form as ModRM gives it. -/
def vexRmField : VexRm → RmField
  | .reg n => .reg (n.extractLsb' 0 3)
  | .mem a => .mem a

/-- `SRC3` of an EVEX form as ModRM gives it. -/
def evexRmField : EvexRm512 → RmField
  | .reg n          => .reg (n.extractLsb' 0 3)
  | .regRounded n _ => .reg (n.extractLsb' 0 3)
  | .mem a          => .mem a
  | .bcast a        => .mem a

/-- The first payload byte of a VEX encoding. -/
def vexFirst (o : VexOperands) : Byte := vexByte1 (o.dest.extractLsb' 3 1) (vexRmCode o.src3).x (vexRmCode o.src3).b

def vexModrm (o : VexOperands) : Byte := modrmByte (vexRmCode o.src3).mod (o.dest.extractLsb' 0 3) (vexRmCode o.src3).rm

/-- The first payload byte of an EVEX encoding. -/
def evexFirst (o : EvexOperands EvexRm512) : Byte :=
  evexByte0 (o.dest.extractLsb' 3 1) (evexRmCode o.src3).x (evexRmCode o.src3).b (o.dest.extractLsb' 4 1)

def evexModrm (o : EvexOperands EvexRm512) : Byte :=
  modrmByte (evexRmCode o.src3).mod (o.dest.extractLsb' 0 3) (evexRmCode o.src3).rm

theorem vexFirst_fields (o : VexOperands) :
    (vexFirst o).extractLsb' 0 5 = 2#5 ∧ (vexFirst o).extractLsb' 5 1 = ~~~(vexRmCode o.src3).b ∧
    (vexFirst o).extractLsb' 6 1 = ~~~(vexRmCode o.src3).x ∧ (vexFirst o).extractLsb' 7 1 = ~~~o.dest.extractLsb' 3 1 ∧
    ((vexFirst o).extractLsb' 6 2 = 3#2 ↔ o.dest.extractLsb' 3 1 = 0#1 ∧ (vexRmCode o.src3).x = 0#1) :=
  vexByte1_fields _ _ _

theorem vexModrm_fields (o : VexOperands) :
    (vexModrm o).extractLsb' 3 3 = o.dest.extractLsb' 0 3 ∧ (vexModrm o).extractLsb' 6 2 = (vexRmCode o.src3).mod :=
  (modrmByte_fields _ _ _).2

theorem evexFirst_fields (o : EvexOperands EvexRm512) :
    (evexFirst o).extractLsb' 0 2 = 2#2 ∧ (evexFirst o).extractLsb' 2 2 = 0#2 ∧
    (evexFirst o).extractLsb' 4 1 = ~~~o.dest.extractLsb' 4 1 ∧ (evexFirst o).extractLsb' 5 1 = ~~~(evexRmCode o.src3).b ∧
    (evexFirst o).extractLsb' 6 1 = ~~~(evexRmCode o.src3).x ∧ (evexFirst o).extractLsb' 7 1 = ~~~o.dest.extractLsb' 3 1 ∧
    ~~~(evexFirst o).extractLsb' 5 2 = (evexRmCode o.src3).x ++ (evexRmCode o.src3).b ∧
    ((evexFirst o).extractLsb' 6 2 = 3#2 ↔ o.dest.extractLsb' 3 1 = 0#1 ∧ (evexRmCode o.src3).x = 0#1) ∧
    ((evexFirst o).extractLsb' 4 2 = 3#2 ↔ o.dest.extractLsb' 4 1 = 0#1 ∧ (evexRmCode o.src3).b = 0#1) :=
  evexByte0_fields _ _ _ _

theorem evexModrm_fields (o : EvexOperands EvexRm512) :
    (evexModrm o).extractLsb' 3 3 = o.dest.extractLsb' 0 3 ∧ (evexModrm o).extractLsb' 6 2 = (evexRmCode o.src3).mod :=
  (modrmByte_fields _ _ _).2

theorem takeRm_encodeAddr_nil (a : AddrForm) (reg : BitVec 3) (h : a.wellFormed = true) :
    takeRm (encodeAddr a).x (encodeAddr a).b (modrmByte (encodeAddr a).mod reg (encodeAddr a).rm) (encodeAddr a).tail =
      some (.mem a) := by
  have htake := takeRm_encodeAddr a reg [] h
  rwa [List.append_nil] at htake

/-- `SRC3` is read back from the bytes of a VEX encoding. -/
theorem takeRm_vexModrm (o : VexOperands) (h : o.src3.wellFormed = true) :
    takeRm (~~~(vexFirst o).extractLsb' 6 1) (~~~(vexFirst o).extractLsb' 5 1) (vexModrm o) (vexRmCode o.src3).tail =
      some (vexRmField o.src3) := by
  obtain ⟨_, hb, hx, _, _⟩ := vexFirst_fields o
  rw [hx, hb, BitVec.not_not, BitVec.not_not, vexModrm]
  cases hsrc3 : o.src3 with
  | reg n => exact takeRm_modrm_reg _ _ _ _ _
  | mem a => exact takeRm_encodeAddr_nil a _ (by rwa [hsrc3] at h)

/-- `SRC3` is read back from the bytes of an EVEX encoding. -/
theorem takeRm_evexModrm (o : EvexOperands EvexRm512) (h : o.src3.wellFormed = true) :
    takeRm (~~~(evexFirst o).extractLsb' 6 1) (~~~(evexFirst o).extractLsb' 5 1) (evexModrm o) (evexRmCode o.src3).tail =
      some (evexRmField o.src3) := by
  obtain ⟨_, _, _, hb, hx, _⟩ := evexFirst_fields o
  rw [hx, hb, BitVec.not_not, BitVec.not_not, evexModrm]
  cases hsrc3 : o.src3 with
  | reg n => exact takeRm_modrm_reg _ _ _ _ _
  | regRounded n rc => exact takeRm_modrm_reg _ _ _ _ _
  | mem a => exact takeRm_encodeAddr_nil a _ (by rwa [hsrc3] at h)
  | bcast a => exact takeRm_encodeAddr_nil a _ (by rwa [hsrc3] at h)

theorem rmLength_vexRmField (src3 : VexRm) : rmLength (vexRmField src3) = (vexRmCode src3).tail.length := by
  cases src3 with
  | reg n => rfl
  | mem a => exact (length_encodeAddr_tail a).symm

theorem rmLength_evexRmField (src3 : EvexRm512) : rmLength (evexRmField src3) = (evexRmCode src3).tail.length := by
  cases src3 with
  | reg n => rfl
  | regRounded n rc => rfl
  | mem a => exact (length_encodeAddr_tail a).symm
  | bcast a => exact (length_encodeAddr_tail a).symm

/-- A memory operand has `mod` other than 11. -/
theorem encodeAddr_mod (a : AddrForm) : (encodeAddr a).mod ≠ 3#2 := by
  cases a with
  | base b d => exact dispMod_ne_three d
  | disp32 d => simp [encodeAddr]
  | sib s i b d => exact dispMod_ne_three d
  | sibNoBase s i d => simp [encodeAddr]

/-! ## The first eight registers -/

theorem gpr_low_iff : ∀ n : BitVec 4, n.toNat < 8 ↔ n.extractLsb' 3 1 = 0#1 := by decide

theorem evexReg_low_iff : ∀ n : EvexReg, n.toNat < 8 ↔ n.extractLsb' 3 1 = 0#1 ∧ n.extractLsb' 4 1 = 0#1 := by decide

theorem evexReg_low_iff_v : ∀ n : EvexReg, n.toNat < 8 ↔ ¬ 8 ≤ (n.extractLsb' 0 4).toNat ∧ n.extractLsb' 4 1 = 0#1 := by
  decide

theorem addrLow_iff (a : AddrForm) : addrLow a = true ↔ (encodeAddr a).x = 0#1 ∧ (encodeAddr a).b = 0#1 := by
  cases a <;> simp [addrLow, encodeAddr, gpr_low_iff]

/-- The registers of `SRC3` are among the first eight where it needs neither `X` nor `B`. -/
def vexRmLow : VexRm → Bool
  | .reg n => decide (n.toNat < 8)
  | .mem a => addrLow a

def evexRmLow : EvexRm512 → Bool
  | .reg n          => decide (n.toNat < 8)
  | .regRounded n _ => decide (n.toNat < 8)
  | .mem a          => addrLow a
  | .bcast a        => addrLow a

theorem vexRmLow_iff (src3 : VexRm) : vexRmLow src3 = true ↔ (vexRmCode src3).x = 0#1 ∧ (vexRmCode src3).b = 0#1 := by
  cases src3 with
  | reg n => simp [vexRmLow, vexRmCode, encodeVexReg, gpr_low_iff]
  | mem a => exact addrLow_iff a

theorem evexRmLow_iff (src3 : EvexRm512) :
    evexRmLow src3 = true ↔ (evexRmCode src3).x = 0#1 ∧ (evexRmCode src3).b = 0#1 := by
  cases src3 with
  | reg n => simp [evexRmLow, evexRmCode, encodeEvexReg, evexReg_low_iff, and_comm]
  | regRounded n rc => simp [evexRmLow, evexRmCode, encodeEvexReg, evexReg_low_iff, and_comm]
  | mem a => exact addrLow_iff a
  | bcast a => exact addrLow_iff a

theorem instrLow_vex (i : Instr) (o : VexOperands) (ho : instrOperands i = .inl o) :
    instrLow i = (decide (o.dest.toNat < 8) && decide (o.src2.toNat < 8) && vexRmLow o.src3) := by
  simp only [instrLow, ho]
  cases o.src3 <;> rfl

theorem instrLow_evex (i : Instr) (o : EvexOperands EvexRm512) (ho : instrOperands i = .inr o) :
    instrLow i = (decide (o.dest.toNat < 8) && decide (o.src2.toNat < 8) && evexRmLow o.src3) := by
  simp only [instrLow, ho]
  cases o.src3 <;> rfl

/-! ## A VEX form -/

/-- A VEX form, from its operands, with the bytes of its encoding. -/
theorem encode_vex (i : Instr) (o : VexOperands) (ho : instrOperands i = .inl o) :
    ∃ form l, i = vexInstr form l o ∧ i.wellFormed = o.src3.wellFormed ∧
      encode i = encodePrefixes o.pre ++ 0xC4#8 ::
        vexFirst o :: vexByte2 o.src2 l :: formOpcode form :: vexModrm o :: (vexRmCode o.src3).tail := by
  have hbytes : ∀ form l, encodeVex form l o = encodePrefixes o.pre ++ 0xC4#8 ::
      vexFirst o :: vexByte2 o.src2 l :: formOpcode form :: vexModrm o :: (vexRmCode o.src3).tail :=
    fun form l => List.append_assoc _ _ _
  cases i <;> cases ho
  case vfmsubadd132pdVex128 => exact ⟨.f132, 0#1, rfl, rfl, hbytes _ _⟩
  case vfmsubadd213pdVex128 => exact ⟨.f213, 0#1, rfl, rfl, hbytes _ _⟩
  case vfmsubadd231pdVex128 => exact ⟨.f231, 0#1, rfl, rfl, hbytes _ _⟩
  case vfmsubadd132pdVex256 => exact ⟨.f132, 1#1, rfl, rfl, hbytes _ _⟩
  case vfmsubadd213pdVex256 => exact ⟨.f213, 1#1, rfl, rfl, hbytes _ _⟩
  case vfmsubadd231pdVex256 => exact ⟨.f231, 1#1, rfl, rfl, hbytes _ _⟩

theorem opcodeForm_formOpcode (form : FmaForm) : opcodeForm (formOpcode form) = some form := by cases form <;> rfl

/-- The fields of a VEX encoding are the operands. -/
theorem vexFields_encoded (pre : Prefixes) (o : VexOperands) (l : BitVec 1) :
    vexFields pre (vexFirst o) (vexByte2 o.src2 l) (vexModrm o) (vexRmField o.src3) = { o with pre := pre } := by
  obtain ⟨_, hb, _, hr, _⟩ := vexFirst_fields o
  obtain ⟨_, _, hv, _, _⟩ := vexByte2_fields o.src2 l
  obtain ⟨hreg, _⟩ := vexModrm_fields o
  unfold vexFields
  simp only [hb, hr, hv, hreg, BitVec.not_not, gpr_of_bits]
  cases o.src3 with
  | reg n => simp only [vexRmField, vexRmCode, encodeVexReg, gpr_of_bits]
  | mem a => rfl

/-! ## An EVEX form -/

/-- The bits `b` and `L'L` that an EVEX form has. -/
def evexSelection (vl : VecLen) : EvexRm512 → BitVec 1 × BitVec 2
  | .reg _           => (0#1, match vl with | .v128 => 0#2 | .v256 => 1#2 | .v512 => 2#2)
  | .regRounded _ rc => (1#1, roundingBits rc)
  | .mem _           => (0#1, match vl with | .v128 => 0#2 | .v256 => 1#2 | .v512 => 2#2)
  | .bcast _         => (1#1, match vl with | .v128 => 0#2 | .v256 => 1#2 | .v512 => 2#2)

/-- The third payload byte of an EVEX encoding. -/
def evexThird (vl : VecLen) (o : EvexOperands EvexRm512) : Byte :=
  evexByte2 (BitVec.ofBool o.z) (evexSelection vl o.src3).2 (evexSelection vl o.src3).1 (o.src2.extractLsb' 4 1) o.aaa

theorem evexThird_fields (vl : VecLen) (o : EvexOperands EvexRm512) :
    (evexThird vl o).extractLsb' 0 3 = o.aaa ∧ (evexThird vl o).extractLsb' 3 1 = ~~~o.src2.extractLsb' 4 1 ∧
    (evexThird vl o).extractLsb' 4 1 = (evexSelection vl o.src3).1 ∧
    (evexThird vl o).extractLsb' 5 2 = (evexSelection vl o.src3).2 ∧
    (evexThird vl o).extractLsb' 7 1 = BitVec.ofBool o.z := evexByte2_fields _ _ _ _ _

/-- The bytes of an EVEX form after the legacy prefixes and `62H`. -/
def evexPayload (form : FmaForm) (vl : VecLen) (o : EvexOperands EvexRm512) : List Byte :=
  evexFirst o :: evexByte1 (o.src2.extractLsb' 0 4) :: evexThird vl o :: formOpcode form :: evexModrm o ::
    (evexRmCode o.src3).tail

theorem encodeEvexWith_eq {ρ : Type} (form : FmaForm) (b : BitVec 1) (ll : BitVec 2) (o : EvexOperands ρ) (c : RmCode) :
    encodeEvexWith form b ll o c = encodePrefixes o.pre ++ 0x62#8 ::
      evexByte0 (o.dest.extractLsb' 3 1) c.x c.b (o.dest.extractLsb' 4 1) :: evexByte1 (o.src2.extractLsb' 0 4) ::
      evexByte2 (BitVec.ofBool o.z) ll b (o.src2.extractLsb' 4 1) o.aaa :: formOpcode form ::
      modrmByte c.mod (o.dest.extractLsb' 0 3) c.rm :: c.tail := List.append_assoc _ _ _

theorem encodeEvex128_eq (form : FmaForm) (o : EvexOperands EvexRm) :
    encodeEvex form 0#2 o = encodePrefixes o.pre ++ 0x62#8 :: evexPayload form .v128 (widen o) := by
  obtain ⟨pre, dest, src2, aaa, z, src3⟩ := o
  cases src3 <;> exact encodeEvexWith_eq _ _ _ _ _

theorem encodeEvex256_eq (form : FmaForm) (o : EvexOperands EvexRm) :
    encodeEvex form 1#2 o = encodePrefixes o.pre ++ 0x62#8 :: evexPayload form .v256 (widen o) := by
  obtain ⟨pre, dest, src2, aaa, z, src3⟩ := o
  cases src3 <;> exact encodeEvexWith_eq _ _ _ _ _

theorem encodeEvex512_eq (form : FmaForm) (o : EvexOperands EvexRm512) :
    encodeEvex512 form o = encodePrefixes o.pre ++ 0x62#8 :: evexPayload form .v512 o := by
  obtain ⟨pre, dest, src2, aaa, z, src3⟩ := o
  cases src3 <;> exact encodeEvexWith_eq _ _ _ _ _

theorem roundingOfBits_roundingBits (rc : RoundingMode) : roundingOfBits (roundingBits rc) = rc := by cases rc <;> rfl

/-- The selection that an EVEX encoding makes, with any prefixes in the place of its own. -/
def evexSelected (form : FmaForm) (vl : VecLen) (o : EvexOperands EvexRm512) (pre : Prefixes) : Verdict :=
  selectEvex form ((evexSelection vl o.src3).1 == 1#1) (evexSelection vl o.src3).2
    ((evexRmCode o.src3).x ++ (evexRmCode o.src3).b) (evexRmField o.src3) ⟨pre, o.dest, o.src2, o.aaa, o.z, ()⟩

/-- The register number of `SRC3` from `X`, `B` and `rm`. -/
theorem evexReg_of_xb : ∀ n : EvexReg, (n.extractLsb' 4 1 ++ n.extractLsb' 3 1) ++ n.extractLsb' 0 3 = n := by decide

theorem evexSelected_128 (form : FmaForm) (o : EvexOperands EvexRm) (pre : Prefixes) :
    evexSelected form .v128 (widen o) pre = .instr (evex128Instr form { o with pre := pre }) := by
  obtain ⟨_, dest, src2, aaa, z, src3⟩ := o
  cases src3 with
  | reg n => exact congrArg (fun r => Verdict.instr (evex128Instr form ⟨pre, dest, src2, aaa, z, .reg r⟩)) (evexReg_of_xb n)
  | mem a => rfl
  | bcast a => rfl

theorem evexSelected_256 (form : FmaForm) (o : EvexOperands EvexRm) (pre : Prefixes) :
    evexSelected form .v256 (widen o) pre = .instr (evex256Instr form { o with pre := pre }) := by
  obtain ⟨_, dest, src2, aaa, z, src3⟩ := o
  cases src3 with
  | reg n => exact congrArg (fun r => Verdict.instr (evex256Instr form ⟨pre, dest, src2, aaa, z, .reg r⟩)) (evexReg_of_xb n)
  | mem a => rfl
  | bcast a => rfl

theorem evexSelected_512 (form : FmaForm) (o : EvexOperands EvexRm512) (pre : Prefixes) :
    evexSelected form .v512 o pre = .instr (evex512Instr form { o with pre := pre }) := by
  obtain ⟨_, dest, src2, aaa, z, src3⟩ := o
  cases src3 with
  | reg n => exact congrArg (fun r => Verdict.instr (evex512Instr form ⟨pre, dest, src2, aaa, z, .reg r⟩)) (evexReg_of_xb n)
  | regRounded n rc =>
    refine (congrArg (fun r => Verdict.instr (evex512Instr form ⟨pre, dest, src2, aaa, z, .regRounded r _⟩))
      (evexReg_of_xb n)).trans ?_
    rw [evexSelection, roundingOfBits_roundingBits]
  | mem a => rfl
  | bcast a => rfl

theorem wellFormed_widenRm (src3 : EvexRm) : (widenRm src3).wellFormed = src3.wellFormed := by cases src3 <;> rfl

/-- An EVEX form, with the bytes of its encoding and what they select. -/
theorem encode_evex (i : Instr) (o : EvexOperands EvexRm512) (ho : instrOperands i = .inr o) :
    ∃ form, i.wellFormed = (maskWellFormed o.aaa o.z && o.src3.wellFormed) ∧
      encode i = encodePrefixes o.pre ++ 0x62#8 :: evexPayload form (instrVecLen i) o ∧
      ∀ pre, ∃ i', evexSelected form (instrVecLen i) o pre = .instr i' ∧ (pre = o.pre → i' = i) := by
  have hnarrow : ∀ p : EvexOperands EvexRm, (maskWellFormed p.aaa p.z && p.src3.wellFormed) =
      (maskWellFormed (widen p).aaa (widen p).z && (widen p).src3.wellFormed) := fun p => by
    rw [widen, wellFormed_widenRm]
  have h128 : ∀ form p, ∀ pre, ∃ i', evexSelected form .v128 (widen p) pre = .instr i' ∧
      (pre = p.pre → i' = evex128Instr form p) := fun form p pre =>
    ⟨_, evexSelected_128 form p pre, fun h => by rw [h]⟩
  have h256 : ∀ form p, ∀ pre, ∃ i', evexSelected form .v256 (widen p) pre = .instr i' ∧
      (pre = p.pre → i' = evex256Instr form p) := fun form p pre =>
    ⟨_, evexSelected_256 form p pre, fun h => by rw [h]⟩
  have h512 : ∀ form p, ∀ pre, ∃ i', evexSelected form .v512 p pre = .instr i' ∧
      (pre = p.pre → i' = evex512Instr form p) := fun form p pre =>
    ⟨_, evexSelected_512 form p pre, fun h => by rw [h]⟩
  cases i <;> cases ho
  case vfmsubadd132pdEvex128 p => exact ⟨.f132, hnarrow p, encodeEvex128_eq .f132 p, h128 .f132 p⟩
  case vfmsubadd213pdEvex128 p => exact ⟨.f213, hnarrow p, encodeEvex128_eq .f213 p, h128 .f213 p⟩
  case vfmsubadd231pdEvex128 p => exact ⟨.f231, hnarrow p, encodeEvex128_eq .f231 p, h128 .f231 p⟩
  case vfmsubadd132pdEvex256 p => exact ⟨.f132, hnarrow p, encodeEvex256_eq .f132 p, h256 .f132 p⟩
  case vfmsubadd213pdEvex256 p => exact ⟨.f213, hnarrow p, encodeEvex256_eq .f213 p, h256 .f213 p⟩
  case vfmsubadd231pdEvex256 p => exact ⟨.f231, hnarrow p, encodeEvex256_eq .f231 p, h256 .f231 p⟩
  case vfmsubadd132pdEvex512 => exact ⟨.f132, rfl, encodeEvex512_eq .f132 o, h512 .f132 o⟩
  case vfmsubadd213pdEvex512 => exact ⟨.f213, rfl, encodeEvex512_eq .f213 o, h512 .f213 o⟩
  case vfmsubadd231pdEvex512 => exact ⟨.f231, rfl, encodeEvex512_eq .f231 o, h512 .f231 o⟩

/-- No #UD of rules R62 and R63 is in the encoding of a well-formed EVEX form. -/
theorem evexVerdict_encoded (form : FmaForm) (vl : VecLen) (o : EvexOperands EvexRm512) (pre : Prefixes)
    (hmask : maskWellFormed o.aaa o.z = true) :
    evexVerdict form pre (evexFirst o) (evexByte1 (o.src2.extractLsb' 0 4)) (evexThird vl o) (evexModrm o)
      (evexRmField o.src3) = evexSelected form vl o pre := by
  obtain ⟨_, hreserved, hr', _, _, hr, hxb, _, _⟩ := evexFirst_fields o
  obtain ⟨_, hone, hv, _, _⟩ := evexByte1_fields (o.src2.extractLsb' 0 4)
  obtain ⟨haaa, hv', hb, hll, hz⟩ := evexThird_fields vl o
  obtain ⟨hreg, _⟩ := evexModrm_fields o
  have hzbit : (BitVec.ofBool o.z == 1#1) = o.z := by cases o.z <;> rfl
  have hlegal : (evexThird vl o).extractLsb' 7 1 = 1#1 → (evexThird vl o).extractLsb' 0 3 ≠ 0#3 := by
    rw [hz, haaa]
    intro h1 h0
    rw [h1] at hzbit
    rw [h0, ← hzbit] at hmask
    exact absurd hmask (by decide)
  rw [evexVerdict_legal form pre _ _ _ _ _ ⟨hreserved, hone⟩ hlegal, evexFields, evexSelected]
  simp only [hr', hr, hxb, hv, hv', hb, hll, hz, haaa, hreg, BitVec.not_not, hzbit, evexReg_of_bits, evexReg_of_v_bits]

/-! ## The row -/

/-- What the bytes of an instruction's encoding say of it, besides the verdict. -/
structure EncodedRow (i : Instr) (b1 modrm : Byte) (extension : Bool) : Prop where
  memory : modrm.extractLsb' 6 2 = 3#2 ↔ instrAddress i = none
  low    : instrLow i = true ↔ b1.extractLsb' 6 2 = 3#2 ∧ extension = false

theorem not_eq_zero_iff : ∀ b : BitVec 1, ~~~b = 0#1 ↔ ¬ b = 0#1 := by decide

theorem encodedRow_vex (i : Instr) (o : VexOperands) (l : BitVec 1) (ho : instrOperands i = .inl o) :
    EncodedRow i (vexFirst o) (vexModrm o) (vexExtension (vexFirst o) (vexByte2 o.src2 l)) where
  memory := by
    rw [(vexModrm_fields o).2]
    simp only [instrAddress, ho]
    cases o.src3 with
    | reg n => simp [vexRmCode, encodeVexReg]
    | mem a => simp [vexRmCode, encodeAddr_mod a]
  low := by
    obtain ⟨_, hb, _, _, htop⟩ := vexFirst_fields o
    obtain ⟨_, _, _, _, hsrc2⟩ := vexByte2_fields o.src2 l
    rw [instrLow_vex i o ho]
    simp only [htop, vexExtension, hb, Bool.and_eq_true, decide_eq_true_eq, vexRmLow_iff, gpr_low_iff o.dest,
      Bool.or_eq_false_iff, beq_eq_false_iff_ne, ne_eq, hsrc2, not_eq_zero_iff, not_not, not_le]
    exact ⟨fun ⟨⟨hd, hs⟩, hx, hb⟩ => ⟨⟨hd, hx⟩, hb, hs⟩, fun ⟨⟨hd, hx⟩, hb, hs⟩ => ⟨⟨hd, hs⟩, hx, hb⟩⟩

theorem encodedRow_evex (i : Instr) (vl : VecLen) (o : EvexOperands EvexRm512) (ho : instrOperands i = .inr o) :
    EncodedRow i (evexFirst o) (evexModrm o)
      (evexExtension (evexFirst o) (evexByte1 (o.src2.extractLsb' 0 4)) (evexThird vl o)) where
  memory := by
    rw [(evexModrm_fields o).2]
    simp only [instrAddress, ho]
    cases o.src3 with
    | reg n => simp [evexRmCode, encodeEvexReg]
    | regRounded n rc => simp [evexRmCode, encodeEvexReg]
    | mem a => simp [evexRmCode, encodeAddr_mod a]
    | bcast a => simp [evexRmCode, encodeAddr_mod a]
  low := by
    obtain ⟨_, _, _, _, _, _, _, htop, hext⟩ := evexFirst_fields o
    obtain ⟨_, _, _, _, hsrc2⟩ := evexByte1_fields (o.src2.extractLsb' 0 4)
    obtain ⟨_, hv', _⟩ := evexThird_fields vl o
    rw [instrLow_evex i o ho]
    simp only [htop, hext, evexExtension, Bool.and_eq_true, decide_eq_true_eq, evexRmLow_iff, evexReg_low_iff o.dest,
      evexReg_low_iff_v o.src2, Bool.or_eq_false_iff, bne_eq_false_iff_eq, beq_eq_false_iff_ne, ne_eq, hsrc2, hv',
      not_eq_zero_iff, not_not]
    exact ⟨fun ⟨⟨⟨h3, h4⟩, hs, hv⟩, hx, hb⟩ => ⟨⟨h3, hx⟩, ⟨⟨h4, hb⟩, hs⟩, hv⟩,
      fun ⟨⟨h3, hx⟩, ⟨⟨h4, hb⟩, hs⟩, hv⟩ => ⟨⟨⟨h3, h4⟩, hs, hv⟩, hx, hb⟩⟩

/-- The encoding of a well-formed instruction after legacy prefixes: a row, on which the verdict, but for what the prefixes
and the mode bring, is an instruction, which is this one where the prefixes are its own. -/
theorem rowBytes_encode (m : DecodeMode) (ps : List Byte) (i : Instr) (hps : AllPrefixes m ps) (hwf : i.wellFormed = true) :
    ∃ b1 modrm extension i', EncodedRow i b1 modrm extension ∧
      RowBytes m (ps ++ encode i) (ps ++ encode i).length (scanned m (ps ++ encodePrefixes (instrPrefixes i))) b1 modrm
        extension (.instr i') ∧
      ((scanned m (ps ++ encodePrefixes (instrPrefixes i))).pre = instrPrefixes i → i' = i) := by
  have hall := hps.append (allPrefixes_encodePrefixes m (instrPrefixes i))
  cases ho : instrOperands i with
  | inl o =>
    have hpre : instrPrefixes i = o.pre := by simp only [instrPrefixes, ho]
    rw [hpre] at hall ⊢
    obtain ⟨form, l, hi, hsrc3, hbytes⟩ := encode_vex i o ho
    obtain ⟨hmap, _⟩ := vexFirst_fields o
    obtain ⟨hpp, hl, _, hw, _⟩ := vexByte2_fields o.src2 l
    have hrow := rowBytes_vex m _ form _ _ (formOpcode form) _ _ _ hall ⟨opcodeForm_formOpcode form, hmap, hpp, hw⟩
      (takeRm_vexModrm o (hsrc3 ▸ hwf))
    have hlen : (ps ++ encode i).length = (ps ++ encodePrefixes o.pre).length + 5 + rmLength (vexRmField o.src3) := by
      rw [hbytes, rmLength_vexRmField]
      simp only [List.length_append, List.length_cons]
      omega
    rw [vexFields_encoded, hl] at hrow
    refine ⟨vexFirst o, vexModrm o, _, vexInstr form l { o with pre := (scanned m (ps ++ encodePrefixes o.pre)).pre },
      encodedRow_vex i o l ho, ?_, fun h => ?_⟩
    · rw [hlen, hbytes, ← List.append_assoc]
      exact hrow
    · rw [h, hi]
  | inr o =>
    have hpre : instrPrefixes i = o.pre := by simp only [instrPrefixes, ho]
    rw [hpre] at hall ⊢
    obtain ⟨form, hsrc3, hbytes, hselected⟩ := encode_evex i o ho
    rw [hsrc3, Bool.and_eq_true] at hwf
    obtain ⟨hmask, hwf⟩ := hwf
    obtain ⟨hmap, _⟩ := evexFirst_fields o
    obtain ⟨hpp, _, _, hw, _⟩ := evexByte1_fields (o.src2.extractLsb' 0 4)
    have hrow := rowBytes_evex m _ form _ _ (evexThird (instrVecLen i) o) (formOpcode form) _ _ _ hall
      ⟨opcodeForm_formOpcode form, hmap, hpp, hw⟩ (takeRm_evexModrm o hwf)
    have hlen : (ps ++ encode i).length = (ps ++ encodePrefixes o.pre).length + 6 + rmLength (evexRmField o.src3) := by
      rw [hbytes, rmLength_evexRmField, evexPayload]
      simp only [List.length_append, List.length_cons]
      omega
    obtain ⟨i', hi', hsame⟩ := hselected (scanned m (ps ++ encodePrefixes o.pre)).pre
    rw [evexVerdict_encoded form (instrVecLen i) o _ hmask, hi'] at hrow
    refine ⟨_, _, _, i', encodedRow_evex i (instrVecLen i) o ho, ?_, hsame⟩
    rw [hlen, hbytes, ← List.append_assoc]
    exact hrow

end Sys2Proof
end

section
/-! Proofs/EncodeDecode.lean: what the decoder answers to the encoding of a well-formed instruction (30_encoding.md rules R57,
R60, R61, R68 to R71), alone and after other legacy prefixes. -/

namespace Sys2Proof

open Machine

/-! ## The encoding alone -/

/-- An encoding has at most fifteen bytes. -/
theorem length_encode_le (i : Instr) : (encode i).length ≤ maxLength := by
  have haddr : ∀ a, addrLength a ≤ 5 := fun a => by
    have hdisp : ∀ d, dispLength d ≤ 4 := fun d => by cases d <;> simp [dispLength]
    cases a with
    | base b d => exact (hdisp d).trans (by decide)
    | disp32 d => simp [addrLength]
    | sib s i b d =>
      have := hdisp d
      rw [addrLength]
      omega
    | sibNoBase s i d => simp [addrLength]
  cases ho : instrOperands i with
  | inl o =>
    obtain ⟨form, l, _, _, hbytes⟩ := encode_vex i o ho
    have hpre := prefixLength_le o.pre
    have htail : (vexRmCode o.src3).tail.length ≤ 5 := by
      cases o.src3 with
      | reg n => exact Nat.zero_le _
      | mem a => exact (length_encodeAddr_tail a).le.trans (haddr a)
    simp only [hbytes, List.length_append, length_encodePrefixes, List.length_cons, maxLength]
    omega
  | inr o =>
    obtain ⟨form, _, hbytes, _⟩ := encode_evex i o ho
    have hpre := prefixLength_le o.pre
    have htail : (evexRmCode o.src3).tail.length ≤ 5 := by
      cases o.src3 with
      | reg n => exact Nat.zero_le _
      | regRounded n rc => exact Nat.zero_le _
      | mem a => exact (length_encodeAddr_tail a).le.trans (haddr a)
      | bcast a => exact (length_encodeAddr_tail a).le.trans (haddr a)
    simp only [hbytes, evexPayload, List.length_append, length_encodePrefixes, List.length_cons, maxLength]
    omega

theorem allPrefixes_nil (m : DecodeMode) : AllPrefixes m [] := fun _ hb => nomatch hb

/-- The verdict on an encoding with nothing before it, whatever follows it. -/
theorem decode_encode (m : DecodeMode) (i : Instr) (tail : List Byte) (hwf : i.wellFormed = true) :
    ∃ b1 modrm extension, EncodedRow i b1 modrm extension ∧
      decode m (encode i ++ tail) =
        rowVerdict m ⟨instrPrefixes i, false, false⟩ b1 modrm extension (.instr i) := by
  obtain ⟨b1, modrm, extension, i', hrow, hbytes, hsame⟩ := rowBytes_encode m [] i (allPrefixes_nil m) hwf
  simp only [List.nil_append, scanned_encodePrefixes] at hbytes hsame
  obtain rfl := hsame trivial
  refine ⟨b1, modrm, extension, hrow, ?_⟩
  have hdecode := hbytes.decode_eq (length_encode_le i') (rowVerdict_told m _ b1 modrm extension i') tail
  rwa [List.take_length] at hdecode

/-- Only outside `Long64` is `C4H` or `62H` another instruction, and there not before a byte with bits 7:6 set. -/
theorem isLesOrBound_long64 (b1 : Byte) : isLesOrBound .long64 b1 = false := rfl

theorem isLesOrBound_of_top (m : DecodeMode) (b1 : Byte) (h : b1.extractLsb' 6 2 = 3#2) : isLesOrBound m b1 = false := by
  simp [isLesOrBound, h]

theorem isAddressing16_long64 (p : Prefixes) (modrm : Byte) : isAddressing16 .long64 p modrm = false := Bool.and_false _

theorem decode_encode_long64 (i : Instr) (tail : List Byte) (hwf : i.wellFormed = true) :
    decode .long64 (encode i ++ tail) = .instr i := by
  obtain ⟨b1, modrm, extension, _, hdecode⟩ := decode_encode .long64 i tail hwf
  rw [hdecode]
  simp [rowVerdict, isLesOrBound_long64, isAddressing16_long64, refusalOf_long64]

/-- Settles O2: in `Long64` nothing of an encoding is refused. -/
theorem decodeEncodeVex : Obligations.DecodeEncodeVex := fun i tail _ hwf => decode_encode_long64 i tail hwf

/-- Settles O3: in `Long64` nothing of an encoding is refused. -/
theorem decodeEncodeEvex : Obligations.DecodeEncodeEvex := fun i tail _ hwf => decode_encode_long64 i tail hwf

/-! ## The 32-bit modes (rules R68, R69) -/

/-- The encoding shows a 16-bit address where the operand is in memory and the mode and the prefixes make it one. -/
theorem isAddressing16_encoded (m : DecodeMode) (p : Prefixes) (i : Instr) (b1 modrm : Byte) (extension : Bool)
    (h : EncodedRow i b1 modrm extension) :
    isAddressing16 m p modrm = true ↔ instrAddress i ≠ none ∧ hasShortAddresses m p = true := by
  simp only [isAddressing16, Bool.and_eq_true, bne_iff_ne, ne_eq, h.memory]

/-- Without an extension bit, a 16-bit address or prefixes before its own, an encoding is the instruction in every mode but
real-address mode. -/
theorem decode_encode_low (m : DecodeMode) (i : Instr) (tail : List Byte) (hm : m ≠ .real) (hwf : i.wellFormed = true)
    (hlow : instrLow i = true) (haddr : instrAddress i = none ∨ hasShortAddresses m (instrPrefixes i) = false) :
    decode m (encode i ++ tail) = .instr i := by
  obtain ⟨b1, modrm, extension, hrow, hdecode⟩ := decode_encode m i tail hwf
  obtain ⟨htop, hext⟩ := hrow.low.mp hlow
  have h16 : isAddressing16 m (instrPrefixes i) modrm = false := by
    rw [← Bool.not_eq_true, isAddressing16_encoded m _ i b1 modrm extension hrow]
    rintro ⟨hmem, hshort⟩
    rcases haddr with hnone | hlong
    · exact hmem hnone
    · exact Bool.false_ne_true (hlong.symm.trans hshort)
  rw [hdecode]
  simp [rowVerdict, isLesOrBound_of_top m b1 htop, hm, h16, refusalOf, hext]

theorem decode_encode_addressing16 (m : DecodeMode) (i : Instr) (tail : List Byte) (hm : m ≠ .real)
    (hwf : i.wellFormed = true) (hlow : instrLow i = true) (haddr : instrAddress i ≠ none)
    (hshort : hasShortAddresses m (instrPrefixes i) = true) : decode m (encode i ++ tail) = .addressing16 := by
  obtain ⟨b1, modrm, extension, hrow, hdecode⟩ := decode_encode m i tail hwf
  obtain ⟨htop, _⟩ := hrow.low.mp hlow
  have h16 := (isAddressing16_encoded m (instrPrefixes i) i b1 modrm extension hrow).mpr ⟨haddr, hshort⟩
  rw [hdecode]
  simp [rowVerdict, isLesOrBound_of_top m b1 htop, hm, h16]

/-- A higher register is refused, if the bytes are not another instruction or have a 16-bit address. -/
theorem decode_encode_high (m : DecodeMode) (i : Instr) (tail : List Byte) (hm : m = .legacy32 ∨ m = .legacy16)
    (hwf : i.wellFormed = true) (hhigh : instrLow i = false) :
    decode m (encode i ++ tail) ∈ [.extensionBit, .addressing16, .notThisGroup] := by
  obtain ⟨b1, modrm, extension, hrow, hdecode⟩ := decode_encode m i tail hwf
  have hreal : m ≠ .real := by rcases hm with rfl | rfl <;> nofun
  have hlong : m ≠ .long64 := by rcases hm with rfl | rfl <;> nofun
  rw [hdecode]
  cases hles : isLesOrBound m b1 with
  | true => simp [rowVerdict, hles]
  | false =>
    cases h16 : isAddressing16 m (instrPrefixes i) modrm with
    | true => simp [rowVerdict, hles, hreal, h16]
    | false =>
      have htop : b1.extractLsb' 6 2 = 3#2 := by simpa [isLesOrBound, hlong] using hles
      have hext : extension = true := by
        rw [← Bool.not_eq_false]
        exact fun hext => Bool.false_ne_true (hhigh.symm.trans (hrow.low.mpr ⟨htop, hext⟩))
      simp [rowVerdict, hles, hreal, h16, refusalOf, hm, hext]

/-- Settles O4: each clause is one case of the verdict on the encoding. -/
theorem decodeEncodeIn32BitModes : Obligations.DecodeEncodeIn32BitModes := by
  intro i tail hwf
  refine ⟨fun hlow haddr => ?_, fun hlow hsize haddr => ?_, fun hlow haddr => ?_, fun hlow haddr => ?_,
    fun hhigh m hm => decode_encode_high m i tail hm hwf hhigh⟩
  · exact decode_encode_low .legacy32 i tail nofun hwf hlow (haddr.symm.imp_right fun h => by rw [hasShortAddresses, h]; rfl)
  · exact decode_encode_addressing16 .legacy32 i tail nofun hwf hlow haddr (by rw [hasShortAddresses, hsize]; rfl)
  · exact decode_encode_low .legacy16 i tail nofun hwf hlow (.inl haddr)
  · exact decode_encode_addressing16 .legacy16 i tail nofun hwf hlow haddr rfl

end Sys2Proof

namespace Sys2Proof.Machine

/-! ## Other legacy prefixes before the encoding -/

/-- The prefixes as the statements list them. -/
theorem isPrefix_of_listed (m : DecodeMode) (b : Byte)
    (h : b ∈ [0xF0#8, 0x66#8, 0xF2#8, 0xF3#8, 0x26#8, 0x2E#8, 0x36#8, 0x3E#8, 0x64#8, 0x65#8, 0x67#8] ∨
      (m = .long64 ∧ 0x40#8 ≤ b ∧ b ≤ 0x4F#8)) : isPrefix m b = true := by
  cases m <;> revert b <;> decide

theorem forbiddenPrefix_of_listed (b : Byte)
    (h : b ∈ [0xF0#8, 0x66#8, 0xF2#8, 0xF3#8] ∨ (0x40#8 ≤ b ∧ b ≤ 0x4F#8)) : forbiddenPrefix .long64 b = true := by
  revert b
  decide

/-- Settles O6: that there is one of the forbidden prefixes is remembered, and the verdict on a row in `Long64` looks at it first. -/
theorem forbiddenPrefixRaisesUd : Obligations.ForbiddenPrefixRaisesUd := by
  intro s i ps hmode hwf hlen hps ⟨b, hb, hforbidden⟩ ⟨tail, htail⟩
  have hall : AllPrefixes .long64 ps := fun c hc => isPrefix_of_listed .long64 c ((hps c hc).imp_right fun h => ⟨rfl, h⟩)
  obtain ⟨b1, modrm, extension, i', _, hbytes, _⟩ := rowBytes_encode .long64 ps i hall hwf
  have hscanned : (scanned .long64 (ps ++ encodePrefixes (instrPrefixes i))).forbidden = true := by
    rw [scanned_forbidden _ _ (hall.append (allPrefixes_encodePrefixes _ _)), List.any_append, Bool.or_eq_true]
    exact .inl (List.any_eq_true.mpr ⟨b, hb, forbiddenPrefix_of_listed b hforbidden⟩)
  apply step_of_decode_ud
  have hdecode := hbytes.decode_eq hlen (rowVerdict_told _ _ b1 modrm extension i') tail
  rw [List.take_length, htail] at hdecode
  rw [hmode, hdecode]
  simp [rowVerdict, isLesOrBound_long64, isAddressing16_long64, hscanned]

/-! ## Bytes of another instruction -/

theorem step_of_body_notThisGroup (s : State) (h : decodeBody s.decodeMode s.fetch = .notThisGroup) :
    step s = .refused .notThisGroup := by
  rw [step, decode_eq_body _ _ (.inl h), h]

theorem step_of_body_addressing16 (s : State) (h : decodeBody s.decodeMode s.fetch = .addressing16) :
    step s = .refused .addressing16 := by
  rw [step, decode_eq_body _ _ (.inr h), h]

theorem isPrefix_of_unlisted (m : DecodeMode) (b : Byte)
    (h : b ∉ [0xF0#8, 0x66#8, 0xF2#8, 0xF3#8, 0x26#8, 0x2E#8, 0x36#8, 0x3E#8, 0x64#8, 0x65#8, 0x67#8, 0xC4#8, 0x62#8])
    (hrex : ¬ (0x40#8 ≤ b ∧ b ≤ 0x4F#8)) : isPrefix m b = false ∧ b ≠ 0xC4#8 ∧ b ≠ 0x62#8 := by
  cases m <;> revert b <;> decide

/-- Settles O11: after the prefixes, each clause is what the decoder answers to the first bytes that follow them. -/
theorem neighbourEncodingsRefused : Obligations.NeighbourEncodingsRefused := by
  intro s ps b b1 b2 b3 op hps
  have hall : AllPrefixes s.decodeMode ps := fun c hc => isPrefix_of_listed s.decodeMode c (hps c hc)
  have hvex : isPrefix s.decodeMode 0xC4#8 = false := by cases s.decodeMode <;> decide
  have hevex : isPrefix s.decodeMode 0x62#8 = false := by cases s.decodeMode <;> decide
  refine ⟨fun hmode ⟨tail, htail⟩ hrow => ?vex, fun hmode ⟨tail, htail⟩ hrow => ?evex, fun ⟨tail, htail⟩ hb hrex => ?other,
    fun ⟨tail, htail⟩ hb hmode htop => ?lesBound⟩
  all_goals
    apply step_of_body_notThisGroup
    rw [← htail, List.append_assoc, List.cons_append]
  case vex =>
    rw [decodeBody_before _ ps _ _ hall hvex, hmode]
    exact decodeVex_of_no_row _ b1 b2 op tail hrow
  case evex =>
    rw [decodeBody_before _ ps _ _ hall hevex, hmode]
    exact decodeEvex_of_no_row _ b1 b2 b3 op tail hrow
  case other =>
    obtain ⟨hprefix, hneVex, hneEvex⟩ := isPrefix_of_unlisted s.decodeMode b hb hrex
    rw [decodeBody_before _ ps _ _ hall hprefix, decodeAfter, if_neg hneVex, if_neg hneEvex]
  case lesBound =>
    have hles : isLesOrBound s.decodeMode b1 = true := by
      rw [ne_eq, mod_eq_three_iff] at htop
      simp [isLesOrBound, hmode, htop]
    rcases hb with rfl | rfl
    · rw [decodeBody_before _ ps _ _ hall hvex]
      exact if_pos hles
    · rw [decodeBody_before _ ps _ _ hall hevex]
      exact if_pos hles

/-! ## More than fifteen bytes (rule R57) -/

theorem step_of_decode_tooLong (s : State) (h : decode s.decodeMode s.fetch = .tooLong) :
    step s = .fault (.generalProtection s) := by
  rw [step, h]
  rfl

/-- `67H` stands among the prefixes before the encoding or among its own. -/
theorem scanned_addrSize_encoded (m : DecodeMode) (ps : List Byte) (pre : Prefixes) (h : AllPrefixes m ps) :
    (scanned m (ps ++ encodePrefixes pre)).pre.addrSize = true ↔ 0x67#8 ∈ ps ∨ pre.addrSize = true := by
  have hown : (encodePrefixes pre).any (· == 0x67#8) = pre.addrSize := by
    rw [← scanned_addrSize m _ (allPrefixes_encodePrefixes m pre), scanned_encodePrefixes]
  rw [scanned_addrSize m _ (h.append (allPrefixes_encodePrefixes m pre)), List.any_append, hown, Bool.or_eq_true]
  simp

/-- Settles O12: fifteen bytes of a longer row do not tell it; a 16-bit address is told from ModRM. -/
theorem tooLongInstrRaisesGp : Obligations.TooLongInstrRaisesGp := by
  intro s i ps hwf hlen hps ⟨tail, htail⟩
  have hall : AllPrefixes s.decodeMode ps := fun c hc => isPrefix_of_listed s.decodeMode c (hps c hc)
  obtain ⟨b1, modrm, extension, i', hrow, hbytes, _⟩ := rowBytes_encode s.decodeMode ps i hall hwf
  have hbody := hbytes.verdict tail
  rw [List.take_length, htail] at hbody
  have tooLong : isLesOrBound s.decodeMode b1 = false → s.decodeMode ≠ .real →
      (instrAddress i = none ∨
        hasShortAddresses s.decodeMode (scanned s.decodeMode (ps ++ encodePrefixes (instrPrefixes i))).pre = false) →
      step s = .fault (.generalProtection s) := by
    intro hles hreal haddr
    apply step_of_decode_tooLong
    have h16 : isAddressing16 s.decodeMode (scanned s.decodeMode (ps ++ encodePrefixes (instrPrefixes i))).pre modrm =
        false := by
      rw [← Bool.not_eq_true, isAddressing16_encoded _ _ i b1 modrm extension hrow]
      exact fun ⟨hmem, hshort⟩ => haddr.elim hmem fun h => Bool.false_ne_true (h.symm.trans hshort)
    have hdecode := hbytes.decode_tooLong hlen hles hreal h16 tail
    rwa [List.take_length, htail] at hdecode
  have short : isLesOrBound s.decodeMode b1 = false → s.decodeMode ≠ .real → instrAddress i ≠ none →
      hasShortAddresses s.decodeMode (scanned s.decodeMode (ps ++ encodePrefixes (instrPrefixes i))).pre = true →
      step s = .refused .addressing16 := by
    intro hles hreal hmem hshort
    apply step_of_body_addressing16
    have h16 := (isAddressing16_encoded s.decodeMode _ i b1 modrm extension hrow).mpr ⟨hmem, hshort⟩
    simp [hbody, rowVerdict, hles, hreal, h16]
  have hsize := scanned_addrSize_encoded s.decodeMode ps (instrPrefixes i) hall
  have hlesLow : instrLow i = true → isLesOrBound s.decodeMode b1 = false := fun hlow =>
    isLesOrBound_of_top _ b1 (hrow.low.mp hlow).1
  refine ⟨fun hmode => ?long64, fun hmode hlow => ?legacy32, fun hmode hlow => ?legacy16⟩
  case long64 => exact tooLong (by rw [hmode]; rfl) (by rw [hmode]; nofun) (.inr (by rw [hmode]; rfl))
  case legacy32 =>
    have hreal : s.decodeMode ≠ .real := by rw [hmode]; nofun
    have hshort : hasShortAddresses s.decodeMode (scanned s.decodeMode (ps ++ encodePrefixes (instrPrefixes i))).pre = true ↔
        0x67#8 ∈ ps ∨ (instrPrefixes i).addrSize = true := by
      rw [← hsize, hmode]
      simp [hasShortAddresses]
    refine ⟨fun haddr => tooLong (hlesLow hlow) hreal (haddr.imp_right fun ⟨hmem, hown⟩ => ?_),
      fun hmem h67 => short (hlesLow hlow) hreal hmem (hshort.mpr h67)⟩
    rw [← Bool.not_eq_true, hshort]
    exact not_or.mpr ⟨hmem, by simp [hown]⟩
  case legacy16 =>
    have hreal : s.decodeMode ≠ .real := by rw [hmode]; nofun
    exact ⟨fun hnone => tooLong (hlesLow hlow) hreal (.inl hnone),
      fun hmem => short (hlesLow hlow) hreal hmem (by rw [hmode]; rfl)⟩

/-! ## Real-address and virtual-8086 mode (60_exceptions.md rule R133) -/

theorem inRealMode_iff (s : State) : s.inRealMode = true ↔ s.cr0.getLsbD 0 = false ∨ s.rflags.getLsbD 17 = true := by
  simp [State.inRealMode, State.cr0PE, State.rflagsVM]

/-- Settles O16: the mode is the first #UD condition of every form, and of the verdict on every row. -/
theorem realModeRaisesUd : Obligations.RealModeRaisesUd := by
  intro i s hmode
  have hreal := (inRealMode_iff s).mpr hmode
  refine ⟨?exec, fun hwf hlow ⟨tail, htail⟩ => ?step⟩
  case exec =>
    exact exec_of_disabled i s (instrDisabled_of_vexDisabled s i (by rw [State.vexDisabled, hreal, Bool.true_or, Bool.true_or]))
  case step =>
    have hdecodeMode : s.decodeMode = .real := if_pos hreal
    obtain ⟨b1, modrm, extension, hrow, hdecode⟩ := decode_encode .real i tail hwf
    apply step_of_decode_ud
    rw [hdecodeMode, ← htail, hdecode]
    simp [rowVerdict, isLesOrBound_of_top .real b1 (hrow.low.mp hlow).1]

end Sys2Proof.Machine
end

section
/-! Proofs/Invariant.lean: the program counter (10_state.md rule R18), the invariant of the machine at reset and under a step,
and the runs (70_reset_and_hazards.md rule R159). What a step leaves is `exec_next`. -/

namespace Sys2Proof.Machine

/-! ## The step and the program counter -/

theorem step_of_decode_instr (s : State) (i : Instr) (h : decode s.decodeMode s.fetch = .instr i) : step s = exec i s := by
  rw [step, h]

/-- Settles O13: the next state of `exec` has the program counter of `exec_next`. -/
theorem stepRunsDecodedInstr : Obligations.StepRunsDecodedInstr := by
  intro s i h
  refine ⟨step_of_decode_instr s i h, fun t hnext => ?_⟩
  rw [step_of_decode_instr s i h] at hnext
  obtain ⟨v, rfl⟩ := exec_next i s t hnext
  rfl

/-- Rule R57: the encoder writes as many bytes as the length says. -/
theorem length_encode (i : Instr) : (encode i).length = instrLength i := by
  cases i with
  | vfmsubadd132pdVex128 o  => exact length_encodeVex _ _ o
  | vfmsubadd213pdVex128 o  => exact length_encodeVex _ _ o
  | vfmsubadd231pdVex128 o  => exact length_encodeVex _ _ o
  | vfmsubadd132pdVex256 o  => exact length_encodeVex _ _ o
  | vfmsubadd213pdVex256 o  => exact length_encodeVex _ _ o
  | vfmsubadd231pdVex256 o  => exact length_encodeVex _ _ o
  | vfmsubadd132pdEvex128 o => exact length_encodeEvex _ _ o
  | vfmsubadd213pdEvex128 o => exact length_encodeEvex _ _ o
  | vfmsubadd231pdEvex128 o => exact length_encodeEvex _ _ o
  | vfmsubadd132pdEvex256 o => exact length_encodeEvex _ _ o
  | vfmsubadd213pdEvex256 o => exact length_encodeEvex _ _ o
  | vfmsubadd231pdEvex256 o => exact length_encodeEvex _ _ o
  | vfmsubadd132pdEvex512 o => exact length_encodeEvex512 _ o
  | vfmsubadd213pdEvex512 o => exact length_encodeEvex512 _ o
  | vfmsubadd231pdEvex512 o => exact length_encodeEvex512 _ o

theorem nextRip_long64 (s : State) (len : Nat) (h : s.mode = .long64) : s.nextRip len = s.rip + BitVec.ofNat 64 len := by
  rw [State.nextRip, h]

theorem nextRip_short (s : State) (len : Nat) (h : s.mode ≠ .long64) :
    s.nextRip len = ((s.rip + BitVec.ofNat 64 len).setWidth 32).setWidth 64 := by
  unfold State.nextRip
  split
  · exact absurd ‹_› h
  · rfl
  · rfl

theorem toNat_nextRip_short (s : State) (len : Nat) (h : s.mode ≠ .long64) :
    (s.nextRip len).toNat = (s.rip.toNat + len) % 2 ^ 32 := by
  rw [nextRip_short s len h]
  simp only [BitVec.toNat_setWidth, BitVec.toNat_add, BitVec.toNat_ofNat]
  omega

theorem exec_fault (i : Instr) (s : State) (f : Fault) (h : exec i s = .fault f) : ∃ x, raise x s = .fault f := by
  rcases exec_cases i s _ h with ⟨x, hx⟩ | hr | ⟨e, g, hn⟩
  · exact ⟨x, hx.symm⟩
  · exact nomatch hr
  · exact nomatch hn

/-- No exception moves the program counter (60_exceptions.md rule R141). -/
theorem raise_after_rip (x : Exception) (s : State) (f : Fault) (h : raise x s = .fault f) : f.after.rip = s.rip := by
  obtain ⟨f', hf', c, g, d, hafter⟩ := raise_after x s
  obtain rfl : f' = f := Host.Outcome.fault.inj (hf'.symm.trans h)
  rw [hafter]

/-- Settles O27: `exec_next` on completion, the shared operation at a fault. -/
theorem programCounterAdvances : Obligations.ProgramCounterAdvances := by
  intro i s
  rw [length_encode]
  refine ⟨fun t hnext hmode => ?long64, fun t hnext hmode => ?short, fun f hfault => ?fault⟩
  case long64 =>
    obtain ⟨v, rfl⟩ := exec_next i s t hnext
    exact nextRip_long64 s _ hmode
  case short =>
    obtain ⟨v, rfl⟩ := exec_next i s t hnext
    exact toNat_nextRip_short s _ hmode
  case fault =>
    obtain ⟨x, hx⟩ := exec_fault i s f hfault
    exact raise_after_rip x s f hx

/-! ## The invariant -/

/-- Where `MAX_VL = 256`, what completes is a VEX form, which names one of the first sixteen registers. -/
theorem exec_next_vex (i : Instr) (s t : State) (hmax : s.maxVl = 256) (h : exec i s = .next t) :
    (instrDest i).toNat < 16 ∧ (instrVecLen i).bits ≤ 256 := by
  have hf : s.params.features.avx512f = false := by
    cases hf : s.params.features.avx512f with
    | false => rfl
    | true => simp [State.maxVl, hf] at hmax
  rcases exec_view i with ⟨o, ho, _, _, hlen⟩ | ⟨o, ho, _⟩
  · have hdest : instrDest i = vexNumber o.dest := by simp only [instrDest, ho]
    have hlt := o.dest.isLt
    refine ⟨?_, ?_⟩
    · rw [hdest, vexNumber, BitVec.toNat_setWidth]
      omega
    · cases hvl : instrVecLen i with
      | v128 => decide
      | v256 => decide
      | v512 => exact absurd hvl hlen
  · have hevex : instrIsEvex i = true := by rw [instrIsEvex, ho]; rfl
    exact nomatch (missingFeatureRaisesUd i s (.inr (.inl ⟨hevex, hf⟩))).symm.trans h

/-- The registers that do not exist stay zero. -/
theorem exec_next_registers (i : Instr) (s t : State) (hmax : s.maxVl = 256) (h : exec i s = .next t)
    (hregs : ∀ n : EvexReg, (n.toNat < 16 → (s.vec n).extractLsb' 256 256 = 0#256) ∧ (16 ≤ n.toNat → s.vec n = 0))
    (n : EvexReg) : (n.toNat < 16 → (t.vec n).extractLsb' 256 256 = 0#256) ∧ (16 ≤ n.toNat → t.vec n = 0) := by
  by_cases hn : n = instrDest i
  · obtain ⟨hdest, hbits⟩ := exec_next_vex i s t hmax h
    subst hn
    refine ⟨fun _ => BitVec.eq_of_getLsbD_eq fun b _ => ?_, fun hge => absurd hge (not_le.mpr hdest)⟩
    rw [BitVec.getLsbD_extractLsb', upperBitsZeroed i s t h (256 + b) (hbits.trans (Nat.le_add_right _ _)), Bool.and_false,
      BitVec.getLsbD_zero]
  · obtain ⟨v, rfl⟩ := exec_next i s t h
    have hkept := State.vec_setVec_other s (instrDest i) v n hn
    exact ⟨fun hlt => hkept ▸ (hregs n).1 hlt, fun hge => hkept ▸ (hregs n).2 hge⟩

/-- The program counter after an instruction has 32 bits outside `Long64`. -/
theorem nextRip_upper (s : State) (len : Nat) (h : s.mode ≠ .long64) : (s.nextRip len).extractLsb' 32 32 = 0#32 := by
  apply BitVec.eq_of_toNat_eq
  rw [BitVec.extractLsb'_toNat, toNat_nextRip_short s len h, Nat.shiftRight_eq_div_pow,
    Nat.div_eq_of_lt (Nat.mod_lt _ (by decide))]
  rfl

theorem exec_keeps_inv (i : Instr) (s t : State) (hinv : s.Inv) (h : exec i s = .next t) : t.Inv := by
  obtain ⟨hmem, hreserved, hregs, _, hfeatures⟩ := hinv
  have hregs' := fun hmax => exec_next_registers i s t hmax h (hregs hmax)
  obtain ⟨v, rfl⟩ := exec_next i s t h
  exact ⟨hmem, (mxcsrReserved_orFlags _ _).trans hreserved, hregs', nextRip_upper s _, hfeatures⟩

/-- Settles O58: a step that goes on ran an instruction, and an instruction keeps the invariant part by part. -/
theorem stepKeepsMachineInvariant : Obligations.StepKeepsMachineInvariant := by
  intro s t hinv hstep
  obtain ⟨i, _, hexec⟩ := step_next s t hstep
  exact exec_keeps_inv i s t hinv hexec

/-- Settles O57: with `AVX512F`, `MAX_VL` is 512 at reset; the other parts are read off the reset state. -/
theorem resetMeetsMachineInvariant : Obligations.ResetMeetsMachineInvariant := by
  have hmax : State.reset.maxVl = 512 := rfl
  exact ⟨State.reset_mem_wf, by decide, fun h => (nomatch hmax.symm.trans h), fun _ => by decide, fun _ => rfl⟩

/-! ## Runs -/

theorem run_at_stop (stop : Quad) (n : Nat) (s : State) (h : s.rip = stop) : run stop n s = .ended s := by
  cases n <;> exact if_pos h

theorem run_zero (stop : Quad) (s : State) (h : s.rip ≠ stop) : run stop 0 s = .running s := if_neg h

/-- A run that is not at its end address goes on with the step. -/
theorem run_succ (stop : Quad) (n : Nat) (s : State) (h : s.rip ≠ stop) :
    run stop (n + 1) s =
      match step s with
      | .next t => run stop n t
      | .fault f => .faulted f
      | .refused q => .refused q := if_neg h

/-- A run that has ended keeps its end with more steps, and at the end address `pc` equals it. -/
theorem run_end_stable (stop : Quad) (n : Nat) (s : State) (hend : ∀ t, run stop n s ≠ .running t) (m : Nat) (hm : n ≤ m) :
    run stop m s = run stop n s ∧ ∀ t, run stop n s = .ended t → t.rip = stop := by
  induction n generalizing m s with
  | zero =>
    by_cases hs : s.rip = stop
    · rw [run_at_stop stop m s hs, run_at_stop stop 0 s hs]
      exact ⟨rfl, fun t ht => Progress.ended.inj ht ▸ hs⟩
    · exact absurd (run_zero stop s hs) (hend s)
  | succ n ih =>
    by_cases hs : s.rip = stop
    · rw [run_at_stop stop m s hs, run_at_stop stop (n + 1) s hs]
      exact ⟨rfl, fun t ht => Progress.ended.inj ht ▸ hs⟩
    · obtain ⟨m, rfl⟩ : ∃ k, m = k + 1 := ⟨m - 1, by omega⟩
      rw [run_succ stop n s hs] at hend ⊢
      rw [run_succ stop m s hs]
      cases hstep : step s with
      | next t =>
        rw [hstep] at hend
        exact ih t hend m (by omega)
      | fault f => exact ⟨rfl, fun t (ht : Progress.faulted f = .ended t) => Progress.noConfusion ht⟩
      | refused q => exact ⟨rfl, fun t (ht : Progress.refused q = .ended t) => Progress.noConfusion ht⟩

/-- Settles O59: the equations of `run`, and that its ends are stable. -/
theorem runEndsAtEndAddress : Obligations.RunEndsAtEndAddress := by
  intro stop s
  refine ⟨fun n h => run_at_stop stop n s h, fun hs => ⟨run_zero stop s hs, fun n => ⟨fun t h => ?_, fun x h => ?_,
    fun q h => ?_⟩⟩, fun n m hm hend => run_end_stable stop n s hend m hm⟩
  all_goals rw [run_succ stop n s hs, h]

end Sys2Proof.Machine
end


section
/-! Proofs/Results.lean: completion with the results of each form (41_vfmsubadd_vex.md rules R100 to R106,
42_vfmsubadd_evex.md rules R110 to R124), and without an active element (20_memory.md rule R38). All of them read off the
last steps of `exec_of_source`. -/

namespace Sys2Proof.Machine

/-! ## No exception -/

theorem instrTraps_eq_false (s : State) (i : Instr)
    (h : ∀ j, j < (instrVecLen i).elements → s.instrActive i j = true → s.traps (s.instrElement i j) = false) :
    s.instrTraps i = false := by
  rw [State.instrTraps, Bool.and_eq_false_iff]
  refine .inr (List.any_eq_false.mpr fun j hj => ?_)
  cases ha : s.instrActive i j
  · simp
  · simp [h j (List.mem_range.mp hj) ha]

theorem instrTraps_of_rounding (s : State) (i : Instr) (h : (instrRounding i).isSome = true) : s.instrTraps i = false := by
  rw [State.instrTraps, ← Option.not_isSome, h]
  rfl

/-! ## The completions of Safety.lean -/

/-- A VEX form with no unmasked exception completes as rule R100 step 5 describes. -/
theorem vexCompletes_of_available (i : Instr) (o : VexOperands) (s : State) (ho : instrOperands i = .inl o)
    (hlen : instrLength i = vexLength o) (havailable : s.vexAvailable = true)
    (hreadable : s.vexReadable (instrVecLen i) o = true)
    (htraps : ∀ j, j < (instrVecLen i).elements → s.traps (s.instrElement i j) = false) :
    VexCompletes s (instrVecLen i) o (s.instrElement i) (exec i s) := by
  obtain ⟨hgates, hts⟩ := vexAvailable_gates s havailable
  have hud : s.instrDisabled i = false := by simpa only [State.instrDisabled, ho] using hgates
  obtain ⟨s3, hs3⟩ := (instrReadable_iff s i).mp (by simpa only [State.instrReadable, ho] using hreadable)
  have hrounding : instrRounding i = none := by simp only [instrRounding, ho]
  have hdest : instrDest i = vexNumber o.dest := by simp only [instrDest, ho]
  have hnew := element_newElement (instrVecLen i) (s.instrControls i) (s.instrActive i) (s.vec (instrDest i)) (s.instrElement i)
  rw [exec_of_source i s s3 hud hts hs3, lastSteps_of_not_traps s i (instrTraps_eq_false s i fun j hj _ => htraps j hj),
    hrounding, hlen]
  rw [hdest, instrActive_vex s i o ho] at hnew ⊢
  exact ⟨_, rfl, fun j hj => (hnew j).1 hj, fun j => (hnew j).2⟩

/-- An EVEX form that raises no SIMD floating-point exception completes as rule R110 step 7 describes. -/
theorem evexCompletes_of_available (i : Instr) (o : EvexOperands EvexRm512) (rc : RoundingMode) (s : State)
    (ho : instrOperands i = .inr o) (hlen : instrLength i = evexLength o) (hrc : s.evexRounding o.src3 = rc)
    (havailable : s.evexAvailable (instrVecLen i) = true) (hmask : maskWellFormed o.aaa o.z = true)
    (hreadable : s.evexReadable (instrVecLen i) o = true) (htraps : s.instrTraps i = false) :
    EvexCompletes s (instrVecLen i) o
      (s.formFma (instrForm i) rc (element (s.vec o.dest)) (element (s.vec o.src2)) (s.evexSource (instrVecLen i) o))
      (exec i s) := by
  obtain ⟨hgates, hts⟩ := evexAvailable_gates s (instrVecLen i) o.aaa o.z havailable hmask
  have hud : s.instrDisabled i = false := by simpa only [State.instrDisabled, ho] using hgates
  obtain ⟨s3, hs3⟩ := (instrReadable_iff s i).mp (by simpa only [State.instrReadable, ho] using hreadable)
  have hrounding : instrRounding i = embeddedRounding o.src3 := by simp only [instrRounding, ho]
  have hdest : instrDest i = o.dest := by simp only [instrDest, ho]
  have hzeroing : (s.instrControls i).zeroing = o.z := by simp only [State.instrControls, ho]
  have helement : s.instrElement i =
      s.formFma (instrForm i) rc (element (s.vec o.dest)) (element (s.vec o.src2)) (s.evexSource (instrVecLen i) o) := by
    simp only [State.instrElement, ho, hrc]
  have hnew := element_newElement (instrVecLen i) (s.instrControls i) (s.instrActive i) (s.vec (instrDest i)) (s.instrElement i)
  rw [exec_of_source i s s3 hud hts hs3, lastSteps_of_not_traps s i htraps, hrounding, hlen]
  rw [hdest, instrActive_evex s i o ho, helement] at hnew ⊢
  rw [hzeroing] at hnew
  exact ⟨_, rfl, fun j hj => (hnew j).1 hj, fun j => (hnew j).2⟩

/-! ## The VEX forms (rules R101 to R106) -/

/-- Settles O29: the general completion at each of the three operand orders. -/
theorem vex128Result : Obligations.Vex128Result := fun o s havailable hreadable =>
  ⟨vexCompletes_of_available (.vfmsubadd132pdVex128 o) o s rfl rfl havailable hreadable,
    vexCompletes_of_available (.vfmsubadd213pdVex128 o) o s rfl rfl havailable hreadable,
    vexCompletes_of_available (.vfmsubadd231pdVex128 o) o s rfl rfl havailable hreadable⟩

/-- Settles O30: the general completion at each of the three operand orders. -/
theorem vex256Result : Obligations.Vex256Result := fun o s havailable hreadable =>
  ⟨vexCompletes_of_available (.vfmsubadd132pdVex256 o) o s rfl rfl havailable hreadable,
    vexCompletes_of_available (.vfmsubadd213pdVex256 o) o s rfl rfl havailable hreadable,
    vexCompletes_of_available (.vfmsubadd231pdVex256 o) o s rfl rfl havailable hreadable⟩

/-! ## The EVEX forms (rules R116 to R124) -/

theorem evexRounding_of_none (s : State) (rm : EvexRm512) (h : embeddedRounding rm = none) :
    s.evexRounding rm = mxcsrRounding s.mxcsr := by rw [State.evexRounding, h, Option.getD_none]

/-- An EVEX form without embedded rounding, with `MXCSR.RC`. -/
theorem evexCompletes_of_mxcsr (i : Instr) (o : EvexOperands EvexRm512) (s : State) (ho : instrOperands i = .inr o)
    (hlen : instrLength i = evexLength o) (hrounding : embeddedRounding o.src3 = none)
    (havailable : s.evexAvailable (instrVecLen i) = true) (hmask : maskWellFormed o.aaa o.z = true)
    (hreadable : s.evexReadable (instrVecLen i) o = true)
    (htraps : ∀ j, j < (instrVecLen i).elements → s.active o.aaa j = true →
      s.traps (s.formFma (instrForm i) (mxcsrRounding s.mxcsr) (element (s.vec o.dest)) (element (s.vec o.src2))
        (s.evexSource (instrVecLen i) o) j) = false) :
    EvexCompletes s (instrVecLen i) o
      (s.formFma (instrForm i) (mxcsrRounding s.mxcsr) (element (s.vec o.dest)) (element (s.vec o.src2))
        (s.evexSource (instrVecLen i) o)) (exec i s) := by
  have hrc := evexRounding_of_none s o.src3 hrounding
  refine evexCompletes_of_available i o _ s ho hlen hrc havailable hmask hreadable (instrTraps_eq_false s i fun j hj ha => ?_)
  rw [instrActive_evex s i o ho] at ha
  simpa only [State.instrElement, ho, hrc] using htraps j hj ha

/-- Settles O31: a 128-bit form has no embedded rounding. -/
theorem evex128Result : Obligations.Evex128Result := by
  intro p s o havailable hmask hreadable
  have hrounding : embeddedRounding o.src3 = none := embeddedRounding_widenRm p.src3
  exact ⟨evexCompletes_of_mxcsr (.vfmsubadd132pdEvex128 p) o s rfl rfl hrounding havailable hmask hreadable,
    evexCompletes_of_mxcsr (.vfmsubadd213pdEvex128 p) o s rfl rfl hrounding havailable hmask hreadable,
    evexCompletes_of_mxcsr (.vfmsubadd231pdEvex128 p) o s rfl rfl hrounding havailable hmask hreadable⟩

/-- Settles O32: a 256-bit form has no embedded rounding. -/
theorem evex256Result : Obligations.Evex256Result := by
  intro p s o havailable hmask hreadable
  have hrounding : embeddedRounding o.src3 = none := embeddedRounding_widenRm p.src3
  exact ⟨evexCompletes_of_mxcsr (.vfmsubadd132pdEvex256 p) o s rfl rfl hrounding havailable hmask hreadable,
    evexCompletes_of_mxcsr (.vfmsubadd213pdEvex256 p) o s rfl rfl hrounding havailable hmask hreadable,
    evexCompletes_of_mxcsr (.vfmsubadd231pdEvex256 p) o s rfl rfl hrounding havailable hmask hreadable⟩

/-- Settles O33: the general completion at each of the three operand orders. -/
theorem evex512Result : Obligations.Evex512Result := fun o s hrounding havailable hmask hreadable =>
  ⟨evexCompletes_of_mxcsr (.vfmsubadd132pdEvex512 o) o s rfl rfl hrounding havailable hmask hreadable,
    evexCompletes_of_mxcsr (.vfmsubadd213pdEvex512 o) o s rfl rfl hrounding havailable hmask hreadable,
    evexCompletes_of_mxcsr (.vfmsubadd231pdEvex512 o) o s rfl rfl hrounding havailable hmask hreadable⟩

/-! ## Embedded rounding (rule R114) -/

/-- Under embedded rounding `MXCSR` is not written. -/
theorem mxcsr_of_evexCompletes (s t : State) (vl : VecLen) (o : EvexOperands EvexRm512) (e : Nat → FmaResult) (r : Result)
    (hsae : (embeddedRounding o.src3).isSome = true) (h : EvexCompletes s vl o e r) (hr : r = .next t) :
    t.mxcsr = s.mxcsr := by
  obtain ⟨v, hv, _⟩ := h
  obtain rfl := Host.Outcome.next.inj (hr.symm.trans hv)
  exact if_pos hsae

/-- A register form with embedded rounding completes whatever its elements raise. -/
theorem evexCompletes_of_rounded (i : Instr) (o : EvexOperands EvexRm512) (n : EvexReg) (rc : RoundingMode) (s : State)
    (ho : instrOperands i = .inr o) (hlen : instrLength i = evexLength o) (hsrc : o.src3 = .regRounded n rc)
    (havailable : s.evexAvailable (instrVecLen i) = true) (hmask : maskWellFormed o.aaa o.z = true) :
    EvexCompletes s (instrVecLen i) o
      (s.formFma (instrForm i) rc (element (s.vec o.dest)) (element (s.vec o.src2)) (element (s.vec n))) (exec i s) := by
  have hsource : s.evexSource (instrVecLen i) o = element (s.vec n) := by
    funext j
    simp only [State.evexSource, hsrc]
  have hrounding : (instrRounding i).isSome = true := by simp only [instrRounding, ho, hsrc, embeddedRounding, Option.isSome_some]
  rw [← hsource]
  exact evexCompletes_of_available i o rc s ho hlen (by simp only [State.evexRounding, hsrc, embeddedRounding, Option.getD_some])
    havailable hmask (by simp only [State.evexReadable, hsrc]) (instrTraps_of_rounding s i hrounding)

/-- Settles O34: under embedded rounding nothing traps, and the completion leaves `MXCSR` as it was. -/
theorem embeddedRoundingResult : Obligations.EmbeddedRoundingResult := by
  intro o n rc s hsrc havailable hmask
  have hsae : (embeddedRounding o.src3).isSome = true := by rw [hsrc]; rfl
  have h132 := evexCompletes_of_rounded (.vfmsubadd132pdEvex512 o) o n rc s rfl rfl hsrc havailable hmask
  have h213 := evexCompletes_of_rounded (.vfmsubadd213pdEvex512 o) o n rc s rfl rfl hsrc havailable hmask
  have h231 := evexCompletes_of_rounded (.vfmsubadd231pdEvex512 o) o n rc s rfl rfl hsrc havailable hmask
  exact ⟨h132, h213, h231, fun t => mxcsr_of_evexCompletes s t _ o _ _ hsae h132,
    fun t => mxcsr_of_evexCompletes s t _ o _ _ hsae h213, fun t => mxcsr_of_evexCompletes s t _ o _ _ hsae h231⟩

/-! ## No active element (20_memory.md rule R38) -/

theorem instrReadable_of_no_active (s : State) (i : Instr)
    (h : ∀ j, j < (instrVecLen i).elements → s.instrActive i j = false) : s.instrReadable i = true := by
  cases ho : instrOperands i with
  | inl o =>
    have h0 := h 0 (elements_pos _)
    rw [instrActive_vex s i o ho] at h0
    exact absurd h0 (by decide)
  | inr o =>
    rw [instrActive_evex s i o ho] at h
    simp only [State.instrReadable, State.evexReadable, ho]
    cases o.src3 with
    | reg n => rfl
    | regRounded n rc => rfl
    | mem a => exact List.all_eq_true.mpr fun j hj => by simp [h j (List.mem_range.mp hj)]
    | bcast a => exact List.all_eq_true.mpr fun j hj => by simp [h j (List.mem_range.mp hj)]

theorem flagsBelow_of_no_active (n : Nat) (active : Nat → Bool) (e : Nat → FmaResult) (h : ∀ j, j < n → active j = false) :
    flagsBelow n active e = 0#6 := by
  refine BitVec.eq_of_getLsbD_eq fun b _ => ?_
  rw [getLsbD_flagsBelow, BitVec.getLsbD_zero]
  exact List.any_eq_false.mpr fun j hj => by simp [h j (List.mem_range.mp hj)]

theorem element_zero (j : Nat) : element 0#512 j = 0#64 := BitVec.extractLsb'_zero

/-- The low `vl` bits of a vector, by element. -/
theorem element_and_low (v : Vec) (vl : VecLen) (j : Nat) (hj : j < 8) :
    element (v &&& BitVec.ofNat 512 (2 ^ vl.bits - 1)) j = if j < vl.elements then element v j else 0 := by
  refine BitVec.eq_of_getLsbD_eq fun b hb => ?_
  have hbits : vl.bits = 64 * vl.elements := by cases vl <;> rfl
  rw [getLsbD_element, BitVec.getLsbD_and, BitVec.getLsbD_ofNat, Nat.testBit_two_pow_sub_one, hbits]
  split
  · have hlt : 64 * j + b < 64 * vl.elements := by omega
    have h512 : 64 * j + b < 512 := by omega
    simp [getLsbD_element, hlt, h512]
  · have hlt : ¬ 64 * j + b < 64 * vl.elements := by omega
    simp [hlt]

/-- Settles O35: with no active element nothing is read and nothing traps; the destination is read off element by element. -/
theorem zeroMaskReadsNothing : Obligations.ZeroMaskReadsNothing := by
  intro i s hwf havailable hactive
  rw [exec_of_available i s hwf havailable (instrReadable_of_no_active s i hactive),
    lastSteps_of_not_traps s i (instrTraps_eq_false s i fun j hj ha => absurd ha (by simp [hactive j hj])),
    flagsBelow_of_no_active _ _ _ hactive, orFlags_zero, ite_self]
  refine ⟨_, rfl, rfl, rfl, fun o ho => ?_⟩
  have hdest : instrDest i = o.dest := by simp only [instrDest, ho]
  have hzeroing : (s.instrControls i).zeroing = o.z := by simp only [State.instrControls, ho]
  have hnew := element_newElement (instrVecLen i) (s.instrControls i) (s.instrActive i) (s.vec (instrDest i)) (s.instrElement i)
  rw [hdest] at hnew ⊢
  refine Eq.trans (State.vec_setVec_same s o.dest _) (vec_ext _ _ fun j hj => ?_)
  by_cases hlt : j < (instrVecLen i).elements
  · rw [(hnew j).1 hlt, hactive j hlt, hzeroing]
    cases o.z
    · simp [element_and_low _ _ j hj, hlt]
    · simp [element_zero]
  · rw [(hnew j).2 (Nat.le_of_not_lt hlt) hj]
    cases o.z
    · simp [element_and_low _ _ j hj, hlt]
    · simp [element_zero]

end Sys2Proof.Machine
end


section
/-! Proofs/MemoryOperand.lean: the bytes of a memory operand that are read (20_memory.md rules R33, R38), what stops the read
(60_exceptions.md rules R138, R140), and what a fault leaves in the state (rules R141, R142). -/

namespace Sys2Proof.Machine

/-! ## The operand that is read -/

/-- The numbers of the bytes that the instruction reads, in the order of the reads. -/
def State.readBytes (s : State) (i : Instr) : List Nat :=
  if instrBroadcast i then
    if (activeElements (instrVecLen i) (s.instrActive i)).isEmpty then [] else quadBytes [0]
  else quadBytes ((activeElements (instrVecLen i) (s.instrActive i)).map (8 * ·))

theorem mem_readBytes (s : State) (i : Instr) (b : Nat) : b ∈ s.readBytes i ↔ s.readsByte i b = true := by
  rw [State.readBytes, State.readsByte]
  cases instrBroadcast i
  · simp only [Bool.false_eq_true, if_false, Bool.and_eq_true, decide_eq_true_eq]
    exact mem_wholeBytes _ _ b
  · simp only [if_true, Bool.and_eq_true, decide_eq_true_eq]
    exact mem_broadcastBytes _ _ b

/-- The register of `SRC3`; of no meaning in a memory form. -/
def instrSrc3 (i : Instr) : EvexReg :=
  match instrOperands i with
  | .inl o =>
    match o.src3 with
    | .reg n => vexNumber n
    | .mem _ => 0
  | .inr o =>
    match o.src3 with
    | .reg n => n
    | .regRounded n _ => n
    | .mem _ => 0
    | .bcast _ => 0

theorem instrSource_register (s : State) (i : Instr) (h : instrAddress i = none) :
    s.instrSource i = .value (s.vec (instrSrc3 i)) := by
  cases ho : instrOperands i with
  | inl o =>
    simp only [State.instrSource, State.readVexSource, instrSrc3, instrAddress, ho] at h ⊢
    cases hsrc : o.src3 <;> simp_all
  | inr o =>
    simp only [State.instrSource, State.readEvexSource, instrSrc3, instrAddress, ho] at h ⊢
    cases hsrc : o.src3 <;> simp_all

/-- A memory operand at its location, whole or broadcast. -/
theorem instrSource_memory (s : State) (i : Instr) (a : AddrForm) (h : instrAddress i = some a) :
    s.instrSource i =
      if instrBroadcast i then
        s.readBroadcast (s.instrLocation i a) (s.segmentFault (instrPrefixes i) a) (instrVecLen i) (s.instrActive i)
      else s.readWhole (s.instrLocation i a) (s.segmentFault (instrPrefixes i) a) (instrVecLen i) (s.instrActive i) := by
  rcases exec_view i with ⟨o, ho, _, hlen, _⟩ | ⟨o, ho, _, hlen⟩
  · rw [instrActive_vex s i o ho]
    simp only [State.instrSource, State.readVexSource, instrAddress, instrBroadcast, State.instrLocation, instrPrefixes,
      instrScale, hlen, ho] at h ⊢
    cases hsrc : o.src3 <;> simp_all
  · rw [instrActive_evex s i o ho]
    simp only [State.instrSource, State.readEvexSource, instrAddress, instrBroadcast, State.instrLocation, instrPrefixes,
      instrScale, hlen, ho] at h ⊢
    cases hsrc : o.src3 <;> simp_all

/-- What stops the read of the bytes of a memory operand. -/
def State.operandStop (s : State) (i : Instr) (a : AddrForm) : Option Result :=
  s.readStop (s.instrLocation i a) (s.segmentFault (instrPrefixes i) a) (s.readBytes i)

/-- Reading a memory operand ends the step exactly where something stops the read of its bytes. -/
theorem instrSource_of_operandStop (s : State) (i : Instr) (a : AddrForm) (h : instrAddress i = some a) :
    (∀ r, s.operandStop i a = some r → s.instrSource i = .stops r) ∧
      (s.operandStop i a = none → ∃ v, s.instrSource i = .value v) := by
  rw [instrSource_memory s i a h, State.operandStop, State.readBytes]
  cases instrBroadcast i
  · simp only [Bool.false_eq_true, if_false, State.readWhole]
    exact ⟨fun r hr => by rw [hr], fun hn => ⟨_, by rw [hn]⟩⟩
  · simp only [if_true, State.readBroadcast]
    exact ⟨fun r hr => by rw [hr], fun hn => ⟨_, by rw [hn]⟩⟩

theorem exec_of_stops (i : Instr) (s : State) (r : Result) (hud : s.instrDisabled i = false) (hts : s.cr0TS = false)
    (h : s.instrSource i = .stops r) : exec i s = r := by
  rw [exec_eq, hud, hts, if_neg Bool.false_ne_true, if_neg Bool.false_ne_true, h, State.afterRead_stops]

/-- What stops the read of its operand is the outcome of a well-formed, available instruction. -/
theorem exec_of_operandStop (i : Instr) (s : State) (a : AddrForm) (r : Result) (hwf : i.wellFormed = true)
    (havailable : s.instrAvailable i = true) (h : instrAddress i = some a) (hstop : s.operandStop i a = some r) :
    exec i s = r := by
  obtain ⟨hud, hts⟩ := (instrAvailable_iff s i hwf).mp havailable
  exact exec_of_stops i s r hud hts ((instrSource_of_operandStop s i a h).1 r hstop)

/-! ## What stops a read, in its order (60_exceptions.md rule R140) -/

section ReadStop

variable (s : State) (l : Location) (f : Exception) (bytes : List Nat)

theorem readStop_of_illegal (b : Nat) (hb : b ∈ bytes) (h : s.byteLegal l b = false) :
    s.readStop l f bytes = some (raise f s) :=
  if_pos (List.any_eq_true.mpr ⟨b, hb, by rw [h]; rfl⟩)

theorem readStop_of_legal (h : ∀ b ∈ bytes, s.byteLegal l b = true) :
    s.readStop l f bytes =
      match bytes.findSome? (s.bytePageFault l) with
      | some x => some (raise x s)
      | none => if bytes.any (s.byteDevice l) then some (.refused .readSideEffects) else none :=
  if_neg fun hany => by
    obtain ⟨b, hb, hnot⟩ := List.any_eq_true.mp hany
    simp [h b hb] at hnot

theorem bytePageFault_eq_some (b : Nat) (x : Exception) :
    s.bytePageFault l b = some x ↔ ∃ code, s.translate .read (s.byteLinear l b) = .faults code ∧ x = .pf code (s.byteLinear l b) := by
  rw [State.bytePageFault]
  cases s.translate .read (s.byteLinear l b) <;> simp [eq_comm]

/-- Of the bytes that `Translate` refuses, one is reported, with its own code. -/
theorem readStop_of_pageFault (hlegal : ∀ b ∈ bytes, s.byteLegal l b = true) (b : Nat) (code : BitVec 32) (hb : b ∈ bytes)
    (h : s.translate .read (s.byteLinear l b) = .faults code) :
    ∃ b' ∈ bytes, ∃ code', s.translate .read (s.byteLinear l b') = .faults code' ∧
      s.readStop l f bytes = some (raise (.pf code' (s.byteLinear l b')) s) := by
  rw [readStop_of_legal s l f bytes hlegal]
  cases hfirst : bytes.findSome? (s.bytePageFault l) with
  | none =>
    have hnone := List.findSome?_eq_none_iff.mp hfirst b hb
    rw [(bytePageFault_eq_some s l b _).mpr ⟨code, h, rfl⟩] at hnone
    cases hnone
  | some x =>
    obtain ⟨b', hb', hx⟩ := List.exists_of_findSome?_eq_some hfirst
    obtain ⟨code', htr, rfl⟩ := (bytePageFault_eq_some s l b' x).mp hx
    exact ⟨b', hb', code', htr, rfl⟩

theorem readStop_of_device
    (hread : ∀ b ∈ bytes, s.byteLegal l b = true ∧ ∀ code, s.translate .read (s.byteLinear l b) ≠ .faults code)
    (b : Nat) (hb : b ∈ bytes) (h : s.translate .read (s.byteLinear l b) = .device) :
    s.readStop l f bytes = some (.refused .readSideEffects) := by
  have hnone : bytes.findSome? (s.bytePageFault l) = none :=
    List.findSome?_eq_none_iff.mpr fun b' hb' => Option.eq_none_iff_forall_ne_some.mpr fun x hx => by
      obtain ⟨code, htr, _⟩ := (bytePageFault_eq_some s l b' x).mp hx
      exact (hread b' hb').2 code htr
  have hdevice : s.byteDevice l b = true := by rw [State.byteDevice, h]; rfl
  rw [readStop_of_legal s l f bytes fun b' hb' => (hread b' hb').1, hnone]
  exact if_pos (List.any_eq_true.mpr ⟨b, hb, hdevice⟩)

end ReadStop

/-! ## Legal addresses (20_memory.md rule R45) -/

theorem byteLegal_long64 (s : State) (l : Location) (b : Nat) (h : s.mode = .long64) :
    s.byteLegal l b = canonical s.params.linearBits (s.byteLinear l b) := by rw [State.byteLegal, h]

theorem byteLegal_short (s : State) (l : Location) (b : Nat) (h : s.mode ≠ .long64) :
    s.byteLegal l b =
      ((s.segment l.seg).readable && decide ((s.byteOffset l b).toNat ≤ (s.segment l.seg).limit.toNat)) := by
  rw [State.byteLegal]
  cases hm : s.mode
  · exact absurd hm h
  · rfl
  · rfl

theorem raise_segmentFault_long64 (s : State) (pre : Prefixes) (a : AddrForm) (h : s.mode = .long64) :
    raise (s.segmentFault pre a) s =
      .fault (if pre.seg = none ∧ stackBase a = true then .stackSegment s else .generalProtection s) := by
  rw [State.segmentFault, h]
  dsimp only
  split <;> rfl

theorem raise_segmentFault_short (s : State) (pre : Prefixes) (a : AddrForm) (h : s.mode ≠ .long64) :
    raise (s.segmentFault pre a) s = .fault (if operandSegment pre a = .ss then .stackSegment s else .generalProtection s) := by
  have heq : s.segmentFault pre a = if operandSegment pre a = .ss then .ss else .gp := by
    rw [State.segmentFault]
    cases hm : s.mode
    · exact absurd hm h
    · rfl
    · rfl
  rw [heq]
  split <;> rfl

/-! ## No fault of the operand -/

/-- The last steps complete, or raise the SIMD floating-point exception. -/
theorem lastSteps_not_operand_fault (s : State) (i : Instr) (t : State) (code : BitVec 32) :
    s.lastSteps i (s.instrElement i) ≠ .fault (.stackSegment t) ∧
      s.lastSteps i (s.instrElement i) ≠ .fault (.generalProtection t) ∧
      s.lastSteps i (s.instrElement i) ≠ .fault (.pageFault code t) := by
  cases htraps : s.instrTraps i
  · rw [lastSteps_of_not_traps s i htraps]
    exact ⟨nofun, nofun, nofun⟩
  · rw [lastSteps_of_traps s i htraps, raise]
    split <;> exact ⟨nofun, nofun, nofun⟩

theorem exec_not_operand_fault (i : Instr) (s : State) (hwf : i.wellFormed = true) (havailable : s.instrAvailable i = true)
    (hsource : ∃ v, s.instrSource i = .value v) (t : State) (code : BitVec 32) :
    exec i s ≠ .fault (.stackSegment t) ∧ exec i s ≠ .fault (.generalProtection t) ∧
      exec i s ≠ .fault (.pageFault code t) := by
  rw [exec_of_available i s hwf havailable ((instrReadable_iff s i).mpr hsource)]
  exact lastSteps_not_operand_fault s i t code

/-- Settles O20: the outcome of an available memory form is what stops the read of its bytes, in the order of `readStop`. -/
theorem memoryOperandFaults : Obligations.MemoryOperandFaults := by
  intro i s hwf havailable
  refine ⟨fun a ha => ⟨fun b hb hmode hcanonical => ?canonical, fun b hb hmode hlimit => ?limit,
    fun b code hb hlegal hfaults => ?page, fun b hb hread hdevice => ?device, fun hreadable => ?readable⟩, fun hnone => ?register⟩
  case canonical =>
    rw [← raise_segmentFault_long64 s (instrPrefixes i) a hmode]
    refine exec_of_operandStop i s a _ hwf havailable ha
      (readStop_of_illegal s _ _ _ b ((mem_readBytes s i b).mpr hb) ?_)
    rw [byteLegal_long64 s _ b hmode, hcanonical]
  case limit =>
    rw [← raise_segmentFault_short s (instrPrefixes i) a hmode]
    refine exec_of_operandStop i s a _ hwf havailable ha
      (readStop_of_illegal s _ _ _ b ((mem_readBytes s i b).mpr hb) ?_)
    have hseg : (s.instrLocation i a).seg = operandSegment (instrPrefixes i) a := rfl
    rw [byteLegal_short s _ b hmode, hseg, Bool.and_eq_false_iff, decide_eq_false_iff_not, Nat.not_le]
    exact hlimit
  case page =>
    obtain ⟨b', hb', code', htr, hstop⟩ := readStop_of_pageFault s (s.instrLocation i a) (s.segmentFault (instrPrefixes i) a)
      (s.readBytes i) (fun c hc => hlegal c ((mem_readBytes s i c).mp hc)) b code ((mem_readBytes s i b).mpr hb) hfaults
    exact ⟨b', code', (mem_readBytes s i b').mp hb', htr, exec_of_operandStop i s a _ hwf havailable ha hstop⟩
  case device =>
    exact exec_of_operandStop i s a _ hwf havailable ha (readStop_of_device s _ _ _
      (fun c hc => hread c ((mem_readBytes s i c).mp hc)) b ((mem_readBytes s i b).mpr hb) hdevice)
  case readable =>
    refine exec_not_operand_fault i s hwf havailable ((instrSource_of_operandStop s i a ha).2 ?_)
    exact (readStop_none s _ _ _).mpr fun b hb => hreadable b ((mem_readBytes s i b).mp hb)
  case register => exact exec_not_operand_fault i s hwf havailable ⟨_, instrSource_register s i hnone⟩

/-! ## What a fault leaves (rules R141, R142) -/

/-- Where #XM is raised, nothing of the instruction was stopped before its last steps. -/
theorem exec_simdFault_reached (i : Instr) (s t : State) (h : exec i s = .fault (.simdFloatingPoint t)) :
    s.instrDisabled i = false ∧ s.cr0TS = false ∧ s.instrReadable i = true := by
  cases hud : s.instrDisabled i
  case true => exact nomatch (exec_of_disabled i s hud).symm.trans h
  cases hts : s.cr0TS
  case true => exact nomatch (exec_of_taskSwitched i s hud hts).symm.trans h
  cases hsource : s.instrSource i with
  | stops r =>
    obtain ⟨l, pre, a, bytes, hstop⟩ := instrSource_stops s i r hsource
    rw [exec_of_stops i s r hud hts hsource] at h
    exact absurd (h ▸ hstop) (readStop_ne_simdFault s t l pre a bytes)
  | value s3 => exact ⟨rfl, rfl, (instrReadable_iff s i).mpr ⟨s3, hsource⟩⟩

theorem cr4OSXMMEXCPT_of_simdFault (x : Exception) (s t : State) (h : raise x s = .fault (.simdFloatingPoint t)) :
    s.cr4OSXMMEXCPT = true := by
  obtain ⟨raised, rfl, _⟩ := raise_eq_simdFault x s t h
  rw [raise] at h
  split at h
  · assumption
  · cases h

/-- #XM comes of an instruction: neither the fetch nor the decoder raises it. -/
theorem step_simdFault (s t : State) (h : step s = .fault (.simdFloatingPoint t)) :
    ∃ i, decode s.decodeMode s.fetch = .instr i ∧ exec i s = .fault (.simdFloatingPoint t) := by
  rw [step] at h
  split at h
  · exact ⟨_, by assumption, h⟩
  all_goals cases h

theorem raise_eq_pageFault (x : Exception) (s : State) (code : BitVec 32) (t : State)
    (h : raise x s = .fault (.pageFault code t)) : t = { s with cr2 := t.cr2 } := by
  cases x with
  | pf c a => cases h; rfl
  | simd raised => rw [raise] at h; split at h <;> cases h
  | ud => cases h
  | nm => cases h
  | ss => cases h
  | gp => cases h

/-- A fault other than #PF and #XM leaves the state as it was. -/
theorem raise_eq_unchanged (x : Exception) (s : State) (f : Fault) (h : raise x s = .fault f)
    (hpf : ∀ code t, f ≠ .pageFault code t) (hxm : ∀ t, f ≠ .simdFloatingPoint t) : f.after = s := by
  obtain ⟨g, hg, hafter | ⟨code, a, _, hpage⟩ | ⟨raised, _, _, hsimd⟩⟩ := raise_fault x s
  · rw [Host.Outcome.fault.inj (h.symm.trans hg), hafter]
  · exact absurd ((Host.Outcome.fault.inj (h.symm.trans hg)).trans hpage) (hpf _ _)
  · exact absurd ((Host.Outcome.fault.inj (h.symm.trans hg)).trans hsimd) (hxm _)

/-- Settles O24: a fault is what `raise` answers; #XM comes of the last steps of an instruction that the decoder answered,
which is well formed, and the set it draws lies inside `Raised`. -/
theorem faultLeavesState : Obligations.FaultLeavesState := by
  intro s x h
  obtain ⟨e, he⟩ := step_fault s x h
  cases x with
  | simdFloatingPoint t =>
    obtain ⟨i, hdecode, hexec⟩ := step_simdFault s t h
    obtain ⟨hud, hts, hreadable⟩ := exec_simdFault_reached i s t hexec
    obtain ⟨htraps, rfl⟩ := exec_eq_simdFault i s t hexec
    have hwf : i.wellFormed = true := (decodeReadsOnlyItsLength _ _ i hdecode).1
    refine ⟨rfl, cr4OSXMMEXCPT_of_simdFault e s _ he, i, hdecode, (instrAvailable_iff s i hwf).mpr ⟨hud, hts⟩, hreadable, htraps,
      s.faultFlags i, rfl, fun n hn => ?_⟩
    obtain ⟨j, hj, ha, hraised⟩ := (getLsbD_instrRaised s i n).mp (faultFlags_subset s i n hn)
    exact ⟨j, hj, ha, getLsbD_elementRaised _ _ _ n hraised⟩
  | pageFault code t => exact raise_eq_pageFault e s code t he
  | invalidOpcode t => exact raise_eq_unchanged e s _ he (by simp) (by simp)
  | deviceNotAvailable t => exact raise_eq_unchanged e s _ he (by simp) (by simp)
  | stackSegment t => exact raise_eq_unchanged e s _ he (by simp) (by simp)
  | generalProtection t => exact raise_eq_unchanged e s _ he (by simp) (by simp)

end Sys2Proof.Machine
end


section
/-! Proofs/Noninterference.lean: what an instruction does not read (20_memory.md rules R33, R38; 42_vfmsubadd_evex.md rules
R111, R114; 60_exceptions.md rule R146). `Alike` lists what an instruction reads of a state; a change of the state that keeps
all of it goes through `exec` (`exec_of_alike`), and each statement gives a change that does. -/

namespace Sys2Proof.Machine

/-! ## What an instruction reads -/

/-- The change `f` of the state `s` keeps all that `i` reads, and commutes with its exceptions and its last steps. -/
structure Alike (f : State → State) (s : State) (i : Instr) : Prop where
  /-- The exceptions that come before the last steps. -/
  raises : ∀ x, (∀ g, x ≠ .simd g) → raise x (f s) = mapResult f (raise x s)
  disabled : (f s).instrDisabled i = s.instrDisabled i
  taskSwitched : (f s).cr0TS = s.cr0TS
  active : (f s).instrActive i = s.instrActive i
  controls : (f s).instrControls i = s.instrControls i
  daz : mxcsrDAZ (f s).mxcsr = mxcsrDAZ s.mxcsr
  ftz : mxcsrFTZ (f s).mxcsr = mxcsrFTZ s.mxcsr
  location : (f s).instrLocation i = s.instrLocation i
  segmentFault : (f s).segmentFault = s.segmentFault
  legal : (f s).byteLegal = s.byteLegal
  linear : (f s).byteLinear = s.byteLinear
  translate : (f s).translate = s.translate
  dest : (f s).vec (instrDest i) = s.vec (instrDest i)
  src2 : ∀ j, j < (instrVecLen i).elements → s.instrActive i j = true →
    element ((f s).vec (instrSrc2 i)) j = element (s.vec (instrSrc2 i)) j
  /-- `SRC3` in a register. -/
  src3 : instrAddress i = none → ∀ j, j < (instrVecLen i).elements → s.instrActive i j = true →
    element ((f s).vec (instrSrc3 i)) j = element (s.vec (instrSrc3 i)) j
  /-- `SRC3` in memory. -/
  bytes : ∀ a b, instrAddress i = some a → s.readsByte i b = true →
    (f s).byteValue (s.instrLocation i a) b = s.byteValue (s.instrLocation i a) b
  completes : ∀ e : Nat → FmaResult,
    complete (instrVecLen i) (s.instrControls i) (s.instrActive i) (instrDest i) (s.vec (instrDest i)) e (instrLength i) (f s) =
      mapResult f (complete (instrVecLen i) (s.instrControls i) (s.instrActive i) (instrDest i) (s.vec (instrDest i)) e
        (instrLength i) s)

/-! ## The value that is read -/

theorem readQuad_congr (s t : State) (l : Location) (n : Nat)
    (h : ∀ k, k < 8 → t.byteValue l (n + k) = s.byteValue l (n + k)) : t.readQuad l n = s.readQuad l n := by
  have h0 := h 0 (by decide)
  simp only [Nat.add_zero] at h0
  simp only [State.readQuad, h0, h 1 (by decide), h 2 (by decide), h 3 (by decide), h 4 (by decide), h 5 (by decide),
    h 6 (by decide), h 7 (by decide)]

/-- The offset of element `j` in the memory operand. -/
def elementOffset (i : Instr) (j : Nat) : Nat := if instrBroadcast i then 0 else 8 * j

theorem readsByte_elementOffset (s : State) (i : Instr) (j k : Nat) (hj : j < (instrVecLen i).elements)
    (ha : s.instrActive i j = true) (hk : k < 8) : s.readsByte i (elementOffset i j + k) = true := by
  rw [State.readsByte, elementOffset]
  cases instrBroadcast i
  · have hdiv : (8 * j + k) / 8 = j := by omega
    have hlt : 8 * j + k < (instrVecLen i).bytes := by rw [VecLen.bytes]; omega
    simp [hdiv, ha, hlt]
  · simp only [if_true, Nat.zero_add, Bool.and_eq_true, decide_eq_true_eq, List.any_eq_true, List.mem_range]
    exact ⟨hk, j, hj, ha⟩

/-- An active element of the value that is read from memory. -/
theorem element_of_memory (s : State) (i : Instr) (a : AddrForm) (v : Vec) (h : instrAddress i = some a)
    (hv : s.instrSource i = .value v) (j : Nat) (hj : j < (instrVecLen i).elements) (ha : s.instrActive i j = true) :
    element v j = s.readQuad (s.instrLocation i a) (elementOffset i j) := by
  have h8 := elements_le (instrVecLen i)
  rw [instrSource_memory s i a h] at hv
  rw [elementOffset]
  cases hb : instrBroadcast i <;> rw [hb] at hv
  · simp only [Bool.false_eq_true, if_false, State.readWhole] at hv ⊢
    split at hv
    · cases hv
    · rw [← SourceRead.value.inj hv, element_pack_range _ _ _ (by omega), if_pos hj, if_pos ha]
  · simp only [if_true, State.readBroadcast] at hv ⊢
    split at hv
    · cases hv
    · rw [← SourceRead.value.inj hv, element_pack_range _ _ _ (by omega), if_pos hj]

/-- One element uses the elements of its operands with its number, and nothing else of them (40_fma_element.md rule R82). -/
theorem fmaElement_congr (form : FmaForm) (rc : RoundingMode) (daz ftz : Bool) (d d' s2 s2' s3 s3' : Vec) (j : Nat)
    (hd : element d' j = element d j) (h2 : element s2' j = element s2 j) (h3 : element s3' j = element s3 j) :
    fmaElement form rc daz ftz d' s2' s3' j = fmaElement form rc daz ftz d s2 s3 j := by
  cases form <;> simp only [fmaElement, hd, h2, h3]

section Alike

variable {f : State → State} {s : State} {i : Instr}

theorem readStop_of_alike (h : Alike f s i) (l : Location) (x : Exception) (hx : ∀ g, x ≠ .simd g) (bytes : List Nat) :
    (f s).readStop l x bytes = (s.readStop l x bytes).map (mapResult f) := by
  have hpage : (f s).bytePageFault l = s.bytePageFault l := by
    funext b
    rw [State.bytePageFault, State.bytePageFault, h.translate, h.linear]
  have hdevice : (f s).byteDevice l = s.byteDevice l := by
    funext b
    rw [State.byteDevice, State.byteDevice, h.translate, h.linear]
  rw [State.readStop, State.readStop, h.legal, hpage, hdevice, h.raises x hx]
  split
  · rfl
  · split
    case h_1 y hy =>
      obtain ⟨b, _, hb⟩ := List.exists_of_findSome?_eq_some hy
      obtain ⟨code, _, rfl⟩ := (bytePageFault_eq_some s l b y).mp hb
      rw [h.raises _ (by simp)]
      rfl
    case h_2 => split <;> rfl

theorem operandStop_of_alike (h : Alike f s i) (a : AddrForm) :
    (f s).operandStop i a = (s.operandStop i a).map (mapResult f) := by
  have hbytes : (f s).readBytes i = s.readBytes i := by rw [State.readBytes, State.readBytes, h.active]
  rw [State.operandStop, State.operandStop, hbytes, h.location, h.segmentFault]
  refine readStop_of_alike h _ _ (fun g hg => ?_) _
  rcases segmentFault_cases s (instrPrefixes i) a with hss | hgp
  · exact nomatch hss.symm.trans hg
  · exact nomatch hgp.symm.trans hg

/-- Reading `SRC3` is stopped alike, or gives values that agree in the active elements. -/
theorem instrSource_of_alike (h : Alike f s i) :
    (∃ r, s.instrSource i = .stops r ∧ (f s).instrSource i = .stops (mapResult f r)) ∨
      ∃ v v', s.instrSource i = .value v ∧ (f s).instrSource i = .value v' ∧
        ∀ j, j < (instrVecLen i).elements → s.instrActive i j = true → element v' j = element v j := by
  cases ha : instrAddress i with
  | none => exact .inr ⟨_, _, instrSource_register s i ha, instrSource_register (f s) i ha, h.src3 ha⟩
  | some a =>
    obtain ⟨hstops, hvalue⟩ := instrSource_of_operandStop s i a ha
    obtain ⟨hstops', hvalue'⟩ := instrSource_of_operandStop (f s) i a ha
    rw [operandStop_of_alike h a] at hstops' hvalue'
    cases hstop : s.operandStop i a with
    | some r => exact .inl ⟨r, hstops r hstop, hstops' _ (by rw [hstop]; rfl)⟩
    | none =>
      obtain ⟨v, hv⟩ := hvalue hstop
      obtain ⟨v', hv'⟩ := hvalue' (by rw [hstop]; rfl)
      refine .inr ⟨v, v', hv, hv', fun j hj hactive => ?_⟩
      rw [element_of_memory s i a v ha hv j hj hactive,
        element_of_memory (f s) i a v' ha hv' j hj (by rw [h.active]; exact hactive), h.location]
      exact readQuad_congr s (f s) _ _ fun k hk => h.bytes a _ ha (readsByte_elementOffset s i j k hj hactive hk)

theorem elementFrom_of_alike (h : Alike f s i) (v v' : Vec) (j : Nat) (hj : j < (instrVecLen i).elements)
    (ha : s.instrActive i j = true) (hv : element v' j = element v j) :
    (f s).elementFrom i v' j = s.elementFrom i v j := by
  rw [State.elementFrom, State.elementFrom, h.controls, h.daz, h.ftz, h.dest]
  exact fmaElement_congr _ _ _ _ _ _ _ _ _ _ j rfl (h.src2 j hj ha) hv

/-- An instruction has the same outcome in a state that keeps all it reads, but for the change itself. -/
theorem exec_of_alike (h : Alike f s i) : exec i (f s) = mapResult f (exec i s) := by
  rw [exec_eq, exec_eq, h.disabled, h.taskSwitched, h.raises .ud (by simp), h.raises .nm (by simp)]
  split
  · rfl
  split
  · rfl
  rcases instrSource_of_alike h with ⟨r, hr, hr'⟩ | ⟨v, v', hv, hv', hagree⟩
  · rw [hr, hr', State.afterRead_stops, State.afterRead_stops]
  · rw [hv, hv', State.afterRead_value, State.afterRead_value, State.lastSteps, State.lastSteps, h.active, h.controls, h.dest,
      ← h.completes]
    exact complete_congr _ _ _ _ _ _ _ _ _ fun j hj ha => elementFrom_of_alike h v v' j hj ha (hagree j hj ha)

end Alike

/-! ## Embedded rounding (42_vfmsubadd_evex.md rule R114) -/

theorem instrAddress_of_rounding (i : Instr) (h : instrRounding i ≠ none) : instrAddress i = none := by
  cases ho : instrOperands i with
  | inl o => simp only [instrRounding, ho, ne_eq, not_true_eq_false] at h
  | inr o =>
    simp only [instrRounding, instrAddress, ho] at h ⊢
    cases hsrc : o.src3 with
    | reg n => rfl
    | regRounded n rc => rfl
    | mem a => exact absurd (by rw [hsrc]; rfl) h
    | bcast a => exact absurd (by rw [hsrc]; rfl) h

/-- With an embedded rounding mode the controls do not depend on `MXCSR`. -/
theorem instrControls_of_rounding (s : State) (m : BitVec 32) (i : Instr) (h : instrRounding i ≠ none) :
    State.instrControls { s with mxcsr := m } i = s.instrControls i := by
  cases ho : instrOperands i with
  | inl o => simp only [instrRounding, ho, ne_eq, not_true_eq_false] at h
  | inr o =>
    simp only [instrRounding, ho] at h
    obtain ⟨rc, hrc⟩ := Option.ne_none_iff_exists'.mp h
    simp only [State.instrControls, State.evexRounding, ho, hrc, Option.getD_some]

/-- Settles O37: under embedded rounding the last steps raise nothing and write no flag. -/
theorem embeddedRoundingReadsDazFtzOnly : Obligations.EmbeddedRoundingReadsDazFtzOnly := by
  intro i s m hrounding hdaz hftz
  have haddress := instrAddress_of_rounding i hrounding
  have hsae : (s.instrControls i).sae = true := by
    rw [instrControls_sae]
    exact Option.isSome_iff_ne_none.mpr hrounding
  refine exec_of_alike (f := fun t => { t with mxcsr := m }) ⟨fun x hx => ?raises, rfl, rfl, rfl,
    instrControls_of_rounding s m i hrounding, hdaz, hftz, rfl, rfl, rfl, rfl, rfl, rfl, fun _ _ _ => rfl, fun _ _ _ _ => rfl,
    fun a b ha => ?bytes, fun e => ?completes⟩
  case raises =>
    cases x with
    | simd g => exact absurd rfl (hx g)
    | ud => rfl
    | nm => rfl
    | ss => rfl
    | gp => rfl
    | pf code a => rfl
  case bytes => exact nomatch haddress.symm.trans ha
  case completes =>
    simp only [complete, hsae, Bool.not_true, Bool.false_and, Bool.false_eq_true, if_false, if_true]
    rfl

/-- A change that keeps `CR4.OSXMMEXCPT` and commutes with what #PF and #XM write commutes with `raise`. -/
theorem raise_of_commutes (f : State → State) (s : State) (hxm : (f s).cr4OSXMMEXCPT = s.cr4OSXMMEXCPT)
    (hpf : ∀ a, { f s with cr2 := a } = f { s with cr2 := a })
    (hsimd : ∀ g, { f s with mxcsr := (f s).simdFaultMxcsr g, draws := (f s).draws + 1 } =
      f { s with mxcsr := s.simdFaultMxcsr g, draws := s.draws + 1 })
    (x : Exception) : raise x (f s) = mapResult f (raise x s) := by
  cases x with
  | simd g =>
    rw [raise, raise, hxm, hsimd]
    split <;> rfl
  | pf code a =>
    rw [raise, hpf]
    rfl
  | ud => rfl
  | nm => rfl
  | ss => rfl
  | gp => rfl

/-! ## Source registers (42_vfmsubadd_evex.md rule R111, 40_fma_element.md rule R82) -/

theorem setVec_comm (s : State) (n m : EvexReg) (v w : Vec) (h : n ≠ m) :
    (s.setVec n v).setVec m w = (s.setVec m w).setVec n v := by
  have hne : n.toNat ≠ m.toNat := fun heq => h (BitVec.eq_of_toNat_eq heq)
  have hzmm : (s.zmm.set n.toNat v n.isLt).set m.toNat w m.isLt = (s.zmm.set m.toNat w m.isLt).set n.toNat v n.isLt :=
    Vector.set_comm v w hne
  exact congrArg (fun z => { s with zmm := z }) hzmm

/-- A change of one register that keeps element `j` of it keeps element `j` of every register. -/
theorem element_setVec (s : State) (n m : EvexReg) (v : Vec) (j : Nat) (h : element v j = element (s.vec n) j) :
    element ((s.setVec n v).vec m) j = element (s.vec m) j := by
  by_cases hm : m = n
  · rw [hm, State.vec_setVec_same, h]
  · rw [State.vec_setVec_other s n v m hm]

theorem raise_setVec (x : Exception) (s : State) (n : EvexReg) (v : Vec) :
    raise x (s.setVec n v) = mapResult (fun t => t.setVec n v) (raise x s) :=
  raise_of_commutes (fun t => t.setVec n v) s rfl (fun _ => rfl) (fun _ => rfl) x

/-- Settles O38: the change keeps the active elements of every register, and the destination. -/
theorem inactiveElementsInvisible : Obligations.InactiveElementsInvisible := by
  intro i s n v hn hagree
  have hdest : (s.setVec n v).vec (instrDest i) = s.vec (instrDest i) := State.vec_setVec_other s n v _ hn.symm
  refine exec_of_alike (f := fun t => t.setVec n v) ⟨fun x _ => raise_setVec x s n v, rfl, rfl, rfl, rfl, rfl, rfl, rfl, rfl,
    rfl, rfl, rfl, hdest, fun j hj ha => element_setVec s n _ v j (hagree j hj ha),
    fun _ j hj ha => element_setVec s n _ v j (hagree j hj ha), fun _ _ _ _ => rfl, fun e => ?_⟩
  have hmxcsr : (s.setVec n v).mxcsr = s.mxcsr := rfl
  simp only [complete, hmxcsr, raise_setVec, setVec_comm s n (instrDest i) v _ hn]
  split <;> rfl

/-! ## Memory (20_memory.md rules R33, R38) -/

/-- Settles O39: the change keeps the value of every byte that is read. -/
theorem unreadMemoryInvisible : Obligations.UnreadMemoryInvisible := by
  intro i s m hagree
  have hraise (x : Exception) : raise x { s with mem := m } = mapResult (fun t => { t with mem := m }) (raise x s) :=
    raise_of_commutes (fun t => { t with mem := m }) s rfl (fun _ => rfl) (fun _ => rfl) x
  refine exec_of_alike (f := fun t => { t with mem := m }) ⟨fun x _ => hraise x, rfl, rfl, rfl, rfl, rfl, rfl, rfl,
    rfl, rfl, rfl, rfl, rfl, fun _ _ _ => rfl, fun _ _ _ _ => rfl, fun a b ha hb => ?bytes, fun e => ?completes⟩
  case bytes =>
    have htranslate : State.translate { s with mem := m } = s.translate := rfl
    have hlinear : State.byteLinear { s with mem := m } = s.byteLinear := rfl
    rw [State.byteValue, State.byteValue, htranslate, hlinear]
    cases htr : s.translate .read (s.byteLinear (s.instrLocation i a) b) with
    | maps p => exact hagree a b p ha hb htr
    | faults code => rfl
    | device => rfl
  case completes =>
    simp only [complete, hraise]
    split <;> rfl

/-! ## The privilege level and RFLAGS (60_exceptions.md rule R146) -/

/-- Where no range depends on `CPL`, neither does `Translate`. -/
theorem translateIn_of_no_cpl (kind : AccessKind) (c c' : BitVec 2) (a : Quad) (ranges : List TranslateRange)
    (h : ∀ r ∈ ranges, r.cpl = none) : translateIn kind c a ranges = translateIn kind c' a ranges := by
  induction ranges with
  | nil => rfl
  | cons r rest ih =>
    have hr : r.cpl = none := h r List.mem_cons_self
    rw [translateIn, translateIn, ih fun q hq => h q (List.mem_cons_of_mem r hq), hr]
    simp only [true_or]

/-- Of RFLAGS, `VM` is the one bit among the #UD conditions. -/
theorem instrDisabled_setPrivilege (s : State) (c : BitVec 2) (g : Quad) (i : Instr)
    (hvm : g.getLsbD 17 = s.rflags.getLsbD 17) :
    State.instrDisabled { s with cpl := c, rflags := g } i = s.instrDisabled i := by
  have hvex : State.vexDisabled { s with cpl := c, rflags := g } = s.vexDisabled := by
    simp only [State.vexDisabled, State.inRealMode, State.rflagsVM, hvm]
    rfl
  have hevex : State.evexDisabled { s with cpl := c, rflags := g } = s.evexDisabled := by
    rw [State.evexDisabled, hvex]
    rfl
  simp only [State.instrDisabled, hvex, hevex]
  rfl

/-- Settles O40: `CPL` is read by `Translate` alone, and of RFLAGS `VM` alone. -/
theorem privilegeAndFlagsInvisible : Obligations.PrivilegeAndFlagsInvisible := by
  intro i s c g hcpl hvm
  have htranslate : State.translate { s with cpl := c, rflags := g } = s.translate :=
    funext fun kind => funext fun a => translateIn_of_no_cpl kind c s.cpl a s.params.translate hcpl
  have hraise (x : Exception) : raise x { s with cpl := c, rflags := g } =
      mapResult (fun t => { t with cpl := c, rflags := g }) (raise x s) :=
    raise_of_commutes (fun t => { t with cpl := c, rflags := g }) s rfl (fun _ => rfl) (fun _ => rfl) x
  refine exec_of_alike (f := fun t => { t with cpl := c, rflags := g }) ⟨fun x _ => hraise x,
    instrDisabled_setPrivilege s c g i hvm, rfl, rfl, rfl, rfl, rfl, rfl, rfl, rfl, rfl, htranslate, rfl, fun _ _ _ => rfl,
    fun _ _ _ _ => rfl, fun a b _ _ => ?bytes, fun e => ?completes⟩
  case bytes =>
    rw [State.byteValue, State.byteValue, htranslate]
    rfl
  case completes =>
    simp only [complete, hraise]
    split <;> rfl

end Sys2Proof.Machine
end


section
/-! Proofs/Fetch.lean: an instruction stands in memory where the next step fetches it (20_memory.md rules R31, R42; 10_state.md
rule R18), and a launch puts one there (70_reset_and_hazards.md rules R157, R158). -/

namespace Sys2Proof.Machine

/-! ## Stored instructions -/

theorem decodeMode_long64 (s : State) (hreal : s.inRealMode = false) (h : s.mode = .long64) : s.decodeMode = .long64 := by
  rw [State.decodeMode, hreal, if_neg Bool.false_ne_true, h]

theorem decodeMode_short (s : State) (hreal : s.inRealMode = false) (h : s.mode ≠ .long64) :
    s.decodeMode = if s.code16 then .legacy16 else .legacy32 := by
  rw [State.decodeMode, hreal, if_neg Bool.false_ne_true]
  cases hm : s.mode
  · exact absurd hm h
  · rfl
  · rfl

/-- What is fetched decodes to `i` where it starts with an encoding that does, whatever follows. -/
theorem step_of_prefix (s : State) (i : Instr) (hfetch : encode i <+: s.fetch)
    (hdecode : ∀ tail, decode s.decodeMode (encode i ++ tail) = .instr i) : step s = exec i s := by
  obtain ⟨tail, htail⟩ := hfetch
  exact step_of_decode_instr s i (htail ▸ hdecode tail)

/-- The linear address of byte `n` outside `Long64`, as a number (log entry 18). -/
theorem codeOffset_toNat (s : State) (n : Nat) :
    ((s.rip + BitVec.ofNat 64 n).setWidth 32).toNat = (s.rip.toNat + n) % 2 ^ 32 := by
  simp only [BitVec.toNat_setWidth, BitVec.toNat_add, BitVec.toNat_ofNat]
  omega

theorem codeLinear_eq (s : State) (n : Nat) :
    ((s.rip + BitVec.ofNat 64 n).setWidth 32 + s.segs.cs.base.setWidth 32).setWidth 64 =
      BitVec.ofNat 64 (((s.rip.toNat + n) % 2 ^ 32 + s.segs.cs.base.toNat) % 2 ^ 32) := by
  apply BitVec.eq_of_toNat_eq
  rw [BitVec.toNat_setWidth, BitVec.toNat_add, codeOffset_toNat, BitVec.toNat_setWidth, BitVec.toNat_ofNat]
  omega

/-- Settles O14: the bytes in memory are the start of what is fetched, which decodes to the instruction. -/
theorem storedInstrRuns : Obligations.StoredInstrRuns := by
  intro s i hpe hvm hwf
  have hreal : s.inRealMode = false := by rw [State.inRealMode, State.cr0PE, State.rflagsVM, hpe, hvm]; rfl
  refine ⟨fun hmode hbytes => ?long, fun hmode hlow haddr hbytes => ?short⟩
  case long =>
    have hdm := decodeMode_long64 s hreal hmode
    refine step_of_prefix s i (prefix_fetch s _ (length_encode_le i) fun n hn => ?_) fun tail => ?_
    · obtain ⟨hcanonical, p, htr, hbyte⟩ := hbytes n hn
      rw [fetchByte_long s n p hdm hcanonical htr, hbyte]
    · rw [hdm]
      exact decode_encode_long64 i tail hwf
  case short =>
    have hdm := decodeMode_short s hreal hmode
    have hne : s.decodeMode ≠ .long64 ∧ s.decodeMode ≠ .real := by
      rw [hdm]
      cases s.code16 <;> decide
    refine step_of_prefix s i (prefix_fetch s _ (length_encode_le i) fun n hn => ?_) fun tail => ?_
    · obtain ⟨hlimit, p, htr, hbyte⟩ := hbytes n hn
      rw [fetchByte_short s n p hne.1 (by rw [BitVec.le_def, codeOffset_toNat]; exact hlimit)
        (by rw [codeLinear_eq]; exact htr), hbyte]
    · refine decode_encode_low _ i tail hne.2 hwf hlow (haddr.imp_right fun ⟨hcode, hsize⟩ => ?_)
      rw [hdm, hcode, hasShortAddresses, hsize]
      rfl

/-! ## The launch -/

/-- Storing code changes memory and nothing else. -/
theorem storeCode_eq (s : State) (i : Nat) (bytes : List Byte) : ∃ m, s.storeCode i bytes = { s with mem := m } := by
  induction bytes generalizing s i with
  | nil => exact ⟨s.mem, rfl⟩
  | cons b rest ih =>
    rw [State.storeCode]
    split
    · exact ih { s with mem := _ } (i + 1)
    · exact ih s (i + 1)

theorem storeCode_mem_wf (s : State) (i : Nat) (bytes : List Byte) (h : s.mem.wf = true) :
    (s.storeCode i bytes).mem.wf = true := by
  induction bytes generalizing s i with
  | nil => exact h
  | cons b rest ih =>
    rw [State.storeCode]
    split
    · exact ih _ (i + 1) (Memory.write_wf s.mem _ b h)
    · exact ih s (i + 1) h

/-- A byte where none of the code is stored keeps its value. -/
theorem storeCode_read_other (s : State) (i : Nat) (bytes : List Byte) (a : Quad)
    (h : ∀ k, k < bytes.length → s.fetchPhysical (i + k) ≠ some a) : (s.storeCode i bytes).mem.read a = s.mem.read a := by
  induction bytes generalizing s i with
  | nil => rfl
  | cons b rest ih =>
    have hrest (t : State) (ht : t.fetchPhysical = s.fetchPhysical) :
        (t.storeCode (i + 1) rest).mem.read a = t.mem.read a := by
      refine ih t (i + 1) fun k hk => ?_
      rw [ht, show i + 1 + k = i + (k + 1) by omega]
      exact h (k + 1) (by simpa using hk)
    rw [State.storeCode]
    split
    case h_1 p hp =>
      have hne : a ≠ p := fun heq => h 0 (by simp) (by rw [Nat.add_zero, hp, heq])
      exact (hrest { s with mem := s.mem.write p b } rfl).trans (Memory.read_write_other s.mem p a b hne)
    case h_2 => exact hrest s rfl

/-- Code stored at consecutive addresses is read back there. -/
theorem storeCode_read (s : State) (i : Nat) (bytes : List Byte) (base : Quad) (hwf : s.mem.wf = true)
    (hlen : i + bytes.length ≤ 2 ^ 64)
    (h : ∀ k, k < bytes.length → s.fetchPhysical (i + k) = some (base + BitVec.ofNat 64 (i + k))) (k : Nat)
    (hk : k < bytes.length) : some ((s.storeCode i bytes).mem.read (base + BitVec.ofNat 64 (i + k))) = bytes[k]? := by
  induction bytes generalizing s i k with
  | nil => exact absurd hk (Nat.not_lt_zero k)
  | cons b rest ih =>
    simp only [List.length_cons] at hk hlen
    have hphys (n : Nat) (hn : n < rest.length) : s.fetchPhysical (i + 1 + n) = some (base + BitVec.ofNat 64 (i + 1 + n)) := by
      rw [show i + 1 + n = i + (n + 1) by omega]
      exact h (n + 1) (by simpa using hn)
    have hstored : s.storeCode i (b :: rest) =
        State.storeCode { s with mem := s.mem.write (base + BitVec.ofNat 64 i) b } (i + 1) rest := by
      rw [State.storeCode, show s.fetchPhysical i = _ from h 0 (by simp)]
      rfl
    rw [hstored]
    cases k with
    | zero =>
      rw [Nat.add_zero, storeCode_read_other _ _ _ _ fun n hn heq => ?_]
      · exact congrArg some (Memory.read_write_same s.mem _ b hwf)
      · have hsame := congrArg BitVec.toNat (add_left_cancel (Option.some.inj ((hphys n hn).symm.trans heq)))
        rw [BitVec.toNat_ofNat, BitVec.toNat_ofNat] at hsame
        omega
    | succ n =>
      have hread := ih { s with mem := s.mem.write (base + BitVec.ofNat 64 i) b } (i + 1)
        (Memory.write_wf s.mem _ b hwf) (by omega) hphys n (by omega)
      rw [show i + (n + 1) = i + 1 + n by omega, hread]
      rfl

theorem length_wordBytes (nbits w : Nat) : (wordBytes nbits w).length = maxLength := by simp [wordBytes]

/-- After reset and enabling, code is fetched from `0xFFF0` on, in `Long64`. -/
theorem fetchPhysical_launch (k : Nat) (hk : k < maxLength) :
    State.reset.enable.fetchPhysical k = some (0xFFF0#64 + BitVec.ofNat 64 k) := by
  have hall : ∀ n : Fin 15, State.reset.enable.fetchPhysical n = some (0xFFF0#64 + BitVec.ofNat 64 n) := by decide
  exact hall ⟨k, hk⟩

/-- The launched state differs from the enabled one in memory alone. -/
theorem withFetchWord_eq (nbits w : Nat) :
    ∃ m, State.reset.withFetchWord nbits w = { State.reset.enable with mem := m } := storeCode_eq _ _ _

/-- The launched state fetches the bytes of the word. -/
theorem prefix_fetch_launch (nbits w : Nat) : wordBytes nbits w <+: (State.reset.withFetchWord nbits w).fetch := by
  obtain ⟨m, hm⟩ := withFetchWord_eq nbits w
  refine prefix_fetch _ _ (length_wordBytes nbits w).le fun k hk => ?_
  have hlt : k < maxLength := by rwa [length_wordBytes] at hk
  have hphysical : (State.reset.withFetchWord nbits w).fetchPhysical k = some (0xFFF0#64 + BitVec.ofNat 64 k) := by
    rw [hm]
    exact fetchPhysical_launch k hlt
  have hread := storeCode_read State.reset.enable 0 (wordBytes nbits w) 0xFFF0#64 State.reset_mem_wf
    (by rw [length_wordBytes]; decide)
    (fun n hn => by rw [Nat.zero_add]; exact fetchPhysical_launch n (by rwa [length_wordBytes] at hn)) k hk
  rw [Nat.zero_add] at hread
  rw [State.fetchByte, hphysical, ← hread]
  rfl

theorem instrEnabled_launch (nbits w : Nat) (i : Instr) : (State.reset.withFetchWord nbits w).instrEnabled i = true := by
  obtain ⟨m, hm⟩ := withFetchWord_eq nbits w
  have hvex : State.reset.enable.vexAvailable = true := by decide
  have hevex : ∀ vl, State.reset.enable.evexAvailable vl = true := by
    intro vl
    cases vl <;> decide
  have henabled : State.reset.enable.instrEnabled i = true := by
    rw [State.instrEnabled, State.instrAvailable, hevex, hvex, ite_self]
    decide
  rw [hm]
  exact henabled

/-- Settles O15: the bytes that decode to the instruction stand where they are fetched, and what follows them is not read. -/
theorem launchRunsTableWord : Obligations.LaunchRunsTableWord := by
  intro nbits w i h
  refine ⟨step_of_decode_instr _ i ?_, instrEnabled_launch nbits w i⟩
  have hword : decode .long64 (wordBytes nbits w) = .instr i := by
    rw [decodeTableWord] at h
    split at h
    · rename_i j hj
      rw [hj, Option.some.inj h]
    · cases h
  have hmode : (State.reset.withFetchWord nbits w).decodeMode = .long64 := by
    obtain ⟨m, hm⟩ := withFetchWord_eq nbits w
    rw [hm]
    exact (show State.reset.enable.decodeMode = .long64 by decide)
  obtain ⟨tail, htail⟩ := prefix_fetch_launch nbits w
  obtain ⟨_, _, _, hlocal⟩ := decodeReadsOnlyItsLength _ _ i hword
  have hlong := hlocal ((wordBytes nbits w).drop (instrLength i) ++ tail)
  rwa [← List.append_assoc, List.take_append_drop, htail, ← hmode] at hlong

end Sys2Proof.Machine
end


section
/-! Proofs/Addresses.lean: the bytes of a read (20_memory.md rule R32), and the effective and the linear address of a memory
operand in `Long64` and in the 32-bit modes (30_encoding.md rules R54 to R56, R68 (d); 20_memory.md rule R45). -/

namespace Sys2Proof.Machine

/-! ## The bytes of a read -/

/-- Byte `k` of an eight-byte read. -/
theorem extractLsb'_readQuad (s : State) (l : Location) (i k : Nat) (hk : k < 8) :
    (s.readQuad l i).extractLsb' (8 * k) 8 = s.byteValue l (i + k) := by
  have low {w : Nat} (x : BitVec w) (b : Byte) : (x ++ b).extractLsb' 0 8 = b := BitVec.extractLsb'_append_eq_right
  have high {w : Nat} (x : BitVec w) (b : Byte) (n : Nat) : (x ++ b).extractLsb' (n + 8) 8 = x.extractLsb' n 8 := by
    rw [BitVec.extractLsb'_append_eq_of_le (by omega), Nat.add_sub_cancel]
  have top (b : Byte) : b.extractLsb' 0 8 = b := BitVec.extractLsb'_eq_self
  rw [State.readQuad]
  match k, hk with
  | 0, _ => exact low _ _
  | 1, _ => exact (high _ _ 0).trans (low _ _)
  | 2, _ => exact (high _ _ 8).trans ((high _ _ 0).trans (low _ _))
  | 3, _ => exact (high _ _ 16).trans ((high _ _ 8).trans ((high _ _ 0).trans (low _ _)))
  | 4, _ => exact (high _ _ 24).trans ((high _ _ 16).trans ((high _ _ 8).trans ((high _ _ 0).trans (low _ _))))
  | 5, _ =>
    exact (high _ _ 32).trans ((high _ _ 24).trans ((high _ _ 16).trans ((high _ _ 8).trans ((high _ _ 0).trans (low _ _)))))
  | 6, _ =>
    exact (high _ _ 40).trans ((high _ _ 32).trans ((high _ _ 24).trans ((high _ _ 16).trans ((high _ _ 8).trans
      ((high _ _ 0).trans (low _ _))))))
  | 7, _ =>
    exact (high _ _ 48).trans ((high _ _ 40).trans ((high _ _ 32).trans ((high _ _ 24).trans ((high _ _ 16).trans
      ((high _ _ 8).trans ((high _ _ 0).trans (top _)))))))

/-- Settles O41: byte `k` of a read is the byte that its address maps to. -/
theorem memoryIsLittleEndian : Obligations.MemoryIsLittleEndian := by
  intro s l i k p hk htr
  rw [extractLsb'_readQuad s l i k hk, State.byteValue, htr]

/-! ## The terms of the address sum -/

/-- What `disp8` is multiplied by (30_encoding.md rule R56). -/
theorem instrScale_eq (i : Instr) :
    (instrScale i : Int) = if instrIsEvex i = false then 1 else if instrBroadcast i then 8
      else match instrVecLen i with
        | .v128 => 16
        | .v256 => 32
        | .v512 => 64 := by
  cases ho : instrOperands i with
  | inl o =>
    have hevex : instrIsEvex i = false := by rw [instrIsEvex, ho]; rfl
    simp only [instrScale, ho, hevex, if_true, Nat.cast_one]
  | inr o =>
    have hevex : instrIsEvex i = true := by rw [instrIsEvex, ho]; rfl
    simp only [instrScale, ho, hevex, Bool.true_eq_false, if_false]
    split
    · rfl
    · cases instrVecLen i <;> rfl

/-- A displacement, sign-extended, and `disp8` scaled, as an integer modulo 2^64. -/
theorem dispValue_eq (n : Nat) (d : Disp) :
    dispValue n d = match d with
      | .none => 0
      | .disp8 x => BitVec.ofInt 64 (x.toInt * n)
      | .disp32 x => BitVec.ofInt 64 x.toInt := by
  cases d with
  | none => rfl
  | disp8 x => exact (congrArg (x.signExtend 64 * ·) (BitVec.ofInt_natCast 64 n).symm).trans (BitVec.ofInt_mul x.toInt n).symm
  | disp32 x => rfl

theorem scaledIndex_eq (s : State) (scale : BitVec 2) (x : GprNum) :
    s.scaledIndex scale x = if x = 4#4 then 0 else BitVec.ofNat 64 ((s.reg x).toNat * 2 ^ scale.toNat) := by
  rw [State.scaledIndex]
  split
  · rfl
  · apply BitVec.eq_of_toNat_eq
    rw [BitVec.toNat_shiftLeft, BitVec.toNat_ofNat, Nat.shiftLeft_eq]

/-- Cut to 32 bits, a number is taken modulo 2^32. -/
theorem setWidth_cut (x : Quad) : (x.setWidth 32).setWidth 64 = BitVec.ofNat 64 (x.toNat % 2 ^ 32) := by
  apply BitVec.eq_of_toNat_eq
  rw [BitVec.toNat_setWidth, BitVec.toNat_setWidth, BitVec.toNat_ofNat]

theorem toNat_setWidth_cut (x : BitVec 32) : (x.setWidth 64).toNat = x.toNat := by
  rw [BitVec.toNat_setWidth]
  omega

/-! ## `Long64` -/

theorem longBase_operandSegment (s : State) (pre : Prefixes) (a : AddrForm) :
    s.longBase (operandSegment pre a) =
      if pre.seg = some .fs then s.segs.fs.base else if pre.seg = some .gs then s.segs.gs.base else 0 := by
  rw [operandSegment]
  cases hseg : pre.seg with
  | none => cases stackBase a <;> rfl
  | some g => cases g <;> rfl

/-- The linear address of byte `n` in `Long64`. -/
theorem toNat_byteLinear_long64 (s : State) (l : Location) (n : Nat) (h : s.mode = .long64) :
    (s.byteLinear l n).toNat = (l.ea.toNat + n + (s.longBase l.seg).toNat) % 2 ^ 64 := by
  rw [State.byteLinear, h]
  simp only [State.byteOffset, h, BitVec.toNat_add, BitVec.toNat_ofNat]
  omega

/-- Settles O42: term by term the sum is the one stated, and the linear address adds the base of FS or GS to it. -/
theorem longModeAddresses : Obligations.LongModeAddresses := by
  intro i s a hmode _ factor disp index sum ea base
  have hfactor : (instrScale i : Int) = factor := instrScale_eq i
  have hdisp : dispValue (instrScale i) = disp := funext fun d => by
    rw [dispValue_eq, hfactor] <;> rfl
  have hindex : s.scaledIndex = index := funext fun scale => funext fun x => scaledIndex_eq s scale x
  have hnext : s.nextRip (instrLength i) = s.rip + BitVec.ofNat 64 (encode i).length := by
    rw [nextRip_long64 s _ hmode, length_encode]
  have hsum : s.addressSum (s.nextRip (instrLength i)) (instrScale i) a = sum := by
    cases a with
    | base b d => rw [State.addressSum, hdisp]
    | disp32 d => rw [State.addressSum, hmode, hnext]; rfl
    | sib scale x b d => rw [State.addressSum, hindex, hdisp]
    | sibNoBase scale x d => rw [State.addressSum, hindex]; rfl
  have hea : (s.instrLocation i a).ea = ea := by
    simp only [State.instrLocation, State.locate, State.effectiveAddress, hmode, hsum, setWidth_cut]
    rfl
  refine ⟨hea, fun n => ?_⟩
  rw [toNat_byteLinear_long64 s _ n hmode, hea]
  exact congrArg (fun b : Quad => (ea.toNat + n + b.toNat) % 2 ^ 64) (longBase_operandSegment s (instrPrefixes i) a)

/-! ## The 32-bit modes -/

theorem setWidth_ofInt (x : Int) : (BitVec.ofInt 64 x).setWidth 32 = BitVec.ofInt 32 x := by
  apply BitVec.eq_of_toNat_eq
  rw [BitVec.toNat_setWidth, BitVec.toNat_ofInt, BitVec.toNat_ofInt]
  omega

/-- The scaled index over the low 32 bits of the register. -/
theorem setWidth_scaledIndex (s : State) (scale : BitVec 2) (x : GprNum) :
    (s.scaledIndex scale x).setWidth 32 =
      if x = 4#4 then 0 else BitVec.ofNat 32 (((s.reg x).extractLsb' 0 32).toNat * 2 ^ scale.toNat) := by
  rw [scaledIndex_eq]
  split
  · rfl
  · apply BitVec.eq_of_toNat_eq
    rw [BitVec.toNat_setWidth, BitVec.toNat_ofNat, BitVec.toNat_ofNat, BitVec.extractLsb'_toNat, Nat.shiftRight_zero,
      Nat.mod_mod_of_dvd _ (by decide), Nat.mod_mul_mod]

theorem setWidth_dispValue (n : Nat) (d : Disp) :
    (dispValue n d).setWidth 32 = match d with
      | .none => 0
      | .disp8 x => BitVec.ofInt 32 (x.toInt * n)
      | .disp32 x => x := by
  rw [dispValue_eq]
  cases d with
  | none => rfl
  | disp8 x => exact setWidth_ofInt _
  | disp32 x => exact (setWidth_ofInt _).trans (BitVec.ofInt_toInt)

theorem effectiveAddress_short (s : State) (pre : Prefixes) (next : Quad) (n : Nat) (a : AddrForm) (h : s.mode ≠ .long64) :
    s.effectiveAddress pre next n a = ((s.addressSum next n a).setWidth 32).setWidth 64 := by
  rw [State.effectiveAddress]
  cases hm : s.mode
  · exact absurd hm h
  · rfl
  · rfl

/-- Outside `Long64` there is no RIP-relative form. -/
theorem addressSum_disp32_short (s : State) (next : Quad) (n : Nat) (d : BitVec 32) (h : s.mode ≠ .long64) :
    s.addressSum next n (.disp32 d) = d.signExtend 64 := by
  rw [State.addressSum]
  cases hm : s.mode
  · exact absurd hm h
  · rfl
  · rfl

/-- The linear address of byte `n` in the 32-bit modes. -/
theorem toNat_byteLinear_short (s : State) (l : Location) (n : Nat) (h : s.mode ≠ .long64) :
    (s.byteLinear l n).toNat = ((l.ea.toNat + n) % 2 ^ 32 + (s.segment l.seg).base.toNat) % 2 ^ 32 := by
  have hlinear : s.byteLinear l n =
      (((((l.ea + BitVec.ofNat 64 n).setWidth 32).setWidth 64 + (s.segment l.seg).base)).setWidth 32).setWidth 64 := by
    rw [State.byteLinear, State.byteOffset]
    cases hm : s.mode
    · exact absurd hm h
    · rfl
    · rfl
  rw [hlinear]
  simp only [BitVec.toNat_setWidth, BitVec.toNat_add, BitVec.toNat_ofNat]
  omega

/-- The base of the segment of a memory operand (30_encoding.md rule R54). -/
theorem base_operandSegment (s : State) (pre : Prefixes) (a : AddrForm) :
    (s.segment (operandSegment pre a)).base = match pre.seg with
      | none => if stackBase a then s.segs.ss.base else s.segs.ds.base
      | some .es => s.segs.es.base
      | some .cs => s.segs.cs.base
      | some .ss => s.segs.ss.base
      | some .ds => s.segs.ds.base
      | some .fs => s.segs.fs.base
      | some .gs => s.segs.gs.base := by
  rw [operandSegment]
  cases pre.seg with
  | none => cases stackBase a <;> rfl
  | some g => cases g <;> rfl

/-- Settles O60: cut to 32 bits the sum is the one stated over the low halves of the registers. -/
theorem protectedModeAddresses : Obligations.ProtectedModeAddresses := by
  intro i s a hmode _ factor reg disp index ea stack base
  have hreg (x : GprNum) : (s.reg x).setWidth 32 = reg x := (BitVec.setWidth_eq_extractLsb' (by decide))
  have hfactor : (instrScale i : Int) = factor := instrScale_eq i
  have hdisp (d : Disp) : (dispValue (instrScale i) d).setWidth 32 = disp d := by
    rw [setWidth_dispValue, hfactor] <;> rfl
  have hindex (scale : BitVec 2) (x : GprNum) : (s.scaledIndex scale x).setWidth 32 = index scale x :=
    setWidth_scaledIndex s scale x
  have hsext (d : BitVec 32) : (d.signExtend 64).setWidth 32 = d := (setWidth_ofInt _).trans BitVec.ofInt_toInt
  have hsum : (s.addressSum (s.nextRip (instrLength i)) (instrScale i) a).setWidth 32 = ea := by
    cases a with
    | base b d => rw [State.addressSum, BitVec.setWidth_add _ _ (by decide), hreg, hdisp]
    | disp32 d => rw [addressSum_disp32_short s _ _ d hmode, hsext]
    | sib scale x b d =>
      rw [State.addressSum, BitVec.setWidth_add _ _ (by decide), BitVec.setWidth_add _ _ (by decide), hreg, hindex, hdisp]
    | sibNoBase scale x d => rw [State.addressSum, BitVec.setWidth_add _ _ (by decide), hindex, hsext]
  have hea : (s.instrLocation i a).ea.toNat = ea.toNat := by
    rw [State.instrLocation, State.locate, effectiveAddress_short s _ _ _ a hmode, hsum, toNat_setWidth_cut]
  have hbase : (s.segment (operandSegment (instrPrefixes i) a)).base = base := by
    have hstack : stackBase a = stack := by cases a <;> rfl
    rw [base_operandSegment, hstack] <;> rfl
  refine ⟨hea, fun n => ?_⟩
  rw [toNat_byteLinear_short s _ n hmode, hea]
  exact congrArg (fun b : Quad => ((ea.toNat + n) % 2 ^ 32 + b.toNat) % 2 ^ 32) hbase

end Sys2Proof.Machine
end


section
/-! Proofs/FmaSymmetry.lean: the factors of `FmaElem` commute, and what DAZ and FTZ do (40_fma_element.md rules R83, R94 and
R98). -/

namespace Sys2Proof.Machine

/-! ## The factors (rule R98 (P3)) -/

theorem invalidOperation_comm (a b c : Quad) : invalidOperation a b c = invalidOperation b a c := by
  rw [invalidOperation, invalidOperation, Bool.or_comm (isInfinite a && isZero b), Bool.and_comm (isZero a),
    Bool.and_comm (isInfinite a), Bool.or_comm (isInfinite a), Bool.xor_comm (dblSign a)]

theorem exactSum_comm (a b c : Quad) : exactSum a b c = exactSum b a c := by
  rw [exactSum, exactSum, mul_comm (scaledValue a)]

theorem zeroSign_comm (rc : RoundingMode) (a b c : Quad) : zeroSign rc a b c = zeroSign rc b a c := by
  rw [zeroSign, zeroSign, Bool.or_comm (isZero a), Bool.xor_comm (dblSign a)]

theorem finiteSum_comm (rc : RoundingMode) (ftz : Bool) (f : BitVec 6) (a b c : Quad) :
    finiteSum rc ftz f a b c = finiteSum rc ftz f b a c := by
  rw [finiteSum, finiteSum, exactSum_comm a b c, zeroSign_comm rc a b c]

/-- No step of rule R80 on numbers tells the factors apart. -/
theorem fmaNumbers_comm (rc : RoundingMode) (ftz : Bool) (a b c : Quad) :
    fmaNumbers rc ftz a b c = fmaNumbers rc ftz b a c := by
  have hdenormal : (isDenormal a || isDenormal b || isDenormal c) = (isDenormal b || isDenormal a || isDenormal c) := by
    rw [Bool.or_comm (isDenormal a)]
  rw [fmaNumbers, fmaNumbers, invalidOperation_comm a b c, hdenormal, Bool.or_comm (isInfinite a), Bool.xor_comm (dblSign a)]
  simp only [finiteSum_comm rc ftz _ a b c]

/-- Settles O46: with a NaN addend its NaN is the result in either order; otherwise no step tells the factors apart. -/
theorem factorsCommute : Obligations.FactorsCommute := by
  intro rc daz ftz neg a b c ha hb
  cases hc : isNaN c
  case false =>
    rw [fmaElem_of_numbers rc daz ftz neg a b c (by rw [ha, hb, hc]; rfl),
      fmaElem_of_numbers rc daz ftz neg b a c (by rw [ha, hb, hc]; rfl), fmaNumbers_comm]
  case true =>
    rw [fmaElem_of_nan rc daz ftz neg a b c (by rw [hc, Bool.or_true]),
      fmaElem_of_nan rc daz ftz neg b a c (by rw [hc, Bool.or_true]), propagateNaN, propagateNaN, ha, hb,
      isSNaN_of_not_isNaN a ha, isSNaN_of_not_isNaN b hb]
    rfl

/-! ## DAZ (rules R83, R98 (P8)) -/

/-- Conditioning a denormal operand once or twice is the same. -/
theorem conditionInput_of_denormal (x : Quad) (h : isDenormal x = true) :
    conditionInput true x = conditionInput true (if x.getLsbD 63 then 0x8000000000000000#64 else 0#64) := by
  have hzero : ∀ negative, conditionInput true (signedZero negative) = signedZero negative := by decide
  rw [conditionInput, h, Bool.and_self, if_pos rfl, ← hzero]
  rfl

theorem conditionInput_of_not_denormal (daz : Bool) (x : Quad) (h : isDenormal x = false) : conditionInput daz x = x := by
  rw [conditionInput, h, Bool.and_false, if_neg Bool.false_ne_true]

/-! ## FTZ (rule R94) -/

theorem roundSum_ftz (rc : RoundingMode) (f : BitVec 6) (x : Int) (h : (roundSum rc true f x).tiny = false) :
    roundSum rc true f x = roundSum rc false f x := by
  simp only [roundSum] at h ⊢
  split
  · rfl
  · rename_i hover
    rw [if_neg hover] at h
    split
    · rename_i htiny
      rw [if_pos htiny] at h
      cases h
    · rfl

theorem fmaNumbers_ftz (rc : RoundingMode) (a b c : Quad) (h : (fmaNumbers rc true a b c).tiny = false) :
    fmaNumbers rc true a b c = fmaNumbers rc false a b c := by
  cases hinvalid : invalidOperation a b c
  case true => rw [fmaNumbers_of_invalid rc true a b c hinvalid, fmaNumbers_of_invalid rc false a b c hinvalid]
  cases hfactor : isInfinite a || isInfinite b
  case true =>
    rw [fmaNumbers_of_infinite_factor rc true a b c hinvalid hfactor,
      fmaNumbers_of_infinite_factor rc false a b c hinvalid hfactor]
  cases haddend : isInfinite c
  case true =>
    rw [fmaNumbers_of_infinite_addend rc true a b c hfactor haddend,
      fmaNumbers_of_infinite_addend rc false a b c hfactor haddend]
  rw [fmaNumbers_of_finite rc true a b c hfactor haddend] at h ⊢
  rw [fmaNumbers_of_finite rc false a b c hfactor haddend]
  by_cases hx : exactSum a b c = 0
  · rw [finiteSum_of_zero _ _ _ _ _ _ hx, finiteSum_of_zero _ _ _ _ _ _ hx]
  · rw [finiteSum, if_neg hx] at h ⊢
    rw [finiteSum, if_neg hx, roundSum_ftz rc _ _ h]

/-- Settles O47: DAZ is in the conditioning of each operand alone, and FTZ in the tiny results of `roundSum`. -/
theorem dazAndFtzEffects : Obligations.DazAndFtzEffects := by
  intro rc daz ftz neg a b c
  refine ⟨fun ha => ?_, fun hb => ?_, fun hc => ?_, fun ha hb hc => ?_, fun h => ?_⟩
  · rw [fmaElem, fmaElem, conditionInput_of_denormal a ha]
  · rw [fmaElem, fmaElem, conditionInput_of_denormal b hb]
  · rw [fmaElem, fmaElem, conditionInput_of_denormal c hc]
  · rw [fmaElem, fmaElem]
    simp only [conditionInput_of_not_denormal _ _ ha, conditionInput_of_not_denormal _ _ hb,
      conditionInput_of_not_denormal _ _ hc]
  · cases hnan : isNaN a || isNaN b || isNaN c
    case true => rw [fmaElem_of_nan _ _ _ _ _ _ _ hnan, fmaElem_of_nan _ _ _ _ _ _ _ hnan]
    case false =>
      rw [fmaElem_of_numbers _ _ _ _ _ _ _ hnan] at h ⊢
      rw [fmaElem_of_numbers _ _ _ _ _ _ _ hnan, fmaNumbers_ftz rc _ _ _ h]

end Sys2Proof.Machine
end


section
/-! Proofs/Format.lean: the binary64 format (40_fma_element.md rule R81). The fields of a value, the value of what `encode`
answers, and the grid on which the values near a magnitude lie. Magnitudes are in units of `2^-2148`. -/

namespace Sys2Proof.Machine

/-! ## Fields -/

theorem dblExponent_eq (x : Quad) : dblExponent x = x.toNat / 2 ^ 52 % 2 ^ 11 := by
  rw [dblExponent, BitVec.extractLsb'_toNat, Nat.shiftRight_eq_div_pow]

theorem dblFraction_eq (x : Quad) : dblFraction x = x.toNat % 2 ^ 52 := by
  rw [dblFraction, BitVec.extractLsb'_toNat, Nat.shiftRight_zero]

theorem dblSign_eq (x : Quad) : dblSign x = decide (2 ^ 63 ≤ x.toNat) := BitVec.msb_eq_decide x

theorem dblFraction_lt (x : Quad) : dblFraction x < 2 ^ 52 := by
  rw [dblFraction_eq]
  exact Nat.mod_lt _ (by decide)

theorem dblExponent_lt (x : Quad) : dblExponent x < 2 ^ 11 := by
  rw [dblExponent_eq]
  exact Nat.mod_lt _ (by decide)

section WithSign

variable (negative : Bool) (bits : Nat) (h : bits < 2 ^ 63)
include h

theorem toNat_withSign : (withSign negative bits).toNat = (if negative then 2 ^ 63 else 0) + bits := by
  have hbits : (BitVec.ofNat 64 bits).toNat = bits := by
    rw [BitVec.toNat_ofNat]
    omega
  rw [withSign, BitVec.toNat_or, hbits]
  cases negative
  · exact (Nat.zero_or bits).trans (Nat.zero_add bits).symm
  · have hor := (Nat.two_pow_add_eq_or_of_lt h 1).symm
    rwa [Nat.mul_one] at hor

theorem dblExponent_withSign : dblExponent (withSign negative bits) = bits / 2 ^ 52 := by
  rw [dblExponent_eq, toNat_withSign negative bits h]
  cases negative
  · simp only [Bool.false_eq_true, if_false]
    omega
  · simp only [if_true]
    omega

theorem dblFraction_withSign : dblFraction (withSign negative bits) = bits % 2 ^ 52 := by
  rw [dblFraction_eq, toNat_withSign negative bits h]
  cases negative
  · simp only [Bool.false_eq_true, if_false]
    omega
  · simp only [if_true]
    omega

theorem dblSign_withSign : dblSign (withSign negative bits) = negative := by
  rw [dblSign_eq, toNat_withSign negative bits h]
  cases negative
  · simp only [Bool.false_eq_true, if_false, decide_eq_false_iff_not]
    omega
  · simp only [if_true, decide_eq_true_eq]
    omega

end WithSign

/-- A 64-bit number is its fields. -/
theorem fields_eq (n : Nat) (h : n < 2 ^ 64) :
    (if decide (2 ^ 63 ≤ n) then 2 ^ 63 else 0) + (n / 2 ^ 52 % 2 ^ 11 * 2 ^ 52 + n % 2 ^ 52) = n := by
  split
  case isTrue hn =>
    rw [decide_eq_true_eq] at hn
    omega
  case isFalse hn =>
    rw [decide_eq_true_eq] at hn
    omega

/-- A value is its fields. -/
theorem withSign_fields (x : Quad) : withSign (dblSign x) (dblExponent x * 2 ^ 52 + dblFraction x) = x := by
  have hexponent := dblExponent_lt x
  have hfraction := dblFraction_lt x
  apply BitVec.eq_of_toNat_eq
  rw [toNat_withSign _ _ (by omega), dblExponent_eq, dblFraction_eq, dblSign_eq]
  exact fields_eq x.toNat x.isLt

/-! ## Values -/

theorem denormalUnit_eq : denormalUnit = 2 ^ 1074 := by rw [denormalUnit, show 2148 - 1074 = 1074 from rfl]

theorem minNormalMagnitude_eq : minNormalMagnitude = 2 ^ 1126 := by rw [minNormalMagnitude, show 2148 - 1022 = 1126 from rfl]

/-- The magnitude of a value in units of `2^-2148`. -/
def wideMagnitude (x : Quad) : Nat := magnitude x * denormalUnit

/-- The value of a signed magnitude. -/
def signedValue (negative : Bool) (m : Nat) : Int := if negative then -(m : Int) else m

theorem scaledValue_wide (x : Quad) : scaledValue x * 2 ^ 1074 = signedValue (dblSign x) (wideMagnitude x) := by
  have hunit : ((denormalUnit : Nat) : Int) = 2 ^ 1074 := by rw [denormalUnit_eq, Nat.cast_pow, Nat.cast_ofNat]
  rw [scaledValue, signedValue, wideMagnitude, Nat.cast_mul, hunit]
  split
  · rw [Int.neg_mul]
  · rfl

/-- A value of exponent 0: a zero or a denormal. -/
theorem wideMagnitude_of_zero_exponent (x : Quad) (h : dblExponent x = 0) :
    wideMagnitude x = dblFraction x * 2 ^ 1074 := by rw [wideMagnitude, magnitude, if_pos h, denormalUnit_eq]

/-- A normal value: 53 significant bits and their place. -/
theorem wideMagnitude_of_normal (x : Quad) (h : dblExponent x ≠ 0) :
    wideMagnitude x = (2 ^ 52 + dblFraction x) * 2 ^ (dblExponent x + 1073) := by
  have hexp : dblExponent x + 1073 = (dblExponent x - 1) + 1074 := by omega
  rw [wideMagnitude, magnitude, if_neg h, hexp, Nat.pow_add, denormalUnit_eq, Nat.mul_assoc]

/-- A number of `n` bits at place `e`. -/
theorem mul_two_pow_lt (k n e : Nat) (h : k < 2 ^ n) : k * 2 ^ e < 2 ^ (n + e) := by
  rw [Nat.pow_add]
  exact (Nat.mul_lt_mul_right (Nat.two_pow_pos e)).mpr h

theorem wideMagnitude_lt_of_zero_exponent (x : Quad) (h : dblExponent x = 0) : wideMagnitude x < 2 ^ (52 + 1074) := by
  rw [wideMagnitude_of_zero_exponent x h]
  exact mul_two_pow_lt _ 52 1074 (dblFraction_lt x)

theorem wideMagnitude_lt_of_normal (x : Quad) (h : dblExponent x ≠ 0) : wideMagnitude x < 2 ^ (53 + (dblExponent x + 1073)) := by
  have hfraction := dblFraction_lt x
  rw [wideMagnitude_of_normal x h]
  exact mul_two_pow_lt _ 53 _ (by omega)

theorem le_wideMagnitude_of_normal (x : Quad) (h : dblExponent x ≠ 0) : 2 ^ (52 + (dblExponent x + 1073)) ≤ wideMagnitude x := by
  rw [wideMagnitude_of_normal x h, Nat.pow_add]
  exact Nat.mul_le_mul_right _ (Nat.le_add_right _ _)

/-- `MAXDBL` bounds every finite value. -/
theorem wideMagnitude_le_max (x : Quad) (h : dblExponent x ≠ 2047) : wideMagnitude x ≤ maxMagnitude := by
  have hexponent := dblExponent_lt x
  have hfraction := dblFraction_lt x
  rw [maxMagnitude_eq]
  by_cases hx : dblExponent x = 0
  · rw [wideMagnitude_of_zero_exponent x hx]
    exact Nat.mul_le_mul (by omega) (Nat.pow_le_pow_right (by decide) (by decide))
  · rw [wideMagnitude_of_normal x hx]
    exact Nat.mul_le_mul (by omega) (Nat.pow_le_pow_right (by decide) (by omega))

theorem wideMagnitude_eq_zero_iff (x : Quad) : wideMagnitude x = 0 ↔ isZero x = true := by
  rw [isZero, Bool.and_eq_true, beq_iff_eq, beq_iff_eq]
  by_cases hx : dblExponent x = 0
  · rw [wideMagnitude_of_zero_exponent x hx, Nat.mul_eq_zero, or_iff_left (Nat.two_pow_pos 1074).ne', and_iff_right hx]
  · have hle := le_wideMagnitude_of_normal x hx
    have hpos := Nat.two_pow_pos (52 + (dblExponent x + 1073))
    exact ⟨fun h => absurd h (by omega), fun h => absurd h.1 hx⟩

/-! ## The grid -/

/-- The distance of neighbouring values around a magnitude `m`. -/
def gridUnit (m : Nat) : Nat := 2 ^ max (m.log2 - 52) 1074

theorem gridUnit_pos (m : Nat) : 0 < gridUnit m := Nat.two_pow_pos _

theorem two_pow_dvd {i j : Nat} (h : i ≤ j) : 2 ^ i ∣ 2 ^ j := Nat.pow_dvd_pow 2 h

/-- Every value is a whole number of `2^-1074`. -/
theorem denormalUnit_dvd (x : Quad) : 2 ^ 1074 ∣ wideMagnitude x := by
  rw [wideMagnitude, denormalUnit_eq]
  exact Nat.dvd_mul_left _ _

/-- A value from `2^n` up has at most 53 significant bits. -/
theorem two_pow_dvd_wideMagnitude (x : Quad) (n : Nat) (h : 2 ^ n ≤ wideMagnitude x) : 2 ^ (n - 52) ∣ wideMagnitude x := by
  by_cases hx : dblExponent x = 0
  · have hlt := (Nat.pow_lt_pow_iff_right (by decide)).mp (lt_of_le_of_lt h (wideMagnitude_lt_of_zero_exponent x hx))
    exact (two_pow_dvd (by omega)).trans (denormalUnit_dvd x)
  · have hlt := (Nat.pow_lt_pow_iff_right (by decide)).mp (lt_of_le_of_lt h (wideMagnitude_lt_of_normal x hx))
    rw [wideMagnitude_of_normal x hx]
    exact (two_pow_dvd (by omega)).trans (Nat.dvd_mul_left _ _)

/-- No value lies strictly between two neighbours on the grid of a magnitude. -/
theorem wideMagnitude_off_gap (x : Quad) (m : Nat) (hm : m ≠ 0) :
    wideMagnitude x ≤ m / gridUnit m * gridUnit m ∨ m / gridUnit m * gridUnit m + gridUnit m ≤ wideMagnitude x := by
  by_cases hdvd : gridUnit m ∣ wideMagnitude x
  · obtain ⟨k, hk⟩ := hdvd
    rw [hk, Nat.mul_comm (gridUnit m)]
    rcases Nat.lt_or_ge (m / gridUnit m) k with hlt | hle
    · right
      rw [← Nat.succ_mul]
      exact Nat.mul_le_mul_right _ hlt
    · exact .inl (Nat.mul_le_mul_right _ hle)
  · left
    have hlow : wideMagnitude x < 2 ^ m.log2 := by
      by_contra hge
      refine hdvd ?_
      rcases Nat.le_total (m.log2 - 52) 1074 with hle | hle
      · rw [gridUnit, max_eq_right hle]
        exact denormalUnit_dvd x
      · rw [gridUnit, max_eq_left hle]
        exact two_pow_dvd_wideMagnitude x _ (Nat.le_of_not_lt hge)
    have hbig : 1074 ≤ m.log2 - 52 := by
      by_contra hsmall
      refine hdvd ?_
      rw [gridUnit, max_eq_right (by omega)]
      exact denormalUnit_dvd x
    have hunit : gridUnit m ∣ 2 ^ m.log2 := two_pow_dvd (by omega)
    calc wideMagnitude x ≤ 2 ^ m.log2 := hlow.le
      _ = 2 ^ m.log2 / gridUnit m * gridUnit m := (Nat.div_mul_cancel hunit).symm
      _ ≤ m / gridUnit m * gridUnit m := Nat.mul_le_mul_right _ (Nat.div_le_div_right (Nat.log2_self_le hm))

/-- The lowest bit of a value is the parity of its place on its own grid. -/
theorem getLsbD_zero_eq (x : Quad) : x.getLsbD 0 = decide (wideMagnitude x / gridUnit (wideMagnitude x) % 2 = 1) := by
  have hlsb : x.getLsbD 0 = decide (dblFraction x % 2 = 1) := by
    have hparity : dblFraction x % 2 = x.toNat % 2 := by
      rw [dblFraction_eq]
      omega
    rw [hparity, BitVec.getLsbD, Nat.testBit_zero]
  rw [hlsb]
  by_cases hx : dblExponent x = 0
  · have hunit : gridUnit (wideMagnitude x) = 2 ^ 1074 := by
      rw [gridUnit, max_eq_right]
      by_cases hzero : wideMagnitude x = 0
      · rw [hzero, Nat.log2_zero]
        decide
      · have := (Nat.log2_lt hzero).mpr (wideMagnitude_lt_of_zero_exponent x hx)
        omega
    rw [hunit, wideMagnitude_of_zero_exponent x hx, Nat.mul_div_cancel _ (Nat.two_pow_pos 1074)]
  · have hle := le_wideMagnitude_of_normal x hx
    have hne : wideMagnitude x ≠ 0 := by
      have := Nat.two_pow_pos (52 + (dblExponent x + 1073))
      omega
    have hlog : (wideMagnitude x).log2 = 52 + (dblExponent x + 1073) :=
      Nat.le_antisymm (by have := (Nat.log2_lt hne).mpr (wideMagnitude_lt_of_normal x hx); omega) ((Nat.le_log2 hne).mpr hle)
    have hunit : gridUnit (wideMagnitude x) = 2 ^ (dblExponent x + 1073) := by
      rw [gridUnit, hlog, max_eq_left (by omega), Nat.add_sub_cancel_left]
    rw [hunit, wideMagnitude_of_normal x hx, Nat.mul_div_cancel _ (Nat.two_pow_pos _)]
    have hparity : (2 ^ 52 + dblFraction x) % 2 = dblFraction x % 2 := by omega
    rw [hparity]

end Sys2Proof.Machine
end


section
/-! Proofs/Rounding.lean: rounding a magnitude to a multiple of a unit (40_fma_element.md rule R90). In every mode the answer is
the candidate below or above, by one condition (`roundsUp`); which numbers lie between, and which is nearest. -/

namespace Sys2Proof.Machine

/-! ## The two candidates -/

/-- The candidate above is chosen for a magnitude that is no multiple of the unit. -/
def roundsUp (rc : RoundingMode) (negative : Bool) (m q : Nat) : Bool :=
  match rc with
  | .nearest => decide (q < 2 * (m % q) ∨ 2 * (m % q) = q ∧ m / q % 2 = 1)
  | .down => negative
  | .up => !negative
  | .zero => false

theorem roundsUp_nearest_iff (negative : Bool) (m q : Nat) :
    roundsUp .nearest negative m q = true ↔ q < 2 * (m % q) ∨ 2 * (m % q) = q ∧ m / q % 2 = 1 := decide_eq_true_iff

theorem roundTo_of_not_multiple (rc : RoundingMode) (negative : Bool) (m q : Nat) (h : m % q ≠ 0) :
    roundTo rc negative m q = if roundsUp rc negative m q then m / q * q + q else m / q * q := by
  have hsplit : m = m / q * q + m % q := by rw [Nat.mul_comm]; exact (Nat.div_add_mod m q).symm
  have hrest : m - m / q * q = m % q := by omega
  have hne : ¬ m = m / q * q := by omega
  simp only [roundTo, hrest]
  rw [if_neg hne]
  cases rc with
  | nearest =>
    have hup := roundsUp_nearest_iff negative m q
    simp only
    by_cases hlow : 2 * (m % q) < q
    · rw [if_pos hlow, if_neg (by rw [hup]; omega)]
    · rw [if_neg hlow]
      by_cases hhigh : q < 2 * (m % q)
      · rw [if_pos hhigh, if_pos (by rw [hup]; omega)]
      · rw [if_neg hhigh]
        by_cases heven : m / q % 2 = 0
        · rw [if_pos heven, if_neg (by rw [hup]; omega)]
        · rw [if_neg heven, if_pos (by rw [hup]; omega)]
  | down => cases negative <;> rfl
  | up => cases negative <;> rfl
  | zero => rfl

section RoundTo

variable (rc : RoundingMode) (negative : Bool) (m q : Nat)

theorem le_roundTo_low : m / q * q ≤ roundTo rc negative m q := by
  rcases roundTo_cases rc negative m q with ⟨_, h⟩ | ⟨_, h | h⟩
  · rw [h]
    exact Nat.div_mul_le_self m q
  · rw [h]
  · rw [h]
    exact Nat.le_add_right _ _

theorem roundTo_le_high (hq : 0 < q) : roundTo rc negative m q ≤ m / q * q + q := by
  rcases roundTo_cases rc negative m q with ⟨_, h⟩ | ⟨_, h | h⟩
  · rw [h]
    exact (Nat.lt_div_mul_add hq).le
  · rw [h]
    exact Nat.le_add_right _ _
  · rw [h]

theorem dvd_roundTo : q ∣ roundTo rc negative m q := by
  rcases roundTo_cases rc negative m q with ⟨hm, h⟩ | ⟨_, h | h⟩
  · rw [h]
    exact Nat.dvd_of_mod_eq_zero hm
  · rw [h]
    exact Nat.dvd_mul_left _ _
  · rw [h, ← Nat.succ_mul]
    exact Nat.dvd_mul_left _ _

/-- Rounding does not cross a multiple of the unit, upwards. -/
theorem roundTo_le_of_dvd (b : Nat) (hq : 0 < q) (hb : q ∣ b) (h : m ≤ b) : roundTo rc negative m q ≤ b := by
  by_cases hm : m % q = 0
  · rwa [roundTo_multiple rc negative m q hm]
  · obtain ⟨k, rfl⟩ := hb
    have hlt : m / q < k := by
      rw [Nat.div_lt_iff_lt_mul hq, Nat.mul_comm]
      exact lt_of_le_of_ne h fun heq => hm (by rw [heq, Nat.mul_mod_right])
    calc roundTo rc negative m q ≤ m / q * q + q := roundTo_le_high rc negative m q hq
      _ = (m / q + 1) * q := (Nat.succ_mul _ _).symm
      _ ≤ k * q := Nat.mul_le_mul_right q hlt
      _ = q * k := Nat.mul_comm _ _

/-- Rounding does not cross a multiple of the unit, downwards. -/
theorem le_roundTo_of_dvd (b : Nat) (hb : q ∣ b) (h : b ≤ m) : b ≤ roundTo rc negative m q :=
  calc b = b / q * q := (Nat.div_mul_cancel hb).symm
    _ ≤ m / q * q := Nat.mul_le_mul_right q (Nat.div_le_div_right h)
    _ ≤ roundTo rc negative m q := le_roundTo_low rc negative m q

end RoundTo

/-! ## The directed modes -/

theorem roundTo_le_of_not_up (rc : RoundingMode) (negative : Bool) (m q : Nat) (h : roundsUp rc negative m q = false) :
    roundTo rc negative m q ≤ m := by
  by_cases hm : m % q = 0
  · rw [roundTo_multiple rc negative m q hm]
  · rw [roundTo_of_not_multiple rc negative m q hm, h, if_neg Bool.false_ne_true]
    exact Nat.div_mul_le_self m q

/-- Truncated, no number of the grid lies between the result and the magnitude. -/
theorem le_roundTo_of_off_gap (rc : RoundingMode) (negative : Bool) (m q y : Nat)
    (hy : y ≤ m / q * q ∨ m / q * q + q ≤ y) (hq : 0 < q) (h : y ≤ m) : y ≤ roundTo rc negative m q := by
  have hlt := Nat.lt_div_mul_add (a := m) hq
  have hlow := le_roundTo_low rc negative m q
  omega

theorem le_roundTo_of_up (rc : RoundingMode) (negative : Bool) (m q : Nat) (hq : 0 < q)
    (h : roundsUp rc negative m q = true) : m ≤ roundTo rc negative m q := by
  by_cases hm : m % q = 0
  · rw [roundTo_multiple rc negative m q hm]
  · rw [roundTo_of_not_multiple rc negative m q hm, h, if_pos rfl]
    exact (Nat.lt_div_mul_add hq).le

/-- Rounded away from zero, no number of the grid lies between the magnitude and the result. -/
theorem roundTo_le_of_off_gap (rc : RoundingMode) (negative : Bool) (m q y : Nat)
    (hy : y ≤ m / q * q ∨ m / q * q + q ≤ y) (hq : 0 < q) (h : m ≤ y) : roundTo rc negative m q ≤ y := by
  by_cases hm : m % q = 0
  · rwa [roundTo_multiple rc negative m q hm]
  · have hsplit : m = m / q * q + m % q := by rw [Nat.mul_comm]; exact (Nat.div_add_mod m q).symm
    have hhigh := roundTo_le_high rc negative m q hq
    omega

/-! ## The nearest number -/

/-- No number of the grid is nearer than the result. -/
theorem nearest_dist_le (negative : Bool) (m q y : Nat) (hq : 0 < q) (hy : y ≤ m / q * q ∨ m / q * q + q ≤ y) :
    ((m : Int) - roundTo .nearest negative m q).natAbs ≤ ((m : Int) - y).natAbs := by
  by_cases hm : m % q = 0
  · rw [roundTo_multiple .nearest negative m q hm, Int.sub_self]
    exact Nat.zero_le _
  · have hsplit : m = m / q * q + m % q := by rw [Nat.mul_comm]; exact (Nat.div_add_mod m q).symm
    have hlt := Nat.mod_lt m hq
    rw [roundTo_of_not_multiple .nearest negative m q hm]
    generalize m / q * q = lo at hsplit hy ⊢
    generalize hrest : m % q = rest at hsplit hlt
    split
    case isTrue hup =>
      rw [roundsUp_nearest_iff, hrest] at hup
      omega
    case isFalse hup =>
      rw [roundsUp_nearest_iff, hrest] at hup
      omega

/-- Where another number of the grid is as near, the result is an even multiple of the unit. -/
theorem nearest_tie_even (negative : Bool) (m q y : Nat) (hq : 0 < q) (hy : y ≤ m / q * q ∨ m / q * q + q ≤ y)
    (hne : y ≠ roundTo .nearest negative m q)
    (heq : ((m : Int) - roundTo .nearest negative m q).natAbs = ((m : Int) - y).natAbs) :
    roundTo .nearest negative m q / q % 2 = 0 := by
  by_cases hm : m % q = 0
  · rw [roundTo_multiple .nearest negative m q hm] at hne heq
    omega
  · have hsplit : m = m / q * q + m % q := by rw [Nat.mul_comm]; exact (Nat.div_add_mod m q).symm
    have hlt := Nat.mod_lt m hq
    rw [roundTo_of_not_multiple .nearest negative m q hm] at hne heq ⊢
    split
    case isTrue hup =>
      rw [if_pos hup] at hne heq
      rw [roundsUp_nearest_iff] at hup
      rw [← Nat.succ_mul, Nat.mul_div_cancel _ hq]
      generalize m / q * q = lo at *
      omega
    case isFalse hup =>
      rw [if_neg hup] at hne heq
      rw [roundsUp_nearest_iff] at hup
      rw [Nat.mul_div_cancel _ hq]
      generalize m / q * q = lo at *
      omega

/-! ## A unit and its double -/

/-- A magnitude above an odd multiple of a unit that is rounded up, is rounded up to the same number by the double of the
unit. -/
theorem roundTo_double (rc : RoundingMode) (negative : Bool) (m q : Nat) (hq : 0 < q) (hm : m % q ≠ 0)
    (hup : roundsUp rc negative m q = true) (hodd : m / q % 2 = 1) :
    roundTo rc negative m (q * 2) = m / q * q + q := by
  have hquot : m / (q * 2) = m / q / 2 := (Nat.div_div_eq_div_mul m q 2).symm
  have hrest : m % (q * 2) = m % q + q := by rw [Nat.mod_mul, hodd, Nat.mul_one]
  have hlt := Nat.mod_lt m hq
  have hup2 : roundsUp rc negative m (q * 2) = true := by
    cases rc with
    | nearest =>
      rw [roundsUp_nearest_iff, hrest]
      omega
    | down => exact hup
    | up => exact hup
    | zero => exact hup
  rw [roundTo_of_not_multiple rc negative m (q * 2) (by omega), hup2, if_pos rfl, hquot]
  have hdouble : m / q = m / q / 2 * 2 + 1 := by omega
  calc m / q / 2 * (q * 2) + q * 2 = (m / q / 2 * 2 + 1) * q + q := by ring
    _ = m / q * q + q := by rw [← hdouble]

end Sys2Proof.Machine
end


section
/-! Proofs/RoundedSum.lean: the exact sum, rounded and encoded (40_fma_element.md rules R90, R93, R94). Without overflow the
result is the value of the sum rounded to the grid around it, tiny or not (`roundSum_encodes`). -/

namespace Sys2Proof.Machine

/-! ## What `encode` answers (rule R81) -/

/-- A finite value of a sign and a magnitude. -/
structure Encodes (w : Quad) (negative : Bool) (m : Nat) : Prop where
  finite : dblExponent w ≠ 2047
  sign : dblSign w = negative
  wide : wideMagnitude w = m

theorem fields_withSign (negative : Bool) (e f : Nat) (he : e < 2047) (hf : f < 2 ^ 52) :
    dblExponent (withSign negative (e * 2 ^ 52 + f)) = e ∧ dblFraction (withSign negative (e * 2 ^ 52 + f)) = f ∧
      dblSign (withSign negative (e * 2 ^ 52 + f)) = negative := by
  have hbits : e * 2 ^ 52 + f < 2 ^ 63 := by omega
  rw [dblExponent_withSign _ _ hbits, dblFraction_withSign _ _ hbits, dblSign_withSign _ _ hbits]
  exact ⟨by omega, by omega, rfl⟩

theorem encodes_zero (negative : Bool) : Encodes (signedZero negative) negative 0 := by
  have hzero : ∀ p, dblExponent (signedZero p) ≠ 2047 ∧ dblSign (signedZero p) = p ∧ isZero (signedZero p) = true := by decide
  obtain ⟨hfinite, hsign, hz⟩ := hzero negative
  exact ⟨hfinite, hsign, (wideMagnitude_eq_zero_iff _).mpr hz⟩

/-- A multiple of `2^-1074` up to `2^-1022`. -/
theorem encodes_denormal (negative : Bool) (f : Nat) (h : f ≤ 2 ^ 52) :
    Encodes (encodeDenormal negative (f * 2 ^ 1074)) negative (f * 2 ^ 1074) := by
  have hsplit : f = f / 2 ^ 52 * 2 ^ 52 + f % 2 ^ 52 := by omega
  have hcode : encodeDenormal negative (f * 2 ^ 1074) = withSign negative (f / 2 ^ 52 * 2 ^ 52 + f % 2 ^ 52) := by
    rw [encodeDenormal, denormalUnit_eq, Nat.mul_div_cancel _ (Nat.two_pow_pos 1074), ← hsplit]
  obtain ⟨hexponent, hfraction, hsign⟩ := fields_withSign negative (f / 2 ^ 52) (f % 2 ^ 52) (by omega) (by omega)
  rw [hcode]
  refine ⟨by rw [hexponent]; omega, hsign, ?_⟩
  by_cases hlt : f < 2 ^ 52
  · rw [wideMagnitude_of_zero_exponent _ (by rw [hexponent]; omega), hfraction, Nat.mod_eq_of_lt hlt]
  · obtain rfl : f = 2 ^ 52 := by omega
    rw [wideMagnitude_of_normal _ (by rw [hexponent]; decide), hfraction, hexponent, Nat.mod_self, Nat.div_self (by decide),
      Nat.add_zero, show 1 + 1073 = 1074 from rfl]

theorem maxMagnitude_lt : maxMagnitude < 2 ^ (53 + 3119) := by
  rw [maxMagnitude_eq]
  exact mul_two_pow_lt _ 53 3119 (by decide)

/-- A number at place `j` is at least `2^j`; the exponents are variables, so that no power is evaluated. -/
theorem two_pow_le_mul (i j k : Nat) (hij : i ≤ j) (hk : 0 < k) : 2 ^ i ≤ k * 2 ^ j :=
  (Nat.pow_le_pow_right (by decide) hij).trans (Nat.le_mul_of_pos_left _ hk)

theorem eq_of_mul_two_pow_eq {a b : Nat} (e : Nat) (h : a * 2 ^ e = b * 2 ^ e) : a = b :=
  Nat.eq_of_mul_eq_mul_right (Nat.two_pow_pos e) h

theorem minNormal_le_max : 2 ^ 1126 ≤ maxMagnitude := by
  rw [maxMagnitude_eq]
  exact two_pow_le_mul 1126 3119 _ (by decide) (by decide)

/-- A normal magnitude of 53 significant bits. -/
theorem encodes_normal (negative : Bool) (r : Nat) (hmin : 2 ^ 1126 ≤ r) (hmax : r ≤ maxMagnitude)
    (hdvd : 2 ^ (r.log2 - 52) ∣ r) : Encodes (encodeNormal negative r) negative r := by
  have hr : r ≠ 0 := by have := Nat.two_pow_pos 1126; omega
  have hlow : 1126 ≤ r.log2 := (Nat.le_log2 hr).mpr hmin
  have hhigh : r.log2 < 53 + 3119 := (Nat.log2_lt hr).mpr (lt_of_le_of_lt hmax maxMagnitude_lt)
  obtain ⟨k, hk⟩ := hdvd
  have hquot : r / 2 ^ (r.log2 - 52) = k := Nat.div_eq_of_eq_mul_right (Nat.two_pow_pos _) hk
  have hk52 : 2 ^ 52 ≤ k := by
    rw [← hquot, Nat.le_div_iff_mul_le (Nat.two_pow_pos _), ← Nat.pow_add, show 52 + (r.log2 - 52) = r.log2 by omega]
    exact Nat.log2_self_le hr
  have hk53 : k < 2 ^ 53 := by
    rw [← hquot, Nat.div_lt_iff_lt_mul (Nat.two_pow_pos _), ← Nat.pow_add, show 53 + (r.log2 - 52) = r.log2 + 1 by omega]
    exact Nat.lt_log2_self
  obtain ⟨hexponent, hfraction, hsign⟩ := fields_withSign negative (r.log2 - 1125) (k - 2 ^ 52) (by omega) (by omega)
  rw [encodeNormal, hquot]
  refine ⟨by rw [hexponent]; omega, hsign, ?_⟩
  rw [wideMagnitude_of_normal _ (by rw [hexponent]; omega), hfraction, hexponent, show 2 ^ 52 + (k - 2 ^ 52) = k by omega,
    show r.log2 - 1125 + 1073 = r.log2 - 52 by omega, Nat.mul_comm, ← hk]

/-- A finite value is determined by its sign and its magnitude. -/
theorem eq_of_encodes (w y : Quad) (hw : Encodes w (dblSign y) (wideMagnitude y)) : w = y := by
  have hfw := dblFraction_lt w
  have hfy := dblFraction_lt y
  have hwide := hw.wide
  have hfields : dblExponent w = dblExponent y ∧ dblFraction w = dblFraction y := by
    by_cases hew : dblExponent w = 0
    · have hltw := wideMagnitude_lt_of_zero_exponent w hew
      have hey : dblExponent y = 0 := by
        by_contra hey
        have hle := le_wideMagnitude_of_normal y hey
        have := (Nat.pow_lt_pow_iff_right (a := 2) (by decide)).mp (lt_of_le_of_lt hle (hwide ▸ hltw))
        omega
      rw [wideMagnitude_of_zero_exponent w hew, wideMagnitude_of_zero_exponent y hey] at hwide
      exact ⟨hew.trans hey.symm, eq_of_mul_two_pow_eq 1074 hwide⟩
    · have hlew := le_wideMagnitude_of_normal w hew
      have hltw := wideMagnitude_lt_of_normal w hew
      have hey : dblExponent y ≠ 0 := by
        intro hey
        have := (Nat.pow_lt_pow_iff_right (a := 2) (by decide)).mp
          (lt_of_le_of_lt (hwide ▸ hlew) (wideMagnitude_lt_of_zero_exponent y hey))
        omega
      have hle := (Nat.pow_lt_pow_iff_right (a := 2) (by decide)).mp
        (lt_of_le_of_lt (hwide ▸ hlew) (wideMagnitude_lt_of_normal y hey))
      have hge := (Nat.pow_lt_pow_iff_right (a := 2) (by decide)).mp
        (lt_of_le_of_lt (le_wideMagnitude_of_normal y hey) (hwide ▸ hltw))
      have hexponent : dblExponent w = dblExponent y := by omega
      rw [wideMagnitude_of_normal w hew, wideMagnitude_of_normal y hey, hexponent] at hwide
      have hsig := eq_of_mul_two_pow_eq _ hwide
      exact ⟨hexponent, by omega⟩
  rw [← withSign_fields w, ← withSign_fields y, hw.sign, hfields.1, hfields.2]

/-! ## 53 bits and the grid -/

section Round53

variable (rc : RoundingMode) (negative : Bool) (m : Nat) (hm : m ≠ 0)
include hm

theorem two_pow_log2_le_round53 : 2 ^ m.log2 ≤ round53 rc negative m :=
  le_roundTo_of_dvd rc negative m _ _ (two_pow_dvd (Nat.sub_le _ _)) (Nat.log2_self_le hm)

omit hm in
theorem round53_le_two_pow : round53 rc negative m ≤ 2 ^ (m.log2 + 1) :=
  roundTo_le_of_dvd rc negative m _ _ (Nat.two_pow_pos _) (two_pow_dvd (by omega)) Nat.lt_log2_self.le

/-- What is rounded to 53 bits has at most 53 significant bits. -/
theorem two_pow_dvd_round53 : 2 ^ ((round53 rc negative m).log2 - 52) ∣ round53 rc negative m := by
  have hle := round53_le_two_pow rc negative m
  rcases Nat.lt_or_eq_of_le hle with hlt | heq
  · have hne : round53 rc negative m ≠ 0 := by
      have := two_pow_log2_le_round53 rc negative m hm
      have := Nat.two_pow_pos m.log2
      omega
    have hlog := (Nat.log2_lt hne).mpr hlt
    exact (two_pow_dvd (by omega)).trans (dvd_roundTo rc negative m (2 ^ (m.log2 - 52)))
  · rw [heq, Nat.log2_two_pow]
    exact two_pow_dvd (Nat.sub_le _ _)

/-- A tiny magnitude lies where the grid has the unit `2^-1074`. -/
theorem log2_of_tiny (h : round53 rc negative m < 2 ^ 1126) : m.log2 < 1126 :=
  (Nat.pow_lt_pow_iff_right (a := 2) (by decide)).mp (lt_of_le_of_lt (two_pow_log2_le_round53 rc negative m hm) h)

theorem gridUnit_of_tiny (h : round53 rc negative m < 2 ^ 1126) : gridUnit m = 2 ^ 1074 := by
  have hlog := log2_of_tiny rc negative m hm h
  rw [gridUnit, max_eq_right (by omega)]

omit hm in
/-- A sum that is not tiny after rounding to 53 bits is rounded to the grid by that, below `2^-1022` too. -/
theorem round53_eq_roundTo_grid (h : 2 ^ 1126 ≤ round53 rc negative m) :
    round53 rc negative m = roundTo rc negative m (gridUnit m) := by
  by_cases hlog : 1126 ≤ m.log2
  · rw [gridUnit, max_eq_left (by omega)]
    rfl
  · have hhigh := round53_le_two_pow rc negative m
    have h1125 : m.log2 = 1125 := by
      have := (Nat.pow_le_pow_iff_right (a := 2) (by decide)).mp (h.trans hhigh)
      omega
    have hunit : gridUnit m = 2 ^ 1073 * 2 := by
      rw [gridUnit, max_eq_right (by omega), show 1074 = 1073 + 1 from rfl, Nat.pow_succ]
    rw [round53, h1125] at h hhigh ⊢
    rw [show 1125 - 52 = 1073 from rfl] at h hhigh ⊢
    rw [show 1125 + 1 = 1126 from rfl] at hhigh
    have hlt : m < 2 ^ 1126 := by
      have := Nat.lt_log2_self (n := m)
      rwa [h1125] at this
    have hrem : m % 2 ^ 1073 ≠ 0 := fun hzero => by
      rw [roundTo_multiple rc negative m _ hzero] at h
      omega
    have hup : roundsUp rc negative m (2 ^ 1073) = true := Bool.of_not_eq_false fun hdown => by
      have := roundTo_le_of_not_up rc negative m _ hdown
      omega
    have hvalue := roundTo_of_not_multiple rc negative m _ hrem
    rw [hup, if_pos rfl] at hvalue
    have hodd : m / 2 ^ 1073 % 2 = 1 := by
      have hquot : (m / 2 ^ 1073 + 1) * 2 ^ 1073 = 2 ^ 53 * 2 ^ 1073 := by
        rw [Nat.succ_mul, ← hvalue, ← Nat.pow_add, show 53 + 1073 = 1126 from rfl]
        exact Nat.le_antisymm hhigh h
      have := eq_of_mul_two_pow_eq 1073 hquot
      omega
    rw [hunit, roundTo_double rc negative m _ (Nat.two_pow_pos 1073) hrem hup hodd, hvalue]

end Round53

/-! ## The rounded sum -/

section RoundSum

variable (rc : RoundingMode) (f : BitVec 6) (x : Int)

/-- Step 12. -/
theorem roundSum_of_tiny (h : round53 rc (decide (x < 0)) x.natAbs < 2 ^ 1126) :
    roundSum rc false f x =
      ⟨encodeDenormal (decide (x < 0)) (roundTo rc (decide (x < 0)) x.natAbs (2 ^ 1074)),
        f ||| flagIf (roundTo rc (decide (x < 0)) x.natAbs (2 ^ 1074) != x.natAbs) (flagUE ||| flagPE), true⟩ := by
  have hmax : ¬ maxMagnitude < round53 rc (decide (x < 0)) x.natAbs := by
    have := minNormal_le_max
    omega
  rw [← minNormalMagnitude_eq] at h
  simp only [roundSum, if_neg hmax, if_pos h, Bool.false_eq_true, if_false, denormalUnit_eq]

/-- Step 13. -/
theorem roundSum_of_normal (ftz : Bool) (hmax : round53 rc (decide (x < 0)) x.natAbs ≤ maxMagnitude)
    (h : 2 ^ 1126 ≤ round53 rc (decide (x < 0)) x.natAbs) :
    roundSum rc ftz f x =
      ⟨encodeNormal (decide (x < 0)) (round53 rc (decide (x < 0)) x.natAbs),
        f ||| flagIf (round53 rc (decide (x < 0)) x.natAbs != x.natAbs) flagPE, false⟩ := by
  rw [← minNormalMagnitude_eq] at h
  simp only [roundSum, if_neg (Nat.not_lt.mpr hmax), if_neg (Nat.not_lt.mpr h)]

/-- Without overflow the result is the sum rounded to its grid, tiny or not. -/
theorem roundSum_encodes (hx : x ≠ 0) (hmax : round53 rc (decide (x < 0)) x.natAbs ≤ maxMagnitude) :
    Encodes (roundSum rc false f x).result (decide (x < 0)) (roundTo rc (decide (x < 0)) x.natAbs (gridUnit x.natAbs)) := by
  have hm : x.natAbs ≠ 0 := Int.natAbs_ne_zero.mpr hx
  rcases Nat.lt_or_ge (round53 rc (decide (x < 0)) x.natAbs) (2 ^ 1126) with htiny | hnormal
  · have hlog := log2_of_tiny rc _ _ hm htiny
    have hunit := gridUnit_of_tiny rc _ _ hm htiny
    obtain ⟨k, hk⟩ := dvd_roundTo rc (decide (x < 0)) x.natAbs (2 ^ 1074)
    have hle : 2 ^ 1074 * k ≤ 2 ^ 1074 * 2 ^ 52 := by
      rw [← hk, ← Nat.pow_add, show 1074 + 52 = 1126 from rfl]
      refine roundTo_le_of_dvd rc _ _ _ _ (Nat.two_pow_pos 1074) (two_pow_dvd (by decide)) ?_
      exact (Nat.lt_log2_self.trans_le (Nat.pow_le_pow_right (by decide) (by omega))).le
    rw [roundSum_of_tiny rc f x htiny, hunit, hk, Nat.mul_comm]
    exact encodes_denormal _ k (Nat.le_of_mul_le_mul_left hle (Nat.two_pow_pos 1074))
  · rw [roundSum_of_normal rc f x false hmax hnormal, ← round53_eq_roundTo_grid rc _ _ hnormal]
    exact encodes_normal _ _ hnormal hmax (two_pow_dvd_round53 rc _ _ hm)

/-- In every mode, with overflow or not, the result has the sign of the sum. -/
theorem dblSign_roundSum (hx : x ≠ 0) : dblSign (roundSum rc false f x).result = decide (x < 0) := by
  rcases Nat.lt_or_ge maxMagnitude (round53 rc (decide (x < 0)) x.natAbs) with hover | hmax
  · have hsign : ∀ rc p, dblSign (Machine.overflowResult rc p) = p := by
      intro rc p
      cases rc <;> cases p <;> decide
    rw [roundSum_of_overflow rc false f x hover, hsign]
  · exact (roundSum_encodes rc f x hx hmax).sign

end RoundSum

/-! ## The parity of the result -/

theorem gridUnit_eq (m : Nat) : gridUnit m = 2 ^ (max m.log2 1126 - 52) := by
  rw [gridUnit, show max (m.log2 - 52) 1074 = max m.log2 1126 - 52 by omega]

/-- An even multiple of the unit around a magnitude is one on its own grid too. -/
theorem even_on_own_grid (rc : RoundingMode) (negative : Bool) (m : Nat) (hm : m ≠ 0)
    (heven : roundTo rc negative m (gridUnit m) / gridUnit m % 2 = 0) :
    roundTo rc negative m (gridUnit m) / gridUnit (roundTo rc negative m (gridUnit m)) % 2 = 0 := by
  have hunit := gridUnit_eq m
  have hpow (b : Nat) (hb : 52 ≤ b) : 2 ^ b / 2 ^ (b - 52) % 2 = 0 := by
    rw [Nat.pow_div (by omega) (by decide), show b - (b - 52) = 52 by omega]
  have hlow : 1126 < m.log2 → 2 ^ m.log2 ≤ roundTo rc negative m (gridUnit m) := fun hlog => by
    refine le_roundTo_of_dvd rc negative m _ _ ?_ (Nat.log2_self_le hm)
    rw [hunit]
    exact two_pow_dvd (by omega)
  have hhigh : roundTo rc negative m (gridUnit m) ≤ 2 ^ (max m.log2 1126 + 1) := by
    refine roundTo_le_of_dvd rc negative m _ _ (gridUnit_pos m) ?_ ?_
    · rw [hunit]
      exact two_pow_dvd (by omega)
    · exact (Nat.lt_log2_self.trans_le (Nat.pow_le_pow_right (by decide) (by omega))).le
  generalize roundTo rc negative m (gridUnit m) = r at heven hlow hhigh ⊢
  rcases Nat.lt_or_eq_of_le hhigh with hlt | rfl
  · have hsame : gridUnit r = gridUnit m := by
      rw [hunit, gridUnit_eq]
      by_cases hr : r = 0
      · have hlog : ¬ 1126 < m.log2 := fun hlog => by
          have := hlow hlog
          have := Nat.two_pow_pos m.log2
          omega
        rw [hr, Nat.log2_zero, show max 0 1126 = max m.log2 1126 by omega]
      · have hle := (Nat.log2_lt hr).mpr hlt
        have hge : 1126 < m.log2 → m.log2 ≤ r.log2 := fun hlog => (Nat.le_log2 hr).mpr (hlow hlog)
        rw [show max r.log2 1126 = max m.log2 1126 by omega]
    rwa [hsame]
  · rw [gridUnit_eq, Nat.log2_two_pow, show max (max m.log2 1126 + 1) 1126 = max m.log2 1126 + 1 by omega]
    exact hpow _ (by omega)

end Sys2Proof.Machine
end


section
/-! Proofs/FiniteResults.lean: the result of `FmaElem` for finite operands against the exact sum (40_fma_element.md rules R90,
R92 to R95 and R98): exact where it can be, nearest, on its side in the directed modes, and the flags of what is lost. -/

namespace Sys2Proof.FiniteResults

open Machine

/-! ## Signed values -/

theorem signedValue_sign_natAbs (x : Int) : signedValue (decide (x < 0)) x.natAbs = x := by
  rw [signedValue]
  by_cases hx : x < 0
  · rw [if_pos (decide_eq_true hx)]
    omega
  · rw [if_neg (by simpa using hx)]
    omega

theorem signedValue_inj (negative : Bool) (m n : Nat) : signedValue negative m = signedValue negative n ↔ m = n := by
  cases negative <;> simp [signedValue]

/-- A finite value of magnitude 0 is 0, whatever its sign. -/
theorem signedValue_zero (negative : Bool) : signedValue negative 0 = 0 := by cases negative <;> rfl

theorem dist_signedValue (negative : Bool) (m n : Nat) :
    (signedValue negative m - signedValue negative n).natAbs = ((m : Int) - n).natAbs := by
  cases negative
  · rfl
  · simp only [signedValue, if_true]
    omega

theorem natAbs_signedValue (negative : Bool) (m : Nat) : (signedValue negative m).natAbs = m := by
  cases negative
  · rfl
  · simp only [signedValue, if_true]
    omega

theorem decide_signedValue_neg (negative : Bool) (m : Nat) (hm : m ≠ 0) :
    decide (signedValue negative m < 0) = negative := by
  cases negative
  · simp [signedValue]
  · simp [signedValue, Nat.pos_of_ne_zero hm]

theorem scaledValue_of_encodes {w : Quad} {negative : Bool} {m : Nat} (h : Encodes w negative m) :
    scaledValue w * 2 ^ 1074 = signedValue negative m := by rw [scaledValue_wide, h.sign, h.wide]

/-- A distance to a value is at least the distance to the magnitude of that value on the side of the sum, or else to 0. -/
theorem dist_to_side (negative sign : Bool) (m y : Nat) :
    ∃ y', (y' = y ∨ y' = 0) ∧ ((m : Int) - y').natAbs ≤ (signedValue negative m - signedValue sign y).natAbs ∧
      (((m : Int) - y').natAbs = (signedValue negative m - signedValue sign y).natAbs →
        signedValue sign y = signedValue negative y') := by
  by_cases hsame : sign = negative
  · rw [hsame, dist_signedValue]
    exact ⟨y, .inl rfl, le_refl _, fun _ => rfl⟩
  · obtain rfl : sign = !negative := Bool.eq_not_of_ne hsame
    refine ⟨0, .inr rfl, ?_⟩
    cases negative <;> simp only [signedValue, Bool.not_true, Bool.not_false, if_true, Bool.false_eq_true, if_false] <;> omega

/-! ## `FmaElem` of finite operands -/

section Finite

variable (rc : RoundingMode) (ftz : Bool) (a b c : Quad) (ha : dblExponent a ≠ 2047) (hb : dblExponent b ≠ 2047)
  (hc : dblExponent c ≠ 2047)
include ha hb hc

theorem fmaElem_finiteSum : fmaElem rc false ftz false a b c = finiteSum rc ftz (denormalFlag a b c) a b c := by
  have h := fmaElem_of_finite rc false ftz false a b c ha hb hc
  simpa only [conditionInput_false, negateIf_false] using h

theorem fmaElem_of_zero_sum (hx : exactSum a b c = 0) :
    fmaElem rc false ftz false a b c = ⟨signedZero (zeroSign rc a b c), denormalFlag a b c, false⟩ := by
  rw [fmaElem_finiteSum rc ftz a b c ha hb hc, finiteSum_of_zero _ _ _ _ _ _ hx]

theorem fmaElem_of_nonzero_sum (hx : exactSum a b c ≠ 0) :
    fmaElem rc false ftz false a b c = roundSum rc ftz (denormalFlag a b c) (exactSum a b c) :=
  (fmaElem_finiteSum rc ftz a b c ha hb hc).trans (if_neg hx)

end Finite

/-! ## Exact results (rule R98 (P2)) -/

/-- A sum that is a value needs no rounding. -/
theorem round53_wideMagnitude (rc : RoundingMode) (negative : Bool) (r : Quad) (hr : wideMagnitude r ≠ 0) :
    round53 rc negative (wideMagnitude r) = wideMagnitude r :=
  roundTo_multiple rc negative _ _
    (Nat.mod_eq_zero_of_dvd (two_pow_dvd_wideMagnitude r _ (Nat.log2_self_le hr)))

/-- Rounding a sum that is a nonzero value gives that value and no flag. -/
theorem roundSum_of_value (rc : RoundingMode) (ftz : Bool) (f : BitVec 6) (r : Quad) (hfinite : dblExponent r ≠ 2047)
    (hr : wideMagnitude r ≠ 0) (hftz : ftz = false ∨ dblExponent r ≠ 0) :
    roundSum rc ftz f (signedValue (dblSign r) (wideMagnitude r)) = ⟨r, f, dblExponent r == 0⟩ := by
  have hneg := decide_signedValue_neg (dblSign r) (wideMagnitude r) hr
  have habs := natAbs_signedValue (dblSign r) (wideMagnitude r)
  have hround := round53_wideMagnitude rc (dblSign r) r hr
  have hmax := wideMagnitude_le_max r hfinite
  by_cases hexponent : dblExponent r = 0
  · have hlt := wideMagnitude_lt_of_zero_exponent r hexponent
    have hkept : roundTo rc (dblSign r) (wideMagnitude r) (2 ^ 1074) = wideMagnitude r :=
      roundTo_multiple rc _ _ _ (Nat.mod_eq_zero_of_dvd (denormalUnit_dvd r))
    have hencodes : encodeDenormal (dblSign r) (wideMagnitude r) = r := by
      refine eq_of_encodes _ _ ?_
      rw [wideMagnitude_of_zero_exponent r hexponent]
      exact encodes_denormal _ _ (dblFraction_lt r).le
    obtain rfl : ftz = false := hftz.resolve_right (not_not.mpr hexponent)
    rw [roundSum_of_tiny rc f _ (by rw [hneg, habs, hround]; exact hlt), hneg, habs, hkept, hencodes, bne_self_eq_false, hexponent]
    exact congrArg (FmaResult.mk r · true) BitVec.or_zero
  · have hle : 2 ^ 1126 ≤ wideMagnitude r :=
      (Nat.pow_le_pow_right (by decide) (by omega)).trans (le_wideMagnitude_of_normal r hexponent)
    have hencodes : encodeNormal (dblSign r) (wideMagnitude r) = r :=
      eq_of_encodes _ _ (encodes_normal _ _ hle hmax (two_pow_dvd_wideMagnitude r _ (Nat.log2_self_le hr)))
    have htiny : (dblExponent r == 0) = false := beq_eq_false_iff_ne.mpr hexponent
    rw [roundSum_of_normal rc f _ ftz (by rw [hneg, habs, hround]; exact hmax) (by rw [hneg, habs, hround]; exact hle), hneg, habs,
      hround, hencodes, bne_self_eq_false, htiny]
    exact congrArg (FmaResult.mk r · false) BitVec.or_zero

/-- Settles O51: the exact sum is the value `r`, which rounding and encoding keep. -/
theorem representableSumIsExact : Obligations.RepresentableSumIsExact := by
  intro rc ftz a b c r ha hb hc hfinite hzero hftz hsum
  have hr : wideMagnitude r ≠ 0 := fun h => Bool.false_ne_true (hzero.symm.trans ((wideMagnitude_eq_zero_iff r).mp h))
  have hx : exactSum a b c = signedValue (dblSign r) (wideMagnitude r) := hsum.trans (scaledValue_wide r)
  have hne : exactSum a b c ≠ 0 := by
    rw [hx, ← signedValue_zero (dblSign r)]
    exact fun h => hr ((signedValue_inj _ _ _).mp h)
  rw [fmaElem_of_nonzero_sum rc ftz a b c ha hb hc hne, hx, roundSum_of_value rc ftz _ r hfinite hr hftz]
  rfl

/-! ## Round to nearest (rule R90) -/

theorem dblExponent_overflowResult_nearest (negative : Bool) :
    dblExponent (Machine.overflowResult .nearest negative) = 2047 := by cases negative <;> decide

/-- Settles O52: without overflow the result is the nearest point of the grid, and no value lies strictly between two points of
it. -/
theorem nearestResultIsNearest : Obligations.NearestResultIsNearest := by
  intro a b c y ha hb hc x r hr _
  by_cases hx : x = 0
  · have hresult : Encodes r (zeroSign .nearest a b c) 0 := by
      have h : r = signedZero (zeroSign .nearest a b c) :=
        congrArg FmaResult.result (fmaElem_of_zero_sum .nearest false a b c ha hb hc hx)
      rw [h]
      exact encodes_zero _
    have hvalue := scaledValue_of_encodes hresult
    rw [signedValue_zero] at hvalue
    rw [hvalue, hx, Int.sub_zero, Int.natAbs_zero]
    refine ⟨Nat.zero_le _, fun _ _ => ?_⟩
    rw [getLsbD_zero_eq, hresult.wide, Nat.zero_div]
    rfl
  have hm : x.natAbs ≠ 0 := Int.natAbs_ne_zero.mpr hx
  have he : r = (roundSum .nearest false (denormalFlag a b c) x).result :=
    congrArg FmaResult.result (fmaElem_of_nonzero_sum .nearest false a b c ha hb hc hx)
  have hmax : round53 .nearest (decide (x < 0)) x.natAbs ≤ maxMagnitude := by
    by_contra hover
    rw [he, roundSum_of_overflow _ _ _ _ (Nat.lt_of_not_le hover)] at hr
    exact hr (dblExponent_overflowResult_nearest _)
  have hresult : Encodes r (decide (x < 0)) (roundTo .nearest (decide (x < 0)) x.natAbs (gridUnit x.natAbs)) :=
    by rw [he]; exact roundSum_encodes .nearest _ x hx hmax
  have hdist : (x - scaledValue r * 2 ^ 1074).natAbs =
      ((x.natAbs : Int) - roundTo .nearest (decide (x < 0)) x.natAbs (gridUnit x.natAbs)).natAbs := by
    rw [scaledValue_of_encodes hresult, ← dist_signedValue (decide (x < 0)), signedValue_sign_natAbs]
  obtain ⟨n, hn, hle, heq⟩ := dist_to_side (decide (x < 0)) (dblSign y) x.natAbs (wideMagnitude y)
  rw [signedValue_sign_natAbs, ← scaledValue_wide] at hle heq
  have hgap : n ≤ x.natAbs / gridUnit x.natAbs * gridUnit x.natAbs ∨
      x.natAbs / gridUnit x.natAbs * gridUnit x.natAbs + gridUnit x.natAbs ≤ n := by
    rcases hn with hn | hn
    · rw [hn]
      exact wideMagnitude_off_gap y x.natAbs hm
    · rw [hn]
      exact .inl (Nat.zero_le _)
  have hnear := nearest_dist_le (decide (x < 0)) x.natAbs _ n (gridUnit_pos _) hgap
  rw [hdist]
  refine ⟨hnear.trans hle, fun hne htie => ?_⟩
  have hvalue := heq (Nat.le_antisymm hle (htie ▸ hnear))
  have hother : n ≠ roundTo .nearest (decide (x < 0)) x.natAbs (gridUnit x.natAbs) := by
    rintro rfl
    rw [← scaledValue_of_encodes hresult] at hvalue
    exact hne (mul_right_cancel₀ (by positivity) hvalue)
  have heven := nearest_tie_even (decide (x < 0)) x.natAbs _ n (gridUnit_pos _) hgap hother
    (Nat.le_antisymm hnear (htie ▸ hle))
  rw [getLsbD_zero_eq, hresult.wide, even_on_own_grid .nearest _ _ hm heven]
  rfl

end Sys2Proof.FiniteResults
end


section
/-! Proofs/DirectedResults.lean: the directed rounding modes and the flags of an inexact result, for finite operands
(40_fma_element.md rules R90, R92 to R95). A directed mode rounds toward zero on one side of zero and away from it on the
other. -/

namespace Sys2Proof.FiniteResults

open Machine

/-! ## Toward zero and away from it (rules R90, R93) -/

/-- The mode truncates the magnitudes of a sign. -/
def Truncates (rc : RoundingMode) (negative : Bool) : Prop :=
  (∀ m q, roundsUp rc negative m q = false) ∧ Machine.overflowResult rc negative = signedMax negative

/-- The mode raises the magnitudes of a sign. -/
def Raises (rc : RoundingMode) (negative : Bool) : Prop :=
  (∀ m q, roundsUp rc negative m q = true) ∧ Machine.overflowResult rc negative = signedInfinity negative

theorem truncates_down : Truncates .down false := ⟨fun _ _ => rfl, rfl⟩
theorem truncates_up : Truncates .up true := ⟨fun _ _ => rfl, rfl⟩
theorem truncates_zero (negative : Bool) : Truncates .zero negative := ⟨fun _ _ => rfl, rfl⟩
theorem raises_down : Raises .down true := ⟨fun _ _ => rfl, rfl⟩
theorem raises_up : Raises .up false := ⟨fun _ _ => rfl, rfl⟩

theorem encodes_max (negative : Bool) : Encodes (signedMax negative) negative maxMagnitude := by
  have hmax : signedMax negative = withSign negative (2046 * 2 ^ 52 + (2 ^ 52 - 1)) := by cases negative <;> decide
  obtain ⟨hexponent, hfraction, hsign⟩ := fields_withSign negative 2046 (2 ^ 52 - 1) (by decide) (by decide)
  rw [hmax]
  refine ⟨by rw [hexponent]; decide, hsign, ?_⟩
  rw [wideMagnitude_of_normal _ (by rw [hexponent]; decide), hexponent, hfraction, maxMagnitude_eq,
    show 2046 + 1073 = 3119 from rfl, show 2 ^ 52 + (2 ^ 52 - 1) = 2 ^ 53 - 1 from rfl]

theorem dblExponent_signedInfinity (negative : Bool) : dblExponent (signedInfinity negative) = 2047 := by
  cases negative <;> decide

section Directed

variable (rc : RoundingMode) (f : BitVec 6) (x : Int) (hx : x ≠ 0)
include hx

/-- A truncated sum: a finite value of its sign, below it, with no finite value between. -/
theorem roundSum_of_truncates (h : Truncates rc (decide (x < 0))) :
    ∃ n, Encodes (roundSum rc false f x).result (decide (x < 0)) n ∧ n ≤ x.natAbs ∧
      ∀ y, dblExponent y ≠ 2047 → wideMagnitude y ≤ x.natAbs → wideMagnitude y ≤ n := by
  obtain ⟨hdown, hover⟩ := h
  have hm : x.natAbs ≠ 0 := Int.natAbs_ne_zero.mpr hx
  rcases Nat.lt_or_ge maxMagnitude (round53 rc (decide (x < 0)) x.natAbs) with hbig | hmax
  · rw [roundSum_of_overflow rc false f x hbig, hover]
    exact ⟨maxMagnitude, encodes_max _, hbig.le.trans (roundTo_le_of_not_up rc _ _ _ (hdown _ _)),
      fun y hy _ => wideMagnitude_le_max y hy⟩
  · exact ⟨_, roundSum_encodes rc f x hx hmax, roundTo_le_of_not_up rc _ _ _ (hdown _ _),
      fun y _ => le_roundTo_of_off_gap rc _ _ _ _ (wideMagnitude_off_gap y _ hm) (gridUnit_pos _)⟩

/-- A sum rounded away from zero to a finite value: a value of its sign, above it, with no value between. -/
theorem roundSum_of_raises (h : Raises rc (decide (x < 0))) (hfinite : dblExponent (roundSum rc false f x).result ≠ 2047) :
    ∃ n, Encodes (roundSum rc false f x).result (decide (x < 0)) n ∧ x.natAbs ≤ n ∧
      ∀ y, x.natAbs ≤ wideMagnitude y → n ≤ wideMagnitude y := by
  obtain ⟨hup, hover⟩ := h
  have hm : x.natAbs ≠ 0 := Int.natAbs_ne_zero.mpr hx
  rcases Nat.lt_or_ge maxMagnitude (round53 rc (decide (x < 0)) x.natAbs) with hbig | hmax
  · rw [roundSum_of_overflow rc false f x hbig, hover, dblExponent_signedInfinity] at hfinite
    exact absurd rfl hfinite
  · exact ⟨_, roundSum_encodes rc f x hx hmax, le_roundTo_of_up rc _ _ _ (gridUnit_pos _) (hup _ _),
      fun y => roundTo_le_of_off_gap rc _ _ _ _ (wideMagnitude_off_gap y _ hm) (gridUnit_pos _)⟩

end Directed

/-! ## On the number line -/

/-- A sum of zero is a zero in every mode. -/
theorem scaledValue_of_zero_sum (rc : RoundingMode) (a b c : Quad) (ha : dblExponent a ≠ 2047) (hb : dblExponent b ≠ 2047)
    (hc : dblExponent c ≠ 2047) (hx : exactSum a b c = 0) :
    dblExponent (fmaElem rc false false false a b c).result ≠ 2047 ∧
      scaledValue (fmaElem rc false false false a b c).result * 2 ^ 1074 = 0 := by
  have h := encodes_zero (zeroSign rc a b c)
  rw [fmaElem_of_zero_sum rc false a b c ha hb hc hx]
  exact ⟨h.finite, (scaledValue_of_encodes h).trans (signedValue_zero _)⟩

/-- Rounded down: from zero down away from zero, from zero up toward it. -/
theorem roundSum_down (f : BitVec 6) (x : Int) (hx : x ≠ 0) (hfinite : dblExponent (roundSum .down false f x).result ≠ 2047)
    (y : Quad) (hy : dblExponent y ≠ 2047) :
    scaledValue (roundSum .down false f x).result * 2 ^ 1074 ≤ x ∧
      (scaledValue y * 2 ^ 1074 ≤ x → scaledValue y * 2 ^ 1074 ≤ scaledValue (roundSum .down false f x).result * 2 ^ 1074) := by
  rw [scaledValue_wide y]
  by_cases hneg : x < 0
  · obtain ⟨n, hn, hle, htight⟩ := roundSum_of_raises .down f x hx (by rw [decide_eq_true hneg]; exact raises_down) hfinite
    have hy' := htight y
    rw [scaledValue_of_encodes hn, decide_eq_true hneg]
    cases dblSign y <;> simp only [signedValue, if_true, Bool.false_eq_true, if_false] <;> omega
  · obtain ⟨n, hn, hle, htight⟩ := roundSum_of_truncates .down f x hx (by rw [decide_eq_false hneg]; exact truncates_down)
    have hy' := htight y hy
    rw [scaledValue_of_encodes hn, decide_eq_false hneg]
    cases dblSign y <;> simp only [signedValue, if_true, Bool.false_eq_true, if_false] <;> omega

/-- Rounded up: from zero down toward zero, from zero up away from it. -/
theorem roundSum_up (f : BitVec 6) (x : Int) (hx : x ≠ 0) (hfinite : dblExponent (roundSum .up false f x).result ≠ 2047)
    (y : Quad) (hy : dblExponent y ≠ 2047) :
    x ≤ scaledValue (roundSum .up false f x).result * 2 ^ 1074 ∧
      (x ≤ scaledValue y * 2 ^ 1074 → scaledValue (roundSum .up false f x).result * 2 ^ 1074 ≤ scaledValue y * 2 ^ 1074) := by
  rw [scaledValue_wide y]
  by_cases hneg : x < 0
  · obtain ⟨n, hn, hle, htight⟩ := roundSum_of_truncates .up f x hx (by rw [decide_eq_true hneg]; exact truncates_up)
    have hy' := htight y hy
    rw [scaledValue_of_encodes hn, decide_eq_true hneg]
    cases dblSign y <;> simp only [signedValue, if_true, Bool.false_eq_true, if_false] <;> omega
  · obtain ⟨n, hn, hle, htight⟩ := roundSum_of_raises .up f x hx (by rw [decide_eq_false hneg]; exact raises_up) hfinite
    have hy' := htight y
    rw [scaledValue_of_encodes hn, decide_eq_false hneg]
    cases dblSign y <;> simp only [signedValue, if_true, Bool.false_eq_true, if_false] <;> omega

/-- Rounded toward zero. -/
theorem roundSum_zero (f : BitVec 6) (x : Int) (hx : x ≠ 0) (y : Quad) (hy : dblExponent y ≠ 2047) :
    dblExponent (roundSum .zero false f x).result ≠ 2047 ∧
      (scaledValue (roundSum .zero false f x).result * 2 ^ 1074).natAbs ≤ x.natAbs ∧
      ((scaledValue y * 2 ^ 1074).natAbs ≤ x.natAbs →
        (scaledValue y * 2 ^ 1074).natAbs ≤ (scaledValue (roundSum .zero false f x).result * 2 ^ 1074).natAbs) := by
  obtain ⟨n, hn, hle, htight⟩ := roundSum_of_truncates .zero f x hx (truncates_zero _)
  rw [scaledValue_of_encodes hn, scaledValue_wide y, natAbs_signedValue, natAbs_signedValue]
  exact ⟨hn.finite, hle, htight y hy⟩

/-- Settles O53: each directed mode by the sign of the sum; the sign of the result is that of the sum in every mode. -/
theorem directedResultIsTight : Obligations.DirectedResultIsTight := by
  intro a b c y ha hb hc hy x v finite w
  by_cases hx : x = 0
  · have hzero (rc : RoundingMode) : finite rc ∧ v rc = 0 := scaledValue_of_zero_sum rc a b c ha hb hc hx
    rw [(hzero .down).2, (hzero .up).2, (hzero .zero).2, hx]
    exact ⟨fun _ => ⟨le_refl _, id⟩, fun _ => ⟨le_refl _, id⟩, (hzero .zero).1, le_refl _, id, fun h => absurd rfl h⟩
  · have he (rc : RoundingMode) : fmaElem rc false false false a b c = roundSum rc false (denormalFlag a b c) x :=
      fmaElem_of_nonzero_sum rc false a b c ha hb hc hx
    have hzero := roundSum_zero (denormalFlag a b c) x hx y hy
    simp only [v, finite, he]
    exact ⟨fun hfinite => roundSum_down _ x hx hfinite y hy, fun hfinite => roundSum_up _ x hx hfinite y hy, hzero.1, hzero.2.1,
      hzero.2.2, fun _ rc => dblSign_roundSum rc _ x hx⟩

/-! ## The flags of an inexact result (rules R92, R94, R95) -/

theorem flags_denormal (p : Bool) :
    flagIf p flagDE &&& flagPE = 0#6 ∧ flagIf p flagDE &&& flagUE = 0#6 := by cases p <;> decide

theorem flags_overflow (p : Bool) : (flagIf p flagDE ||| (flagOE ||| flagPE)) &&& flagOE ≠ 0#6 := by cases p <;> decide

theorem flags_inexact (p lost : Bool) :
    ((flagIf p flagDE ||| flagIf lost flagPE) &&& flagPE ≠ 0#6 ↔ lost = true) ∧
      (flagIf p flagDE ||| flagIf lost flagPE) &&& flagUE = 0#6 := by cases p <;> cases lost <;> decide

theorem flags_tiny (p lost : Bool) :
    ((flagIf p flagDE ||| flagIf lost (flagUE ||| flagPE)) &&& flagPE ≠ 0#6 ↔ lost = true) ∧
      ((flagIf p flagDE ||| flagIf lost (flagUE ||| flagPE)) &&& flagUE ≠ 0#6 ↔ lost = true) ∧
      flagIf p flagDE ||| flagUE ||| flagPE = flagIf p flagDE ||| flagIf lost (flagUE ||| flagPE) ||| flagUE ||| flagPE := by
  cases p <;> cases lost <;> decide

/-- Step 12 with FTZ. -/
theorem roundSum_of_tiny_ftz (rc : RoundingMode) (f : BitVec 6) (x : Int)
    (h : round53 rc (decide (x < 0)) x.natAbs < 2 ^ 1126) :
    roundSum rc true f x = ⟨signedZero (decide (x < 0)), f ||| flagUE ||| flagPE, true⟩ := by
  have hmax : ¬ maxMagnitude < round53 rc (decide (x < 0)) x.natAbs := by
    have := minNormal_le_max
    omega
  rw [← minNormalMagnitude_eq] at h
  simp only [roundSum, if_neg hmax, if_pos h, if_true]

theorem signedZero_decide (x : Int) :
    signedZero (decide (x < 0)) = if x < 0 then 0x8000000000000000#64 else 0#64 := by
  rw [signedZero]
  simp only [decide_eq_true_eq]

/-- The value of a result differs from the sum exactly where rounding changed the magnitude. -/
theorem value_ne_iff {w : Quad} {x : Int} {n : Nat} (h : Encodes w (decide (x < 0)) n) :
    scaledValue w * 2 ^ 1074 ≠ x ↔ (n != x.natAbs) = true := by
  have hx := signedValue_sign_natAbs x
  rw [scaledValue_of_encodes h, bne_iff_ne, ← not_iff_not, not_not, not_not, ← signedValue_inj (decide (x < 0)), hx]

/-- Settles O55: with a zero sum nothing is lost; otherwise by the step that ends the rounding, of the overflow, the tiny and
the normal result. -/
theorem inexactAndUnderflowFlags : Obligations.InexactAndUnderflowFlags := by
  intro rc a b c ha hb hc x e f
  by_cases hx : x = 0
  · have he : e = ⟨signedZero (zeroSign rc a b c), denormalFlag a b c, false⟩ := fmaElem_of_zero_sum rc false a b c ha hb hc hx
    have hf : f = ⟨signedZero (zeroSign rc a b c), denormalFlag a b c, false⟩ := fmaElem_of_zero_sum rc true a b c ha hb hc hx
    have hvalue : scaledValue e.result * 2 ^ 1074 = 0 := (scaledValue_of_zero_sum rc a b c ha hb hc hx).2
    obtain ⟨hpe, hue⟩ := flags_denormal (isDenormal a || isDenormal b || isDenormal c)
    rw [hvalue, hx, he, hf]
    exact ⟨fun _ => ⟨iff_of_false (not_not.mpr hpe) (not_not.mpr rfl), iff_of_false (not_not.mpr hue) nofun⟩, rfl,
      iff_of_false nofun fun h => h.1 rfl, nofun⟩
  have he : e = roundSum rc false (denormalFlag a b c) x := fmaElem_of_nonzero_sum rc false a b c ha hb hc hx
  have hf : f = roundSum rc true (denormalFlag a b c) x := fmaElem_of_nonzero_sum rc true a b c ha hb hc hx
  rcases Nat.lt_or_ge maxMagnitude (round53 rc (decide (x < 0)) x.natAbs) with hover | hmax
  case inl =>
    rw [he, hf, roundSum_of_overflow rc false _ x hover, roundSum_of_overflow rc true _ x hover]
    have hbig : ¬ round53 rc (decide (x < 0)) x.natAbs < 2 ^ 1126 := by
      have := minNormal_le_max
      omega
    exact ⟨fun h => absurd h (flags_overflow _), rfl, iff_of_false nofun fun h => hbig h.2, nofun⟩
  have hvalue := value_ne_iff (he ▸ roundSum_encodes rc (denormalFlag a b c) x hx hmax)
  rcases Nat.lt_or_ge (round53 rc (decide (x < 0)) x.natAbs) (2 ^ 1126) with htiny | hnormal
  case inl =>
    have hunit : gridUnit x.natAbs = 2 ^ 1074 := gridUnit_of_tiny rc _ _ (Int.natAbs_ne_zero.mpr hx) htiny
    rw [he, hunit, roundSum_of_tiny rc _ x htiny] at hvalue
    rw [he, hf, roundSum_of_tiny rc _ x htiny, roundSum_of_tiny_ftz rc _ x htiny]
    obtain ⟨hpe, hue, hflags⟩ := flags_tiny (isDenormal a || isDenormal b || isDenormal c)
      (roundTo rc (decide (x < 0)) x.natAbs (2 ^ 1074) != x.natAbs)
    exact ⟨fun _ => ⟨hpe.trans hvalue.symm, hue.trans (hvalue.symm.trans (and_iff_right rfl).symm)⟩, rfl,
      iff_of_true rfl ⟨hx, htiny⟩, fun _ => ⟨signedZero_decide x, hflags⟩⟩
  case inr =>
    rw [he, ← round53_eq_roundTo_grid rc _ _ hnormal, roundSum_of_normal rc _ x false hmax hnormal] at hvalue
    rw [he, hf, roundSum_of_normal rc _ x false hmax hnormal, roundSum_of_normal rc _ x true hmax hnormal]
    obtain ⟨hpe, hue⟩ := flags_inexact (isDenormal a || isDenormal b || isDenormal c)
      (round53 rc (decide (x < 0)) x.natAbs != x.natAbs)
    exact ⟨fun _ => ⟨hpe.trans hvalue.symm, iff_of_false (not_not.mpr hue) nofun⟩, rfl,
      iff_of_false nofun fun h => Nat.not_lt.mpr hnormal h.2, nofun⟩

end Sys2Proof.FiniteResults
end
